-- ==== Sys2Proof/Word.lean ====
section
/-! DEFINITION. The widths of 00_scope.md R9 and 10_state.md R25. Every value of this block is unsigned (R9). -/

namespace Sys2Proof

/-- `Byte`, 8 bits unsigned (00_scope.md R9). -/
abbrev Byte := BitVec 8

/-- `Word16`, 16 bits unsigned (00_scope.md R9). -/
abbrev Word16 := BitVec 16

/-- A USB device address, 7 bits (10_state.md R25). -/
abbrev DevAddr := BitVec 7

end Sys2Proof
end

