-- ==== Sys2Proof/Syntax.lean ====
section
/-! DEFINITION. The SETUP packet, the request it carries, and one constructor of `Instr` per row of
spec/opcode_table.json (30_encoding.md R80, R83, R86). A constructor's arguments are all the bits its row leaves free,
so that no bit of a packet is lost. -/

namespace Sys2Proof

/-- The 8 bytes of a SETUP packet, in the order of the wire (30_encoding.md R80). -/
structure SetupPacket where
  b0 : Byte
  b1 : Byte
  b2 : Byte
  b3 : Byte
  b4 : Byte
  b5 : Byte
  b6 : Byte
  b7 : Byte
deriving DecidableEq, Repr, Inhabited

/-- The ControlRequest, as the request latch holds it (10_state.md R21, 30_encoding.md R80). -/
structure Request where
  /-- `req_rt`, bmRequestType -/
  rt : Byte
  /-- `req_rq`, bRequest -/
  rq : Byte
  /-- `req_val`, wValue -/
  val : Word16
  /-- `req_idx`, wIndex -/
  idx : Word16
  /-- `req_len`, wLength -/
  len : Word16
deriving DecidableEq, Repr, Inhabited

/-- The 14 requests of the dispatch map, in its order (30_encoding.md R86). -/
inductive Instr where
  /-- row 1: `rt` is not tested (D3); `idx` is wIndex, `len` is wLength -/
  | getDescriptorDevice (rt : Byte) (idx len : Word16)
  /-- row 2 -/
  | getDescriptorConfiguration (rt : Byte) (idx len : Word16)
  /-- row 3 -/
  | getDescriptorHidReport (rt : Byte) (idx len : Word16)
  /-- row 4: `i` is the string index, val_lo -/
  | getDescriptorString (rt i : Byte) (idx len : Word16)
  /-- row 5: a wValue that rows 1 to 4 do not take -/
  | getDescriptorOther (rt : Byte) (val idx len : Word16)
  /-- row 6 -/
  | setAddress (rt : Byte) (val idx len : Word16)
  /-- row 7: bmRequestType is 0x00 -/
  | setConfiguration (val idx len : Word16)
  /-- row 8: bmRequestType is 0x80 -/
  | getConfiguration (val idx len : Word16)
  /-- row 9: bmRequestType is 0x21 -/
  | hidSetIdle (val idx len : Word16)
  /-- row 10: val_lo is 0x01, `valHi` is not tested (D4) -/
  | hidSetReportExit (valHi : Byte) (idx len : Word16)
  /-- row 11: val_lo is 0x02 -/
  | hidSetReportFlash (valHi : Byte) (idx len : Word16)
  /-- row 12: a wValue that rows 10 and 11 do not take -/
  | hidSetReportOther (val idx len : Word16)
  /-- row 13: bmRequestType is 0xA1, val_lo is 0x01 -/
  | hidGetReportDeviceInfo (valHi : Byte) (idx len : Word16)
  /-- row 14: every packet no earlier row takes -/
  | unsupported (rt rq : Byte) (val idx len : Word16)
deriving DecidableEq, Repr, Inhabited

end Sys2Proof
end

