-- ==== Sys2Proof/Decode.lean ====
section
/-! DEFINITION. The decoder and the encoder of SETUP packets (30_encoding.md R80 to R88). -/

namespace Sys2Proof

/-- `LE16(b0, b1)` (00_scope.md R9). -/
def le16 (b0 b1 : Byte) : Word16 := BitVec.ofNat 16 (b0.toNat + 256 * b1.toNat)

/-- `v[7:0]` of a 16-bit value; `val_lo` of wValue (30_encoding.md R82). -/
def lo8 (v : Word16) : Byte := BitVec.ofNat 8 v.toNat

/-- `v[15:8]` of a 16-bit value; `val_hi` of wValue (30_encoding.md R82). -/
def hi8 (v : Word16) : Byte := BitVec.ofNat 8 (v.toNat / 256)

/-- Decode of the five fields (30_encoding.md R80, 41_control_transfer.md R141). -/
def requestOf (p : SetupPacket) : Request where
  rt := p.b0
  rq := p.b1
  val := le16 p.b2 p.b3
  idx := le16 p.b4 p.b5
  len := le16 p.b6 p.b7

/-- The packet that carries a request: the inverse layout of R80, as the host notation of 30_encoding.md R91 sends it. -/
def packetOf (r : Request) : SetupPacket where
  b0 := r.rt
  b1 := r.rq
  b2 := lo8 r.val
  b3 := hi8 r.val
  b4 := lo8 r.idx
  b5 := hi8 r.idx
  b6 := lo8 r.len
  b7 := hi8 r.len

/-- The dispatch map, row by row in its order: the first row whose condition holds is taken (30_encoding.md R86).
`b0` is bmRequestType, `b1` bRequest, `b2` val_lo and `b3` val_hi; the codes are those of R84 and R85. -/
def decodeSetup (p : SetupPacket) : Instr :=
  let val := le16 p.b2 p.b3
  let idx := le16 p.b4 p.b5
  let len := le16 p.b6 p.b7
  if p.b1 = 0x06 ∧ p.b3 = 0x01 ∧ p.b2 = 0x00 then .getDescriptorDevice p.b0 idx len
  else if p.b1 = 0x06 ∧ p.b3 = 0x02 ∧ p.b2 = 0x00 then .getDescriptorConfiguration p.b0 idx len
  else if p.b1 = 0x06 ∧ p.b3 = 0x22 ∧ p.b2 = 0x00 then .getDescriptorHidReport p.b0 idx len
  else if p.b1 = 0x06 ∧ p.b3 = 0x03 then .getDescriptorString p.b0 p.b2 idx len
  else if p.b1 = 0x06 then .getDescriptorOther p.b0 val idx len
  else if p.b1 = 0x05 then .setAddress p.b0 val idx len
  else if p.b0 = 0x00 ∧ p.b1 = 0x09 then .setConfiguration val idx len
  else if p.b0 = 0x80 ∧ p.b1 = 0x08 then .getConfiguration val idx len
  else if p.b0 = 0x21 ∧ p.b1 = 0x0A then .hidSetIdle val idx len
  else if p.b0 = 0x21 ∧ p.b1 = 0x09 ∧ p.b2 = 0x01 then .hidSetReportExit p.b3 idx len
  else if p.b0 = 0x21 ∧ p.b1 = 0x09 ∧ p.b2 = 0x02 then .hidSetReportFlash p.b3 idx len
  else if p.b0 = 0x21 ∧ p.b1 = 0x09 then .hidSetReportOther val idx len
  else if p.b0 = 0xA1 ∧ p.b1 = 0x01 ∧ p.b2 = 0x01 then .hidGetReportDeviceInfo p.b3 idx len
  else .unsupported p.b0 p.b1 val idx len

/-- Why bytes are no SETUP packet. -/
inductive DecodeError where
  /-- a SETUP packet is always 8 bytes (30_encoding.md R88); `n` is the length found -/
  | notEightBytes (n : Nat)
deriving DecidableEq, Repr

/-- The decoder on any bytes: 8 bytes are a SETUP packet and have an instruction (row 14 takes what no other row does,
R86, R87); any other length is rejected by name (R88). -/
def decode : List Byte → Except DecodeError Instr
  | [b0, b1, b2, b3, b4, b5, b6, b7] => .ok (decodeSetup ⟨b0, b1, b2, b3, b4, b5, b6, b7⟩)
  | bytes => .error (.notEightBytes bytes.length)

/-- The request an instruction is: its row's fixed fields and its operands (30_encoding.md R86). -/
def Instr.request : Instr → Request
  | .getDescriptorDevice rt idx len => ⟨rt, 0x06, 0x0100, idx, len⟩
  | .getDescriptorConfiguration rt idx len => ⟨rt, 0x06, 0x0200, idx, len⟩
  | .getDescriptorHidReport rt idx len => ⟨rt, 0x06, 0x2200, idx, len⟩
  | .getDescriptorString rt i idx len => ⟨rt, 0x06, le16 i 0x03, idx, len⟩
  | .getDescriptorOther rt val idx len => ⟨rt, 0x06, val, idx, len⟩
  | .setAddress rt val idx len => ⟨rt, 0x05, val, idx, len⟩
  | .setConfiguration val idx len => ⟨0x00, 0x09, val, idx, len⟩
  | .getConfiguration val idx len => ⟨0x80, 0x08, val, idx, len⟩
  | .hidSetIdle val idx len => ⟨0x21, 0x0A, val, idx, len⟩
  | .hidSetReportExit valHi idx len => ⟨0x21, 0x09, le16 0x01 valHi, idx, len⟩
  | .hidSetReportFlash valHi idx len => ⟨0x21, 0x09, le16 0x02 valHi, idx, len⟩
  | .hidSetReportOther val idx len => ⟨0x21, 0x09, val, idx, len⟩
  | .hidGetReportDeviceInfo valHi idx len => ⟨0xA1, 0x01, le16 0x01 valHi, idx, len⟩
  | .unsupported rt rq val idx len => ⟨rt, rq, val, idx, len⟩

/-- The SETUP packet of an instruction. -/
def encode (i : Instr) : SetupPacket := packetOf i.request

/-- The bytes of a packet in the order of the wire. -/
def SetupPacket.bytes (p : SetupPacket) : List Byte :=
  [p.b0, p.b1, p.b2, p.b3, p.b4, p.b5, p.b6, p.b7]

/-- `setup64`, the 8 bytes as one little-endian number (30_encoding.md R83). -/
def setup64 (p : SetupPacket) : Nat :=
  p.b0.toNat + 2 ^ 8 * p.b1.toNat + 2 ^ 16 * p.b2.toNat + 2 ^ 24 * p.b3.toNat +
    2 ^ 32 * p.b4.toNat + 2 ^ 40 * p.b5.toNat + 2 ^ 48 * p.b6.toNat + 2 ^ 56 * p.b7.toNat

/-- Byte `k` of a little-endian number: bits 8k+7 to 8k (30_encoding.md R83). -/
def byteOf (w k : Nat) : Byte := BitVec.ofNat 8 (w / 256 ^ k)

/-- The packet whose SETUP word is `w`: byte i holds bits 8i+7 to 8i (30_encoding.md R83). -/
def packetOfWord (w : Nat) : SetupPacket :=
  ⟨byteOf w 0, byteOf w 1, byteOf w 2, byteOf w 3, byteOf w 4, byteOf w 5, byteOf w 6, byteOf w 7⟩

/-- A row of spec/opcode_table.json: a SETUP word matches when `setup64 & mask = pattern` (30_encoding.md R83). -/
structure OpcodeRow where
  mnemonic : String
  pattern  : Nat
  mask     : Nat
deriving DecidableEq, Repr

/-- spec/opcode_table.json, in priority order. -/
def opcodeRows : List OpcodeRow :=
  [⟨"GET_DESCRIPTOR.DEVICE", 0x0000000001000600, 0x00000000FFFFFF00⟩,
   ⟨"GET_DESCRIPTOR.CONFIGURATION", 0x0000000002000600, 0x00000000FFFFFF00⟩,
   ⟨"GET_DESCRIPTOR.HID_REPORT", 0x0000000022000600, 0x00000000FFFFFF00⟩,
   ⟨"GET_DESCRIPTOR.STRING", 0x0000000003000600, 0x00000000FF00FF00⟩,
   ⟨"GET_DESCRIPTOR.OTHER", 0x0000000000000600, 0x000000000000FF00⟩,
   ⟨"SET_ADDRESS", 0x0000000000000500, 0x000000000000FF00⟩,
   ⟨"SET_CONFIGURATION", 0x0000000000000900, 0x000000000000FFFF⟩,
   ⟨"GET_CONFIGURATION", 0x0000000000000880, 0x000000000000FFFF⟩,
   ⟨"HID_SET_IDLE", 0x0000000000000A21, 0x000000000000FFFF⟩,
   ⟨"HID_SET_REPORT.EXIT", 0x0000000000010921, 0x0000000000FFFFFF⟩,
   ⟨"HID_SET_REPORT.FLASH", 0x0000000000020921, 0x0000000000FFFFFF⟩,
   ⟨"HID_SET_REPORT.OTHER", 0x0000000000000921, 0x000000000000FFFF⟩,
   ⟨"HID_GET_REPORT.DEVICE_INFO", 0x00000000000101A1, 0x0000000000FFFFFF⟩,
   ⟨"UNSUPPORTED", 0x0000000000000000, 0x0000000000000000⟩]

/-- The mask-and-pattern test of a row (30_encoding.md R83). -/
def OpcodeRow.matches (r : OpcodeRow) (w : Nat) : Bool := w &&& r.mask == r.pattern

/-- The row of an instruction, by its place in the table (0 for row 1). -/
def Instr.row : Instr → Nat
  | .getDescriptorDevice _ _ _ => 0
  | .getDescriptorConfiguration _ _ _ => 1
  | .getDescriptorHidReport _ _ _ => 2
  | .getDescriptorString _ _ _ _ => 3
  | .getDescriptorOther _ _ _ _ => 4
  | .setAddress _ _ _ _ => 5
  | .setConfiguration _ _ _ => 6
  | .getConfiguration _ _ _ => 7
  | .hidSetIdle _ _ _ => 8
  | .hidSetReportExit _ _ _ => 9
  | .hidSetReportFlash _ _ _ => 10
  | .hidSetReportOther _ _ _ => 11
  | .hidGetReportDeviceInfo _ _ _ => 12
  | .unsupported _ _ _ _ _ => 13

/-- What the decoder reads from an instruction whose bits are `w`, numbered as spec/opcode_table.json numbers them
(R83): the bytes are laid out with bits 7:0 first, the bits above `nbits` are 0, and the packet is 8 bytes. -/
def decodeTableWord (nbits w : Nat) : Option Instr :=
  match decode (packetOfWord (w % 2 ^ nbits)).bytes with
  | .ok i => some i
  | .error _ => none

end Sys2Proof
end

