-- ==== Sys2Proof/Machine/ReportDesc.lean ====
section
/-! DEFINITION. What 40_descriptor_server.md R104 asks of the bytes of `HID_REPORT_DESC`. The bytes are read as the items
of the USB HID class, version 1.11, section 6.2.2 (PRESUMED, log 22). -/

namespace Sys2Proof.Machine

/-- One item of a report descriptor: its tag and type (the prefix byte with its two size bits zero) and its data. -/
structure HidItem where
  kind : Nat
  data : Nat
deriving DecidableEq, Repr

/-- The number whose little-endian bytes are given. -/
def leNat (l : List Byte) : Nat := l.foldr (fun b v => b.toNat + 256 * v) 0

/-- How many data bytes a short item has, by the size bits of its prefix. -/
def hidDataSize (pre : Byte) : Nat := if pre.toNat % 4 = 3 then 4 else pre.toNat % 4

/-- The first item of the bytes, and the bytes behind it; `none` if they end inside it. A long item (prefix 0xFE) has no
meaning in HID 1.11 and is passed over. -/
def hidItem : List Byte → Option (HidItem × List Byte)
  | [] => none
  | pre :: rest =>
    if pre = 0xFE then
      match rest with
      | n :: _ :: rest =>
        if n.toNat ≤ rest.length then some (⟨0xFC, 0⟩, rest.drop n.toNat) else none
      | _ => none
    else if hidDataSize pre ≤ rest.length then
      some (⟨pre.toNat / 4 * 4, leNat (rest.take (hidDataSize pre))⟩, rest.drop (hidDataSize pre))
    else none

/-- The items of the bytes, at most `fuel` of them; `none` if the bytes are no sequence of items. -/
def hidItems : Nat → List Byte → Option (List HidItem)
  | _, [] => some []
  | 0, _ :: _ => none
  | fuel + 1, b :: bs =>
    match hidItem (b :: bs) with
    | none => none
    | some (i, rest) => (hidItems fuel rest).map (fun is => i :: is)

/-- The global items that a field of a report takes its place and size from. -/
structure HidGlobals where
  reportSize  : Nat
  reportId    : Nat
  reportCount : Nat
deriving DecidableEq, Repr

/-- What a report descriptor declares: whether a vendor-defined usage page (0xFF00 to 0xFFFF) is among its usage pages,
whether it has an input or an output field, and the report id and size in bits of each feature field. -/
structure HidDeclared where
  vendorPage : Bool
  inOrOut    : Bool
  features   : List (Nat × Nat)
deriving DecidableEq, Repr

/-- The declarations of the items, on top of those before them; `saved` is the stack of the items Push and Pop. `none`
if Pop finds it empty. -/
def hidDeclare : List HidItem → HidGlobals → List HidGlobals → HidDeclared → Option HidDeclared
  | [], _, _, d => some d
  | i :: is, g, saved, d =>
    if i.kind = 0x04 then
      hidDeclare is g saved { d with vendorPage := d.vendorPage || (decide (0xFF00 ≤ i.data) && decide (i.data ≤ 0xFFFF)) }
    else if i.kind = 0x74 then hidDeclare is { g with reportSize := i.data } saved d
    else if i.kind = 0x84 then hidDeclare is { g with reportId := i.data } saved d
    else if i.kind = 0x94 then hidDeclare is { g with reportCount := i.data } saved d
    else if i.kind = 0xA4 then hidDeclare is g (g :: saved) d
    else if i.kind = 0xB4 then
      match saved with
      | [] => none
      | g' :: saved' => hidDeclare is g' saved' d
    else if i.kind = 0x80 ∨ i.kind = 0x90 then hidDeclare is g saved { d with inOrOut := true }
    else if i.kind = 0xB0 then
      hidDeclare is g saved { d with features := d.features ++ [(g.reportId, g.reportSize * g.reportCount)] }
    else hidDeclare is g saved d

/-- What the bytes of a report descriptor declare; `none` if they are no report descriptor. -/
def hidDeclared (bytes : List Byte) : Option HidDeclared :=
  match hidItems bytes.length bytes with
  | none => none
  | some is => hidDeclare is ⟨0, 0, 0⟩ [] ⟨false, false, []⟩

/-- The payload of feature report `id` in bytes, without its id byte: its fields together, up to a whole byte. -/
def featureBytes (d : HidDeclared) (id : Nat) : Nat :=
  (((d.features.filter (fun f => f.1 == id)).map Prod.snd).sum + 7) / 8

/-- Conditions (a) to (d) of 40_descriptor_server.md R104. -/
def reportDescOk (bytes : List Byte) : Bool :=
  match hidDeclared bytes with
  | none => false
  | some d => d.vendorPage && featureBytes d 1 == 6 && featureBytes d 2 == 131 && !d.inOrOut

end Sys2Proof.Machine
end

