-- ==== Sys2Proof/Config.lean ====
section
/-! DEFINITION. The instance parameters of 00_scope.md R8 and 92_eei_decisions.md D34, what R8 and 40_descriptor_server.md
R101 to R105 require of them, and the free values. The parameters the spec leaves open are ONE constant with no body
(`Config.raw`): nothing in Lean can say what it is. -/

namespace Sys2Proof

/-- A set of reset causes (10_state.md R37). -/
structure Causes where
  powerOn  : Bool
  external : Bool
  watchdog : Bool
  brownOut : Bool
deriving DecidableEq, Repr, Inhabited

/-- ∅ -/
def Causes.none : Causes := ⟨false, false, false, false⟩

/-- `P_ACK_ORDER` (00_scope.md R8, D12). -/
inductive AckOrder where
  | ackThenProcess
  | processThenAck
deriving DecidableEq, Repr, Inhabited

/-- `P_CHUNK_MODE` (00_scope.md R8, D14). -/
inductive ChunkMode where
  | fromLength
  | fullBuffer
deriving DecidableEq, Repr, Inhabited

/-- `P_BOOT_WINDOW` (00_scope.md R8, D32). -/
inductive BootWindow where
  | present
  | absent
deriving DecidableEq, Repr, Inhabited

/-- The parameters of an instance, under the spec's names in lower case. `ADDR_WIDTH` and `ADDR_SCALE` follow from
`FLASH_SIZE` (R8, D16): see Machine/Operands.lean. `TICK_PERIOD` and `SETTLE_DELAY` are timing only (R330) and are not
here (log 16). -/
structure Params where
  pageSize         : Nat
  flashSize        : Nat
  bootStart        : Nat
  ackOrder         : AckOrder
  chunkMode        : ChunkMode
  exitResetCause   : Causes
  magicKeyValue    : Nat
  magicWidth       : Nat
  bootWindow       : BootWindow
  bootTimeoutTicks : Nat
  ddClass          : Byte
  ddSubClass       : Byte
  ddProtocol       : Byte
  ddBcdDevice      : Word16
  ddIManufacturer  : Byte
  ddIProduct       : Byte
  ddISerial        : Byte
  cdValue          : Byte
  cdIConfig        : Byte
  cdAttr           : Byte
  cdMaxPower       : Byte
  idSubClass       : Byte
  idProtocol       : Byte
  idIInterface     : Byte
  hdBcdHid         : Word16
  hdCountry        : Byte
  ep1Size          : Word16
  ep1Interval      : Byte
  /-- `HID_REPORT_DESC`; `HRD_LEN` is its length (40_descriptor_server.md R104) -/
  hidReportDesc    : List Byte
  /-- `STRING_TABLE`: an index and the UTF-16 code units of its text (40_descriptor_server.md R105) -/
  strings          : List (Byte × List Word16)
deriving DecidableEq, Repr, Inhabited

/-- A string index of the device descriptor is 0 or in the table (40_descriptor_server.md R102). -/
def Params.stringRefOk (p : Params) (i : Byte) : Bool :=
  i == 0 || p.strings.any (fun e => e.1 == i)

/-- The geometry and the boot values (00_scope.md R8). -/
def Params.numbersOk (p : Params) : Bool :=
  (List.range 15).any (fun k => p.pageSize == 2 ^ (k + 1)) &&
  p.flashSize % p.pageSize == 0 &&
  decide (p.flashSize < 2 ^ 32) &&
  p.bootStart % p.pageSize == 0 &&
  decide (p.bootStart < p.flashSize) &&
  decide (0 < p.magicKeyValue) &&
  decide (p.magicKeyValue < 2 ^ p.magicWidth) &&
  decide (1 ≤ p.bootTimeoutTicks) &&
  decide (p.bootTimeoutTicks ≤ 751)

/-- `HID_REPORT_DESC` has at most 255 bytes and declares what 40_descriptor_server.md R104 asks for (R101, R104). -/
def Params.hidReportOk (p : Params) : Bool :=
  decide (p.hidReportDesc.length ≤ 255) && Machine.reportDescOk p.hidReportDesc

/-- The string table is a map whose blobs fit, it holds a device string and a vendor string, which are two entries beside
the language-ID list that index 0 may name (log 23), and every string index of the device descriptor is 0 or in it
(40_descriptor_server.md R102, R105). -/
def Params.stringsOk (p : Params) : Bool :=
  p.strings.all (fun e => decide (e.2.length ≤ 126)) &&
  decide ((p.strings.map Prod.fst).Nodup) &&
  decide (2 ≤ (p.strings.filter (fun e => e.1 != 0)).length) &&
  p.stringRefOk p.ddIManufacturer &&
  p.stringRefOk p.ddIProduct &&
  p.stringRefOk p.ddISerial

/-- What 00_scope.md R8 and 40_descriptor_server.md R101 to R105 require of an instance. -/
def Params.wf (p : Params) : Bool := p.numbersOk && p.hidReportOk && p.stringsOk

/-- Example instance E1 of 00_scope.md R8 and D49, with the parameters of 95_test_vectors.md §0.1: the string table is T1,
the report descriptor the reconstruction G11 of 93_implementation_defined.md, and the other descriptor bytes the source
does not give are 0. No definition of the machine reads it but
`Config.params`, for a `Config.raw` that R8 does not allow. -/
def Params.e1 : Params where
  pageSize := 128
  flashSize := 32768
  bootStart := 0x7800
  ackOrder := .ackThenProcess
  chunkMode := .fromLength
  exitResetCause := ⟨false, false, true, false⟩
  magicKeyValue := 0x7777
  magicWidth := 16
  bootWindow := .present
  bootTimeoutTicks := 751
  ddClass := 0
  ddSubClass := 0
  ddProtocol := 0
  ddBcdDevice := 0
  ddIManufacturer := 0
  ddIProduct := 0
  ddISerial := 0
  cdValue := 0
  cdIConfig := 0
  cdAttr := 0
  cdMaxPower := 0
  idSubClass := 0
  idProtocol := 0
  idIInterface := 0
  hdBcdHid := 0
  hdCountry := 0
  ep1Size := 0
  ep1Interval := 0
  hidReportDesc :=
    [0x06, 0x00, 0xFF, 0x09, 0x01, 0xA1, 0x01, 0x15, 0x00, 0x26, 0xFF, 0x00, 0x75, 0x08,
     0x85, 0x01, 0x95, 0x06, 0x09, 0x00, 0xB2, 0x02, 0x01,
     0x85, 0x02, 0x95, 0x83, 0x09, 0x00, 0xB2, 0x02, 0x01, 0xC0]
  strings :=
    [(1, [0x0041, 0x0042, 0x0043]), (2, List.replicate 64 0x0041), (3, List.replicate 31 0x0042)]

/-- The parameters of the machine at hand: free (log 2). -/
opaque Config.raw : Params

/-- The parameters of the machine at hand, an instance R8 allows: `Config.raw` if R8 allows it (every allowed instance
is a possible `Config.raw`), else E1, so that the constant is always an allowed one (DESIGN CHOICE, safe, log 2). -/
def Config.params : Params :=
  if Config.raw.wf then Config.raw else Params.e1

/-- Byte `k` of draw number `n`: free (log 6). -/
opaque Config.freeByte : Nat → Nat → Byte

/-- The natural number of draw number `n`: free (log 6). -/
opaque Config.freeNat : Nat → Nat

end Sys2Proof
end

