-- ==== Sys2Proof/Machine/State.lean ====
section
/-! DEFINITION. The state of the block: the fields of 10_state.md R21 to R39 under the spec's names, and the model's own
fields `par`, `script`, `trace`, `offs` and `draws`. Plain data. -/

namespace Sys2Proof.Machine

/-- Memory as (address, byte) pairs in one canonical form: addresses strictly rising, no entry that holds
`Memory.erased`. It holds FLASH and PAGEBUF (20_memory.md R60). -/
abbrev Memory := List Host.Cell

/-- What an address that is not listed reads as: the erased value of 20_memory.md R61, which is also what a byte of the
page buffer reads as before any FILL (43_flash_engine.md R232). For FLASH at `State.reset` it is a DESIGN CHOICE (log 5). -/
def Memory.erased : Byte := 0xFF

/-- The engine state register, the block's program counter (10_state.md R22). -/
inductive Fsm where
  | idle
  | sendWait
  | addrWait
  | recvWait
  | srDone
  | flWord
  | flEraseWait
  | flWriteWait
  | exitSettle
  | off
deriving DecidableEq, Repr

/-- The registers of an IN data phase: `tx_data`, `tx_off`, `tx_rem`, `tx_n` (10_state.md R23). -/
structure TxCtx where
  data : List Byte
  off  : Nat
  rem  : Nat
  n    : Nat
deriving DecidableEq, Repr

/-- The registers of a report-2 chunk: `fl_addr`, `fl_i`, `fl_n` (10_state.md R23). `addr` is a number below
2^ADDR_WIDTH (log 18). -/
structure FlCtx where
  addr : Nat
  i    : Nat
  n    : Nat
deriving DecidableEq, Repr

/-- `nvm_op` (10_state.md R32); `p` is a page index. -/
inductive NvmOp where
  | idle
  | erase (p : Nat)
  | write (p : Nat)
deriving DecidableEq, Repr

/-- `ivsel` (10_state.md R35). -/
inductive Ivsel where
  | app
  | boot
deriving DecidableEq, Repr

/-- `boot_phase` (10_state.md R37). -/
inductive BootPhase where
  | decide
  | window
  | usb
  | app
deriving DecidableEq, Repr

/-- The codes of the fault table with the info each records (60_exceptions.md R280, R281). -/
inductive FaultCause where
  /-- F01 FLT_MISALIGNED(a) -/
  | misaligned (a : Nat)
  /-- F02 FLT_OUT_OF_RANGE(a) -/
  | outOfRange (a : Nat)
  /-- F03 FLT_OUT_OF_ORDER(a, sess_last) -/
  | outOfOrder (a last : Nat)
  /-- F04 FLT_BUFFER_PAGE_MISMATCH(a, pb_tag) -/
  | bufferPageMismatch (a tag : Nat)
  /-- F05 FLT_WRITE_UNERASED(p) -/
  | writeUnerased (p : Nat)
  /-- F06 FLT_BOOT_SECTION_WRITE(a) -/
  | bootSectionWrite (a : Nat)
  /-- F07 FLT_REPORT_OVERFLOW(rx_cnt, n) -/
  | reportOverflow (rxCnt n : Nat)
  /-- F08 FLT_HOST_OVERRUN(rx_cnt, n, req_len) -/
  | hostOverrun (rxCnt n reqLen : Nat)
  /-- F09 FLT_SETUP_DURING_TRANSFER(fsm) -/
  | setupDuringTransfer (fsm : Option Fsm)
  /-- F10 FLT_BUSRESET_DURING_WAIT(fsm) -/
  | busResetDuringWait (fsm : Option Fsm)
deriving DecidableEq, Repr

/-- `FaultRecord = {code, fsm, info}` (60_exceptions.md R280); `fsm` is `S.fsm` at the raise. -/
structure FaultRecord where
  cause : FaultCause
  fsm   : Option Fsm
deriving DecidableEq, Repr

/-- The tokens of the USB token port (41_control_transfer.md R130). `inp` is the IN token. A SETUP always targets
endpoint 0. The 7-bit address width is that of `dev_addr`; no width is given for the endpoint number (log 18). -/
inductive Token where
  | setup (addr : DevAddr) (bytes : SetupPacket)
  | out (addr : DevAddr) (ep : Nat) (bytes : List Byte)
  | inp (addr : DevAddr) (ep : Nat)
  | busReset
deriving DecidableEq, Repr

/-- The answers of the USB handshake port (41_control_transfer.md R130); `silent` is no response. -/
inductive Response where
  | ack
  | nak
  | stall
  | data (bytes : List Byte)
  | silent
deriving DecidableEq, Repr

/-- The causes of the environment move PHYS_RESET (70_reset_and_hazards.md R301). -/
inductive PhysCause where
  | powerOn
  | external
  | brownOut
deriving DecidableEq, Repr

/-- One move of the schedule: a token or a physical reset of the host agent, or a turn given to another agent
(00_scope.md R11, 41_control_transfer.md R136). -/
inductive Move where
  | host (t : Token)
  | physReset (c : PhysCause)
  | nvm
  | busHandler
  | engine
  | boot
deriving DecidableEq, Repr

/-- The registers that the spec says may hold no value (10_state.md R21, R22, R23, R40). -/
inductive Reg where
  | latch
  | tx
  | newAddr
  | rxCnt
  | fl
deriving DecidableEq, Repr

/-- The architectural state (10_state.md R20). A register whose type is an `Option` is one of which the spec itself says
when it holds no value (R21, R22, R23, R31, R34). -/
structure State where
  /-- instance parameters (00_scope.md R8); no step changes them (log 2) -/
  par : Params
  /-- `req_rt`, `req_rq`, `req_val`, `req_idx`, `req_len` (R21); no value outside a request -/
  latch : Option Request
  /-- R22; no value between a device reset and USB initialisation (41_control_transfer.md R139) -/
  fsm : Option Fsm
  /-- `tx_data`, `tx_off`, `tx_rem`, `tx_n` (R23); no value until the current request writes it, nor outside one -/
  tx : Option TxCtx
  /-- R23; as `tx` -/
  newAddr : Option DevAddr
  /-- R23; as `tx` -/
  rxCnt : Option Nat
  /-- `fl_addr`, `fl_i`, `fl_n` (R23); as `tx` -/
  fl : Option FlCtx
  /-- R24 -/
  ep0SetupFull : Bool
  /-- R24 -/
  ep0SetupBuf : SetupPacket
  /-- R24 -/
  ep0OutFull : Bool
  /-- R24 -/
  ep0OutBuf : List Byte
  /-- R24 -/
  ep0InArmed : Bool
  /-- R24 -/
  ep0InBuf : List Byte
  /-- R24 -/
  ep0Stall : Bool
  /-- R24 -/
  ep0Configured : Bool
  /-- R25 -/
  devAddr : DevAddr
  /-- R25 -/
  addrEn : Bool
  /-- R26 -/
  usbConfiguration : Byte
  /-- R27 -/
  ep1Enabled : Bool
  /-- R28 -/
  usbEnabled : Bool
  /-- R28 -/
  usbAttached : Bool
  /-- R28 -/
  busresetPending : Bool
  /-- R29, 132 bytes -/
  rpt : List Byte
  /-- R30 -/
  flash : Memory
  /-- R31 -/
  pbData : Memory
  /-- R31 -/
  pbTag : Option Nat
  /-- R32 -/
  nvmOp : NvmOp
  /-- R33 -/
  rwwEnabled : Bool
  /-- R34 -/
  sessLast : Option Nat
  /-- R35 -/
  ivsel : Ivsel
  /-- R36 -/
  led : Bool
  /-- R37 -/
  rstcauseReg : Causes
  /-- R37 -/
  resetCause : Causes
  /-- R37, a number below 2^MAGIC_WIDTH (log 18) -/
  magicKey : Nat
  /-- R37, D42 -/
  timeoutCounter : BitVec 16
  /-- R37 -/
  timerRunning : Bool
  /-- R37 -/
  wdtEnabled : Bool
  /-- R37 -/
  bootPhase : BootPhase
  /-- R38 -/
  intEn : Bool
  /-- R39 -/
  faults : List FaultRecord
  /-- the coming moves; the model's own (log 1) -/
  script : List Move
  /-- the answers given so far, oldest first (60_exceptions.md R288); the model's own (log 13) -/
  trace : List (Token × Response)
  /-- the `rstcause_reg` of each arrival at OFF so far, oldest first (60_exceptions.md R288); the model's own (log 13) -/
  offs : List Causes
  /-- how many free values have been drawn; the model's own (log 6) -/
  draws : Nat
deriving DecidableEq, Repr

/-- The machine stops. -/
inductive Fault where
  /-- raised by `takeStep` when `faults` is not empty: after a recorded model fault no agent has a step
  (60_exceptions.md R279). Safe (log 9). -/
  | faulted
  /-- raised by a segment of the engine that reads a register holding no value, a model error by 10_state.md R21 and
  R40; no run from reset reads one. Safe (log 7). -/
  | noValue (r : Reg)
  /-- raised by `nvmStep` when the page of `nvm_op` lies outside FLASH (20_memory.md R60); the engine starts no such
  operation. Safe (log 14). -/
  | noSuchPage (p : Nat)
  /-- raised by the flash-chunk segments when a byte of RPT they read does not exist (20_memory.md R60: 132 bytes); no
  run from reset reads one. Safe (log 19). -/
  | noSuchReportByte
deriving DecidableEq, Repr

/-- There is no meaning. -/
inductive Refusal where
  /-- raised by an arm of `exec` whose instruction is not modelled: no arm is. Safe. -/
  | notModelled (mnemonic : String)
  /-- raised by `hostToken` for an OUT of more than 64 bytes: the host has no such move (41_control_transfer.md R136,
  U28). Safe (log 12). -/
  | noSuchMove
  /-- raised by `takeStep` when the application has control and no move is scripted: the run has ended
  (60_exceptions.md R288 (c), 70_reset_and_hazards.md R307). Safe (log 11). -/
  | applicationRuns
deriving DecidableEq, Repr

/-- What a step answers. -/
abbrev Result := Host.Outcome State Fault Refusal

/-- `n` bytes of draw number `d` (log 6). -/
def drawBytes (d n : Nat) : List Byte := (List.range n).map (Config.freeByte d)

/-- A packet of 0 to 64 bytes of draw number `d` (log 6). -/
def drawPacket (d : Nat) : List Byte := drawBytes d (Config.freeNat d % 65)

/-- A SETUP packet of draw number `d` (log 6). -/
def drawSetup (d : Nat) : SetupPacket :=
  ⟨Config.freeByte d 0, Config.freeByte d 1, Config.freeByte d 2, Config.freeByte d 3,
   Config.freeByte d 4, Config.freeByte d 5, Config.freeByte d 6, Config.freeByte d 7⟩

/-- A truth value of draw number `d` (log 6). -/
def drawBool (d : Nat) : Bool := Config.freeNat d % 2 == 1

/-- A set of reset causes of draw number `d` (log 6). -/
def drawCauses (d : Nat) : Causes :=
  ⟨Config.freeNat d % 2 == 1, Config.freeNat d / 2 % 2 == 1,
   Config.freeNat d / 4 % 2 == 1, Config.freeNat d / 8 % 2 == 1⟩

/-- The machine right after a power-on reset, before boot arbitration: the **dev** values of 10_state.md with cause
PowerOn (70_reset_and_hazards.md R300, R312; log 4). What the spec leaves unspecified there is a draw (R40, log 6) or
holds no value (R21 to R23, log 7); nothing is written in FLASH (log 5). -/
def State.reset : State where
  par := Config.params
  latch := none
  fsm := none
  tx := none
  newAddr := none
  rxCnt := none
  fl := none
  ep0SetupFull := false
  ep0SetupBuf := drawSetup 0
  ep0OutFull := false
  ep0OutBuf := drawPacket 1
  ep0InArmed := false
  ep0InBuf := drawPacket 2
  ep0Stall := false
  ep0Configured := false
  devAddr := 0
  addrEn := false
  usbConfiguration := 0
  ep1Enabled := false
  usbEnabled := false
  usbAttached := false
  busresetPending := false
  rpt := drawBytes 3 132
  flash := []
  pbData := []
  pbTag := none
  nvmOp := .idle
  rwwEnabled := true
  sessLast := none
  ivsel := .app
  led := false
  rstcauseReg := ⟨true, false, false, false⟩
  resetCause := drawCauses 4
  magicKey := Config.freeNat 5 % 2 ^ Config.params.magicWidth
  timeoutCounter := 0
  timerRunning := false
  wdtEnabled := drawBool 6
  bootPhase := .decide
  intEn := false
  faults := []
  script := []
  trace := []
  offs := []
  draws := 8

end Sys2Proof.Machine
end

