-- ==== Sys2Proof/Machine/Ops.lean ====
section
/-! DEFINITION. The named operations over memory and registers, raising a fault, entering the endpoint-0 handler and
returning from it. -/

namespace Sys2Proof.Machine

/-! ### Memory -/

/-- The addresses of the list rise strictly and all lie above `lo` (or there is no bound). -/
def Memory.risingFrom : Option Nat → Memory → Bool
  | _, [] => true
  | none, c :: rest => Memory.risingFrom (some c.1) rest
  | some lo, c :: rest => decide (lo < c.1) && Memory.risingFrom (some c.1) rest

/-- The canonical form: addresses strictly rising, no entry that holds what an unlisted address reads as. -/
def Memory.wf (m : Memory) : Bool :=
  Memory.risingFrom none m && m.all (fun c => c.2 != Memory.erased)

/-- Every listed address lies below `n`. -/
def Memory.below (n : Nat) (m : Memory) : Bool := m.all (fun c => decide (c.1 < n))

/-- The byte at an address. -/
def Memory.read : Memory → Nat → Byte
  | [], _ => Memory.erased
  | c :: rest, a => if c.1 = a then c.2 else Memory.read rest a

/-- The cells of a byte at an address: none if it is what an unlisted address reads as. -/
def Memory.cell (a : Nat) (b : Byte) : Memory := if b = Memory.erased then [] else [(a, b)]

/-- The memory with one byte written, in canonical form. -/
def Memory.write : Memory → Nat → Byte → Memory
  | [], a, b => Memory.cell a b
  | c :: rest, a, b =>
    if c.1 < a then c :: Memory.write rest a b
    else if c.1 = a then Memory.cell a b ++ rest
    else Memory.cell a b ++ c :: rest

/-- The memory with the bytes at addresses `lo` to `lo + n - 1` erased (43_flash_engine.md R236). -/
def Memory.eraseRange (m : Memory) (lo n : Nat) : Memory :=
  m.filter (fun c => !(decide (lo ≤ c.1) && decide (c.1 < lo + n)))

/-- The memory with the bytes at `lo` to `lo + n - 1` written from `f 0` to `f (n - 1)`. -/
def Memory.writeRange (m : Memory) (lo n : Nat) (f : Nat → Byte) : Memory :=
  (List.range n).foldl (fun m k => m.write (lo + k) (f k)) m

/-! ### Geometry of FLASH (43_flash_engine.md R230) -/

/-- `page(a)` (R230). -/
def pageOf (p : Params) (a : Nat) : Nat := a / p.pageSize

/-- `offset(a)` (R230). -/
def offsetOf (p : Params) (a : Nat) : Nat := a % p.pageSize

/-- The first byte address of a page (20_memory.md R61). -/
def pageBase (p : Params) (page : Nat) : Nat := page * p.pageSize

/-- The page lies inside FLASH (20_memory.md R60). -/
def pageInFlash (p : Params) (page : Nat) : Bool := decide (pageBase p page + p.pageSize ≤ p.flashSize)

/-- An application page: `p*PAGE_SIZE < BOOT_START` (R230). -/
def appPage (p : Params) (page : Nat) : Bool := decide (pageBase p page < p.bootStart)

/-! ### Raising a fault, entering the handler, returning -/

/-- `raise F(info)`: the record is appended; the caller ends its step there, so that the writes before it stand and no
write after it is made (60_exceptions.md R279, R280). The code and its info are `c`. -/
def raise (c : FaultCause) (s : State) : State :=
  { s with faults := s.faults ++ [⟨c, s.fsm⟩] }

/-- `fsm <- f`. -/
def goto (f : Fsm) (s : State) : State := { s with fsm := some f }

/-- The end of a request: the request latch and the transfer context hold no value outside one (10_state.md R21, R23,
R40; 93_implementation_defined.md U22; log 8). -/
def endRequest (s : State) : State :=
  { s with latch := none, tx := none, newAddr := none, rxCnt := none, fl := none }

/-- `return`: the handler ends in `IDLE` (60_exceptions.md R276), and its request with it. -/
def toIdle (s : State) : State := { endRequest s with fsm := some .idle }

/-- AcceptSetup without its dispatch (41_control_transfer.md R140, R141): the SETUP event and both banks are cleared, the
latch takes the packet's fields, and the transfer context holds no value until this request writes it (10_state.md R23;
log 8). -/
def acceptSetup (s : State) : State :=
  { endRequest s with
    latch := some (requestOf s.ep0SetupBuf)
    ep0SetupFull := false
    ep0OutFull := false
    ep0OutBuf := []
    ep0InArmed := false
    ep0InBuf := [] }

/-- The engine is in a transfer wait: SEND_WAIT, ADDR_WAIT or RECV_WAIT (41_control_transfer.md R132, R135). -/
def transferWait : Option Fsm → Bool
  | some .sendWait => true
  | some .addrWait => true
  | some .recvWait => true
  | _ => false

/-- A handler of the engine is running: it has left IDLE and has come back neither to IDLE nor to OFF
(60_exceptions.md R273). -/
def handlerRunning : Option Fsm → Bool
  | none => false
  | some .idle => false
  | some .off => false
  | some _ => true

/-- A read of FLASH by boot: an application byte reads as a draw while read-while-write is off (20_memory.md R73). -/
def flashRead (a : Nat) (s : State) : Byte × State :=
  if a < s.par.bootStart ∧ s.rwwEnabled = false then
    (Config.freeByte s.draws 0, { s with draws := s.draws + 1 })
  else (s.flash.read a, s)

/-- One answer of the handshake port, recorded with its token (60_exceptions.md R288). -/
def answer (t : Token) (r : Response) (s : State) : State :=
  { s with trace := s.trace ++ [(t, r)] }

/-- The state in which the very next step accepts the packet: it is in the SETUP bank, the engine is idle and enabled
(41_control_transfer.md R139) and has the next turn (log 21). -/
def placeSetup (p : SetupPacket) (s : State) : State :=
  { toIdle s with
    ep0SetupFull := true
    ep0SetupBuf := p
    ep0Configured := true
    busresetPending := false
    bootPhase := .usb
    intEn := true
    faults := []
    script := .engine :: s.script }

end Sys2Proof.Machine
end

