-- ==== Sys2Proof/Machine/Flags.lean ====
section
/-! DEFINITION. The flags and banks of the EP0 peripheral: what sets and clears them, the status actions, and when each
agent's step is enabled. -/

namespace Sys2Proof.Machine

/-- `FifoArm(bytes)`: the packet goes to the IN bank and is armed when EP0 is configured, nothing otherwise
(41_control_transfer.md R134). -/
def fifoArm (d : List Byte) (s : State) : State :=
  { s with
    ep0InBuf := if s.ep0Configured then d else s.ep0InBuf
    ep0InArmed := s.ep0Configured || s.ep0InArmed }

/-- Release of the OUT bank (42_hid_feature_reports.md R193, 20_memory.md R67). -/
def releaseOut (s : State) : State := { s with ep0OutFull := false, ep0OutBuf := [] }

/-- `stall()` (41_control_transfer.md R147). -/
def stall (s : State) : State := toIdle { s with ep0Stall := true }

/-- `ack()`: a zero-length packet as the status stage (41_control_transfer.md R148). -/
def ack (s : State) : State := fifoArm [] s

/-- `send(d)`: start of an IN data phase (41_control_transfer.md R143). -/
def send (d : List Byte) (s : State) : State :=
  { s with tx := some ⟨d, 0, d.length, 0⟩, fsm := some .sendWait }

/-! ### Enabling (41_control_transfer.md R139, 60_exceptions.md R270 to R274) -/

/-- Whether the engine's wait is over, for each `fsm` (R139). -/
def fsmEnabled (s : State) : Bool :=
  match s.fsm with
  | none => false
  | some .idle => s.ep0SetupFull && s.ep0Configured && s.intEn && !s.busresetPending
  | some .sendWait => !s.ep0InArmed || s.ep0OutFull
  | some .addrWait => !s.ep0InArmed
  | some .recvWait => s.ep0OutFull
  | some .srDone => true
  | some .flWord => true
  | some .flEraseWait => s.nvmOp == .idle
  | some .flWriteWait => s.nvmOp == .idle
  | some .exitSettle => true
  | some .off => false

/-- The engine has a step (R139: every row also requires `boot_phase` = USB and an empty `faults`). -/
def engineEnabled (s : State) : Bool := s.bootPhase == .usb && s.faults.isEmpty && fsmEnabled s

/-- The bus-reset handler has a step (70_reset_and_hazards.md R311). -/
def busHandlerEnabled (s : State) : Bool :=
  s.busresetPending && s.intEn && s.fsm == some .idle && s.bootPhase == .usb

/-- The NVM agent has a step (43_flash_engine.md R231). -/
def nvmEnabled (s : State) : Bool := s.nvmOp != .idle

/-- The boot agent has a step: the capture at DECIDE (70_reset_and_hazards.md R302), the tick in the window (R305, under
60_exceptions.md R271 and R273; log 15), the device reset after OFF (R301). -/
def bootEnabled (s : State) : Bool :=
  match s.bootPhase with
  | .decide => true
  | .window => s.timerRunning && s.intEn && !handlerRunning s.fsm
  | .usb => s.fsm == some .off
  | .app => false

end Sys2Proof.Machine
end

