-- ==== Sys2Proof/Machine/Operands.lean ====
section
/-! DEFINITION. What the handlers read: the descriptor table, the info report, the clamp, the fields of the request and of
the report buffer. -/

namespace Sys2Proof.Machine

/-- `trunc_N(v)` (00_scope.md R9). -/
def truncTo (n v : Nat) : Nat := v % 2 ^ n

/-- `LE24(b0, b1, b2)` (00_scope.md R9). -/
def le24 (b0 b1 b2 : Byte) : Nat := b0.toNat + 256 * b1.toNat + 65536 * b2.toNat

/-- `ADDR_WIDTH` (00_scope.md R8, D16). -/
def addrWidth (p : Params) : Nat := if p.flashSize ≤ 65536 then 16 else 32

/-- `ADDR_SCALE` (00_scope.md R8, D16). -/
def addrScale (p : Params) : Nat := if p.flashSize ≤ 65536 then 1 else 2

/-! ### The descriptor table (40_descriptor_server.md) -/

/-- `DEVICE_DESC`, 18 bytes (R102). -/
def deviceDesc (p : Params) : List Byte :=
  [0x12, 0x01, 0x10, 0x01, p.ddClass, p.ddSubClass, p.ddProtocol, 0x40,
   0xC0, 0x16, 0xDF, 0x05, lo8 p.ddBcdDevice, hi8 p.ddBcdDevice,
   p.ddIManufacturer, p.ddIProduct, p.ddISerial, 0x01]

/-- `CONFIG_DESC`, 34 bytes: configuration, interface, HID and endpoint parts (R103). -/
def configDesc (p : Params) : List Byte :=
  [0x09, 0x02, 0x22, 0x00, 0x01, p.cdValue, p.cdIConfig, p.cdAttr, p.cdMaxPower] ++
  [0x09, 0x04, 0x00, 0x00, 0x01, 0x03, p.idSubClass, p.idProtocol, p.idIInterface] ++
  [0x09, 0x21, lo8 p.hdBcdHid, hi8 p.hdBcdHid, p.hdCountry, 0x01, 0x22,
   byteOf p.hidReportDesc.length 0, byteOf p.hidReportDesc.length 1] ++
  [0x07, 0x05, 0x81, 0x03, lo8 p.ep1Size, hi8 p.ep1Size, p.ep1Interval]

/-- A string descriptor: `[2 + 2k, 0x03]` and k UTF-16LE code units (R105). -/
def stringBlob (units : List Word16) : List Byte :=
  [BitVec.ofNat 8 (2 + 2 * units.length), 0x03] ++ units.flatMap (fun u => [lo8 u, hi8 u])

/-- `STRING_TABLE[i]`, if the table has the index (R105). -/
def stringDesc (p : Params) (i : Byte) : Option (List Byte) :=
  (p.strings.find? (fun e => e.1 == i)).map (fun e => stringBlob e.2)

/-- `INFO`, 7 bytes (R106). -/
def infoReport (p : Params) : List Byte :=
  [0x01, byteOf p.pageSize 0, byteOf p.pageSize 1,
   byteOf p.flashSize 0, byteOf p.flashSize 1, byteOf p.flashSize 2, byteOf p.flashSize 3]

/-- `lookup(type, index)` (R100); `none` is NotFound. -/
def lookup (p : Params) (type index : Byte) : Option (List Byte) :=
  if type = 0x01 ∧ index = 0x00 then some (deviceDesc p)
  else if type = 0x02 ∧ index = 0x00 then some (configDesc p)
  else if type = 0x22 ∧ index = 0x00 then some p.hidReportDesc
  else if type = 0x03 then stringDesc p index
  else none

/-- The first `min(wLength, |d|, 255)` bytes (R107; D9 for the other IN data phases). -/
def clamp (len : Word16) (d : List Byte) : List Byte :=
  d.take (min len.toNat (min d.length 255))

/-- GetDescriptor, the semantics rows 1 to 4 share (R107). -/
def getDescriptor (type index : Byte) (len : Word16) (s : State) : State :=
  match lookup s.par type index with
  | none => stall s
  | some d => send (clamp len d) s

/-! ### The report buffer (42_hid_feature_reports.md) -/

/-- `word(i) = LE16(rpt[4 + 2i], rpt[5 + 2i])` (R202); `none` if RPT has no such byte (20_memory.md R60). -/
def chunkWord (rpt : List Byte) (i : Nat) : Option Word16 :=
  match rpt[4 + 2 * i]?, rpt[5 + 2 * i]? with
  | some lo, some hi => some (le16 lo hi)
  | _, _ => none

/-- `rpt[rx_cnt + k] <- p[k]` for every k; the other bytes are kept (R193). -/
def rptStore (rpt : List Byte) (at_ : Nat) (p : List Byte) : List Byte :=
  rpt.take at_ ++ p ++ rpt.drop (at_ + p.length)

/-- The chunk's start address: `trunc_ADDR_WIDTH(LE24(rpt[1], rpt[2], rpt[3]) * ADDR_SCALE)` (R200); `none` if RPT has
no such byte (20_memory.md R60). -/
def chunkAddr (p : Params) (rpt : List Byte) : Option Nat :=
  match rpt[1]?, rpt[2]?, rpt[3]? with
  | some b0, some b1, some b2 => some (truncTo (addrWidth p) (le24 b0 b1 b2 * addrScale p))
  | _, _, _ => none

/-- WordCount (R201). -/
def wordCount (mode : ChunkMode) (rxCnt : Nat) : Nat :=
  match mode with
  | .fromLength => if 4 ≤ rxCnt then (rxCnt - 4) / 2 else 0
  | .fullBuffer => 64

end Sys2Proof.Machine
end

