-- ==== Sys2Proof/Machine/Descriptor.lean ====
section
/-! DEFINITION. The meanings of the GET_DESCRIPTOR forms (40_descriptor_server.md §3). A meaning is the dispatch segment of
its row, run on the state SETUP acceptance leaves (41_control_transfer.md R140, R142). `rt` and `idx` are not read
(D3, D5). -/

namespace Sys2Proof.Machine

/-- GET_DESCRIPTOR.DEVICE (R108). -/
def execGetDescriptorDevice (_rt : Byte) (_idx len : Word16) (s : State) : Result :=
  .next (getDescriptor 0x01 0x00 len s)

/-- GET_DESCRIPTOR.CONFIGURATION (R109). -/
def execGetDescriptorConfiguration (_rt : Byte) (_idx len : Word16) (s : State) : Result :=
  .next (getDescriptor 0x02 0x00 len s)

/-- GET_DESCRIPTOR.HID_REPORT (R110). -/
def execGetDescriptorHidReport (_rt : Byte) (_idx len : Word16) (s : State) : Result :=
  .next (getDescriptor 0x22 0x00 len s)

/-- GET_DESCRIPTOR.STRING (R111). -/
def execGetDescriptorString (_rt i : Byte) (_idx len : Word16) (s : State) : Result :=
  .next (getDescriptor 0x03 i len s)

/-- GET_DESCRIPTOR.OTHER (R112). -/
def execGetDescriptorOther (_rt : Byte) (_val _idx _len : Word16) (s : State) : Result :=
  .next (stall s)

end Sys2Proof.Machine
end

