-- ==== Sys2Proof/Machine/Flash.lean ====
section
/-! DEFINITION. The flash page-erase, fill and write controller and the NVM agent (43_flash_engine.md). -/

namespace Sys2Proof.Machine

/-- The page buffer cleared: every byte 0xFF, no tag (R232). -/
def clearPageBuffer (s : State) : State := { s with pbData := [], pbTag := none }

/-- `StartErase(p)` (R231). -/
def startErase (p : Nat) (s : State) : State :=
  { s with
    nvmOp := .erase p
    rwwEnabled := if appPage s.par p then false else s.rwwEnabled }

/-- `StartWrite(p)` (R231). -/
def startWrite (p : Nat) (s : State) : State :=
  { s with
    nvmOp := .write p
    rwwEnabled := if appPage s.par p then false else s.rwwEnabled }

/-- RWW_ENABLE (R241). -/
def rwwEnable (s : State) : State := clearPageBuffer { s with rwwEnabled := true }

/-- `Fill(a, w)` (R237). -/
def fill (a : Nat) (w : Word16) (s : State) : State :=
  { s with
    pbData := (s.pbData.write (offsetOf s.par a) (lo8 w)).write (offsetOf s.par a + 1) (hi8 w)
    pbTag := some (pageOf s.par a) }

/-- `CheckWord(a)`: the first hazard that holds, in the order of R234. -/
def checkWord (s : State) (a : Nat) : Option FaultCause :=
  if a % 2 ≠ 0 then some (.misaligned a)
  else if s.par.flashSize ≤ a then some (.outOfRange a)
  else
    match s.sessLast.filter (fun last => decide (a ≤ last)) with
    | some last => some (.outOfOrder a last)
    | none =>
      match s.pbTag.filter (fun tag => tag != pageOf s.par a) with
      | some tag => some (.bufferPageMismatch a tag)
      | none => if s.par.bootStart ≤ a then some (.bootSectionWrite a) else none

/-- Every byte of the page is 0xFF in the stored array (R239; log 20). -/
def pageErased (s : State) (p : Nat) : Bool :=
  (List.range s.par.pageSize).all (fun k => s.flash.read (pageBase s.par p + k) == Memory.erased)

/-- `Commit(p)` with its CheckErased (R238, R239). -/
def commit (p : Nat) (s : State) : State :=
  if pageErased s p then goto .flWriteWait (startWrite p s) else raise (.writeUnerased p) s

/-- FillAndAdvance's steps (b) and (c): the word staged, the session and the chunk advanced (R233). -/
def fillAdvance (f : FlCtx) (w : Word16) (s : State) : State :=
  { fill f.addr w s with
    sessLast := some f.addr
    fl := some { f with addr := truncTo (addrWidth s.par) (f.addr + 2), i := f.i + 1 } }

/-- `FillAndAdvance(a, w)`: stage the word, advance by 2, and commit the page when the new address is page-aligned
(R233, R238). -/
def fillAndAdvance (f : FlCtx) (w : Word16) (s : State) : State :=
  if offsetOf s.par (truncTo (addrWidth s.par) (f.addr + 2)) = 0 then
    commit (pageOf s.par f.addr) (fillAdvance f w s)
  else goto .flWord (fillAdvance f w s)

/-- `WriteWord(a, w)` at `FL_WORD` (R233). -/
def writeWord (f : FlCtx) (w : Word16) (s : State) : State :=
  match checkWord s f.addr with
  | some c => raise c s
  | none =>
    if offsetOf s.par f.addr = 0 then
      goto .flEraseWait (startErase (pageOf s.par f.addr) s)
    else fillAndAdvance f w s

/-- Erase completion (R236). -/
def eraseDone (p : Nat) (s : State) : State :=
  { s with flash := s.flash.eraseRange (pageBase s.par p) s.par.pageSize, nvmOp := .idle }

/-- Write completion: every byte of the page from the page buffer, which is then cleared (R240). -/
def writeDone (p : Nat) (s : State) : State :=
  clearPageBuffer
    { s with
      flash := s.flash.writeRange (pageBase s.par p) s.par.pageSize s.pbData.read
      nvmOp := .idle }

/-- The NVM agent's step (R231, R236, R240); it always succeeds (R244). -/
def nvmStep (s : State) : Result :=
  match s.nvmOp with
  | .idle => .next s
  | .erase p => if pageInFlash s.par p then .next (eraseDone p s) else .fault (.noSuchPage p)
  | .write p => if pageInFlash s.par p then .next (writeDone p s) else .fault (.noSuchPage p)

end Sys2Proof.Machine
end

