-- ==== Sys2Proof/Machine/Engine.lean ====
section
/-! DEFINITION. The engine's segments after dispatch: the IN data phase, the SET_ADDRESS wait, the OUT data phase, the
feature-report decoder, the flash chunk and the exit path (41_control_transfer.md §4 and R149, 42_hid_feature_reports.md,
43_flash_engine.md). Each runs at its own value of `fsm`. -/

namespace Sys2Proof.Machine

/-! ### SEND_WAIT -/

/-- One packet of the IN data phase armed: the next `min(tx_rem, 64)` bytes (41_control_transfer.md R144). -/
def armNext (c : TxCtx) (s : State) : State :=
  { fifoArm ((c.data.drop c.off).take (min c.rem 64)) s with
    tx := some { c with off := c.off + min c.rem 64, rem := c.rem - min c.rem 64, n := min c.rem 64 } }

/-- SendStep (41_control_transfer.md R144, R146): a host OUT aborts; else one packet is armed, and the phase goes on while
bytes are left or the packet was full. -/
def sendStep (s : State) : Result :=
  if s.ep0OutFull then .next (toIdle s)
  else
    match s.tx with
    | none => .fault (.noValue .tx)
    | some c =>
      if 0 < c.rem - min c.rem 64 ∨ min c.rem 64 = 64 then .next (goto .sendWait (armNext c s))
      else .next (toIdle (armNext c s))

/-! ### ADDR_WAIT -/

/-- The end of SET_ADDRESS, once the ZLP has been taken (41_control_transfer.md R149). -/
def addrStep (s : State) : Result :=
  match s.newAddr with
  | none => .fault (.noValue .newAddr)
  | some a => .next (toIdle { s with devAddr := a, addrEn := true })

/-! ### RECV_WAIT -/

/-- ReceiveComplete (42_hid_feature_reports.md R194). -/
def receiveComplete (s : State) : State :=
  match s.par.ackOrder with
  | .ackThenProcess => goto .srDone (ack s)
  | .processThenAck => goto .srDone s

/-- SetReportBegin (42_hid_feature_reports.md R192), for rows 10, 11 and 12. -/
def setReportBegin (len : Word16) (s : State) : State :=
  if len = 0 then receiveComplete { s with rxCnt := some 0 }
  else goto .recvWait { s with rxCnt := some 0 }

/-- The received packet stored after the `rx` bytes before it, and the bank released (42_hid_feature_reports.md R193). -/
def storePacket (rx : Nat) (s : State) : State :=
  releaseOut { s with rpt := rptStore s.rpt rx s.ep0OutBuf, rxCnt := some (rx + s.ep0OutBuf.length) }

/-- ReceiveStep (42_hid_feature_reports.md R193): F08 is tested before F07 (60_exceptions.md R282). -/
def receiveStep (s : State) : Result :=
  match s.latch, s.rxCnt with
  | none, _ => .fault (.noValue .latch)
  | _, none => .fault (.noValue .rxCnt)
  | some r, some rx =>
    if r.len.toNat < rx + s.ep0OutBuf.length then
      .next (raise (.hostOverrun rx s.ep0OutBuf.length r.len.toNat) s)
    else if 132 < rx + s.ep0OutBuf.length then
      .next (raise (.reportOverflow rx s.ep0OutBuf.length) s)
    else if rx + s.ep0OutBuf.length = r.len.toNat ∨ s.ep0OutBuf.length < 64 then
      .next (receiveComplete (storePacket rx s))
    else .next (goto .recvWait (storePacket rx s))

/-! ### SR_DONE -/

/-- The zero-length packet that ends a report in `ProcessThenAck` mode (42_hid_feature_reports.md R203, R204). -/
def lateAck (s : State) : State :=
  match s.par.ackOrder with
  | .ackThenProcess => s
  | .processThenAck => ack s

/-- Detach and disable of the USB module: all of USB goes (42_hid_feature_reports.md R197, D46). -/
def usbOff (s : State) : State :=
  { s with
    usbAttached := false
    usbEnabled := false
    ep0SetupFull := false
    ep0OutFull := false
    ep0InArmed := false
    ep0Stall := false
    ep0Configured := false
    devAddr := 0
    addrEn := false
    ep1Enabled := false
    busresetPending := false }

/-- ExitReport (42_hid_feature_reports.md R197). -/
def exitReport (s : State) : State :=
  goto .exitSettle { rwwEnable (usbOff s) with ivsel := .app }

/-- FlashReport (42_hid_feature_reports.md R200). -/
def flashReport (s : State) : Result :=
  match s.rxCnt, chunkAddr s.par s.rpt with
  | none, _ => .fault (.noValue .rxCnt)
  | _, none => .fault .noSuchReportByte
  | some rx, some a =>
    .next (goto .flWord { s with fl := some ⟨a, 0, wordCount s.par.chunkMode rx⟩, led := true })

/-- OtherReport (42_hid_feature_reports.md R204). -/
def otherReport (s : State) : State := toIdle (lateAck s)

/-- DecodeReport (42_hid_feature_reports.md R195): the case is val_lo of the latched wValue; `rpt[0]` is not read. -/
def reportStep (s : State) : Result :=
  match s.latch with
  | none => .fault (.noValue .latch)
  | some r =>
    if lo8 r.val = 0x01 then .next (exitReport s)
    else if lo8 r.val = 0x02 then flashReport s
    else .next (otherReport s)

/-! ### FL_WORD, FL_ERASE_WAIT, FL_WRITE_WAIT -/

/-- The end of a chunk (42_hid_feature_reports.md R203). -/
def chunkDone (s : State) : State := toIdle (lateAck { s with led := false })

/-- FlWordStep (42_hid_feature_reports.md R203). -/
def flWordStep (s : State) : Result :=
  match s.fl with
  | none => .fault (.noValue .fl)
  | some f =>
    if f.i = f.n then .next (chunkDone s)
    else
      match chunkWord s.rpt f.i with
      | none => .fault .noSuchReportByte
      | some w => .next (writeWord f w s)

/-- The FL_ERASE_WAIT step, once the erase has completed (43_flash_engine.md R233). -/
def flEraseStep (s : State) : Result :=
  match s.fl with
  | none => .fault (.noValue .fl)
  | some f =>
    match chunkWord s.rpt f.i with
    | none => .fault .noSuchReportByte
    | some w => .next (fillAndAdvance f w s)

/-- The FL_WRITE_WAIT step (43_flash_engine.md R242). -/
def flWriteStep (s : State) : State := goto .flWord s

/-! ### EXIT_SETTLE -/

/-- ExitReset (42_hid_feature_reports.md R198). That the run has reached `OFF`, and with which `rstcause_reg`, is part of
what is observed (60_exceptions.md R288; log 13). -/
def exitReset (s : State) : State :=
  goto .off { s with rstcauseReg := s.par.exitResetCause, offs := s.offs ++ [s.par.exitResetCause] }

end Sys2Proof.Machine
end

