-- ==== Sys2Proof/Machine/Hid.lean ====
section
/-! DEFINITION. The meanings of the HID class requests (42_hid_feature_reports.md). The three SET_REPORT rows share
SetReportBegin (R192); what tells them apart is val_lo in the latch, which `reportStep` reads (R195). -/

namespace Sys2Proof.Machine

/-- HID_SET_IDLE (R190). -/
def execHidSetIdle (_val _idx _len : Word16) (s : State) : Result :=
  .next (toIdle (ack s))

/-- HID_SET_REPORT.EXIT (R196). -/
def execHidSetReportExit (_valHi : Byte) (_idx len : Word16) (s : State) : Result :=
  .next (setReportBegin len s)

/-- HID_SET_REPORT.FLASH (R199). -/
def execHidSetReportFlash (_valHi : Byte) (_idx len : Word16) (s : State) : Result :=
  .next (setReportBegin len s)

/-- HID_SET_REPORT.OTHER (R204). -/
def execHidSetReportOther (_val _idx len : Word16) (s : State) : Result :=
  .next (setReportBegin len s)

/-- HID_GET_REPORT.DEVICE_INFO (R191, D9). -/
def execHidGetReportDeviceInfo (_valHi : Byte) (_idx len : Word16) (s : State) : Result :=
  .next (send (clamp len (infoReport s.par)) s)

end Sys2Proof.Machine
end

