-- ==== Sys2Proof/Machine/Standard.lean ====
section
/-! DEFINITION. The meanings of the other standard requests and of the fall-through row (41_control_transfer.md §5). -/

namespace Sys2Proof.Machine

/-- SET_ADDRESS up to its wait (R149): `new_addr` is `req_val[6:0]`; ADDR_WAIT is `addrStep`. -/
def execSetAddress (_rt : Byte) (val _idx _len : Word16) (s : State) : Result :=
  .next (goto .addrWait (ack { s with newAddr := some (BitVec.ofNat 7 val.toNat) }))

/-- SET_CONFIGURATION (R150, D27). -/
def execSetConfiguration (val _idx _len : Word16) (s : State) : Result :=
  .next (toIdle { ack s with usbConfiguration := lo8 val, ep1Enabled := lo8 val != 0 })

/-- GET_CONFIGURATION (R151, D9). -/
def execGetConfiguration (_val _idx len : Word16) (s : State) : Result :=
  .next (send (clamp len [s.usbConfiguration]) s)

/-- UNSUPPORTED (R152). -/
def execUnsupported (_rt _rq : Byte) (_val _idx _len : Word16) (s : State) : Result :=
  .next (stall s)

end Sys2Proof.Machine
end

