-- ==== Sys2Proof/Machine/Dispatch.lean ====
section
/-! DEFINITION. One arm per request of the dispatch map (30_encoding.md R86, 41_control_transfer.md R142). -/

namespace Sys2Proof.Machine

def exec (i : Instr) (s : State) : Host.Outcome State Fault Refusal :=
  match i with
  | .getDescriptorDevice rt idx len => Sys2Proof.Machine.execGetDescriptorDevice rt idx len s
  | .getDescriptorConfiguration rt idx len => Sys2Proof.Machine.execGetDescriptorConfiguration rt idx len s
  | .getDescriptorHidReport rt idx len => Sys2Proof.Machine.execGetDescriptorHidReport rt idx len s
  | .getDescriptorString rt index idx len => Sys2Proof.Machine.execGetDescriptorString rt index idx len s
  | .getDescriptorOther rt val idx len => Sys2Proof.Machine.execGetDescriptorOther rt val idx len s
  | .setAddress rt val idx len => Sys2Proof.Machine.execSetAddress rt val idx len s
  | .setConfiguration val idx len => Sys2Proof.Machine.execSetConfiguration val idx len s
  | .getConfiguration val idx len => Sys2Proof.Machine.execGetConfiguration val idx len s
  | .hidSetIdle val idx len => Sys2Proof.Machine.execHidSetIdle val idx len s
  | .hidSetReportExit valHi idx len => Sys2Proof.Machine.execHidSetReportExit valHi idx len s
  | .hidSetReportFlash valHi idx len => Sys2Proof.Machine.execHidSetReportFlash valHi idx len s
  | .hidSetReportOther val idx len => Sys2Proof.Machine.execHidSetReportOther val idx len s
  | .hidGetReportDeviceInfo valHi idx len => Sys2Proof.Machine.execHidGetReportDeviceInfo valHi idx len s
  | .unsupported rt rq val idx len => Sys2Proof.Machine.execUnsupported rt rq val idx len s

end Sys2Proof.Machine
end

