-- ==== Sys2Proof/Machine/HostPort.lean ====
section
/-! DEFINITION. The peripheral's answer to every token of the host (41_control_transfer.md §1, R153). -/

namespace Sys2Proof.Machine

/-- The address filter (41_control_transfer.md R131, D35). -/
def forBlock (addr : DevAddr) (s : State) : Bool :=
  s.usbEnabled && s.usbAttached && addr == (if s.addrEn then s.devAddr else 0)

/-- HostSetup (41_control_transfer.md R132). -/
def hostSetup (t : Token) (bytes : SetupPacket) (s : State) : State :=
  if transferWait s.fsm ∨ s.ep0SetupFull then raise (.setupDuringTransfer s.fsm) s
  else answer t .ack { s with ep0SetupBuf := bytes, ep0SetupFull := true, ep0Stall := false }

/-- HostOut (41_control_transfer.md R133). -/
def hostOut (t : Token) (bytes : List Byte) (s : State) : State :=
  if s.ep0Stall then answer t .stall s
  else if s.ep0OutFull then answer t .nak s
  else answer t .ack { s with ep0OutBuf := bytes, ep0OutFull := true }

/-- HostIn (41_control_transfer.md R134). -/
def hostIn (t : Token) (s : State) : State :=
  if s.ep0Stall then answer t .stall s
  else if !s.ep0InArmed then answer t .nak s
  else answer t (.data s.ep0InBuf) { s with ep0InArmed := false, ep0InBuf := [] }

/-- HostBusReset (41_control_transfer.md R135). -/
def hostBusReset (s : State) : State :=
  if !s.usbEnabled then s
  else if transferWait s.fsm then raise (.busResetDuringWait s.fsm) s
  else
    { s with
      devAddr := 0
      addrEn := false
      ep0SetupFull := false
      ep0OutFull := false
      ep0InArmed := false
      ep0Stall := false
      ep0Configured := false
      ep1Enabled := false
      busresetPending := true }

/-- The answer of EP1 to an IN (41_control_transfer.md R153). -/
def ep1In (s : State) : Response := if s.ep1Enabled then .nak else .silent

/-- One token of the host: filtered by address (41_control_transfer.md R131), then by endpoint (R131 to R134, R153). A
token not for the block gets no response and changes nothing but the record of the answer. -/
def hostToken (t : Token) (s : State) : Result :=
  match t with
  | .setup addr bytes =>
    if forBlock addr s && s.ep0Configured then .next (hostSetup t bytes s)
    else .next (answer t .silent s)
  | .out addr ep bytes =>
    if 64 < bytes.length then .refused .noSuchMove
    else if forBlock addr s && ep == 0 && s.ep0Configured then .next (hostOut t bytes s)
    else .next (answer t .silent s)
  | .inp addr ep =>
    if forBlock addr s && ep == 0 && s.ep0Configured then .next (hostIn t s)
    else if forBlock addr s && ep == 1 then .next (answer t (ep1In s) s)
    else .next (answer t .silent s)
  | .busReset => .next (hostBusReset s)

end Sys2Proof.Machine
end

