-- ==== Sys2Proof/Machine/Reset.lean ====
section
/-! DEFINITION. Device reset, boot arbitration, USB initialisation and the bus-reset handler
(70_reset_and_hazards.md §1 to §3). -/

namespace Sys2Proof.Machine

/-- The union of two sets of causes. -/
def Causes.union (a b : Causes) : Causes :=
  ⟨a.powerOn || b.powerOn, a.external || b.external, a.watchdog || b.watchdog, a.brownOut || b.brownOut⟩

/-- The causes of PHYS_RESET(c) (70_reset_and_hazards.md R301). -/
def PhysCause.causes : PhysCause → Causes
  | .powerOn => ⟨true, false, false, false⟩
  | .external => ⟨false, true, false, false⟩
  | .brownOut => ⟨false, false, false, true⟩

/-- FLASH over a device reset: kept, but for the page of an erase or a write in progress, whose bytes become draw number
`d` (70_reset_and_hazards.md R300). -/
def flashOverReset (d : Nat) (s : State) : Memory :=
  match s.nvmOp with
  | .idle => s.flash
  | .erase p =>
    if pageInFlash s.par p then
      s.flash.writeRange (pageBase s.par p) s.par.pageSize (Config.freeByte d)
    else s.flash
  | .write p =>
    if pageInFlash s.par p then
      s.flash.writeRange (pageBase s.par p) s.par.pageSize (Config.freeByte d)
    else s.flash

/-- `rstcause_reg` over a device reset: causes accumulate, a power-on replaces them (70_reset_and_hazards.md R300). -/
def causesOverReset (c old : Causes) : Causes := if c.powerOn then c else Causes.union old c

/-- `magic_key` over a device reset: kept, but a draw after PowerOn or BrownOut (70_reset_and_hazards.md R300). -/
def magicOverReset (c : Causes) (s : State) : Nat :=
  if c.powerOn || c.brownOut then Config.freeNat (s.draws + 5) % 2 ^ s.par.magicWidth else s.magicKey

/-- `DeviceReset(c)` (70_reset_and_hazards.md R300, the **dev** column of R312). It draws eight free values (log 6). -/
def deviceReset (c : Causes) (s : State) : State :=
  { s with
    latch := none
    fsm := none
    tx := none
    newAddr := none
    rxCnt := none
    fl := none
    ep0SetupFull := false
    ep0SetupBuf := drawSetup s.draws
    ep0OutFull := false
    ep0OutBuf := drawPacket (s.draws + 1)
    ep0InArmed := false
    ep0InBuf := drawPacket (s.draws + 2)
    ep0Stall := false
    ep0Configured := false
    devAddr := 0
    addrEn := false
    usbConfiguration := 0
    ep1Enabled := false
    usbEnabled := false
    usbAttached := false
    busresetPending := false
    rpt := drawBytes (s.draws + 3) 132
    flash := flashOverReset (s.draws + 7) s
    pbData := []
    pbTag := none
    nvmOp := .idle
    rwwEnabled := true
    sessLast := none
    ivsel := .app
    led := false
    rstcauseReg := causesOverReset c s.rstcauseReg
    resetCause := drawCauses (s.draws + 4)
    magicKey := magicOverReset c s
    timeoutCounter := 0
    timerRunning := false
    wdtEnabled := drawBool (s.draws + 6)
    bootPhase := .decide
    intEn := false
    draws := s.draws + 8 }

/-- `UsbInit()` (70_reset_and_hazards.md R310). -/
def usbInit (s : State) : State :=
  { s with
    usbConfiguration := 0
    rpt := List.replicate 132 0x00
    ivsel := .boot
    usbEnabled := true
    usbAttached := true
    ep0Configured := false
    intEn := true
    timerRunning := false
    fsm := some .idle
    bootPhase := .usb }

/-- `WindowStart()` (70_reset_and_hazards.md R304). -/
def windowStart (s : State) : State :=
  { s with
    magicKey := s.par.magicKeyValue
    timeoutCounter := 0
    timerRunning := true
    intEn := true
    bootPhase := .window }

/-- `BootDecide()` (70_reset_and_hazards.md R303). -/
def bootDecide (s : State) : State :=
  if s.resetCause.external ∧ s.magicKey ≠ s.par.magicKeyValue then
    match s.par.bootWindow with
    | .present => windowStart s
    | .absent => usbInit s
  else usbInit s

/-- `BootCapture()` (70_reset_and_hazards.md R302): capture, clear, watchdog off, and the decision in the same step. -/
def bootCapture (s : State) : State :=
  bootDecide { s with resetCause := s.rstcauseReg, rstcauseReg := Causes.none, wdtEnabled := false }

/-- `JumpApp()` (70_reset_and_hazards.md R307). -/
def jumpApp (s : State) : State := { s with bootPhase := .app }

/-- The choice at the end of the window, on the byte read at address 0 (70_reset_and_hazards.md R306, C6). -/
def bootChoice (b : Byte) (s : State) : State := if b ≠ 0xFF then jumpApp s else usbInit s

/-- `WindowTimeout()` (70_reset_and_hazards.md R306). -/
def windowTimeout (s : State) : State :=
  bootChoice (flashRead 0 { s with timerRunning := false, magicKey := 0 }).1
    (flashRead 0 { s with timerRunning := false, magicKey := 0 }).2

/-- `Tick()` (70_reset_and_hazards.md R305): the counter wraps at 16 bits (D42). -/
def tick (s : State) : State :=
  if (s.timeoutCounter + 1).toNat = s.par.bootTimeoutTicks then
    windowTimeout { s with timeoutCounter := s.timeoutCounter + 1 }
  else { s with timeoutCounter := s.timeoutCounter + 1 }

/-- The boot agent's step, by `boot_phase` (70_reset_and_hazards.md R301, R302, R305); in phase USB it is the device reset
that follows OFF, with the causes in `rstcause_reg`. -/
def bootStep (s : State) : State :=
  match s.bootPhase with
  | .decide => bootCapture s
  | .window => tick s
  | .usb => deviceReset s.rstcauseReg s
  | .app => s

/-- `BusResetHandler()` (70_reset_and_hazards.md R311). -/
def busResetHandler (s : State) : State :=
  { s with
    ep0Configured := true
    ep0SetupFull := false
    ep0OutFull := false
    ep0InArmed := false
    ep0Stall := false
    usbConfiguration := 0
    ep1Enabled := false
    busresetPending := false }

end Sys2Proof.Machine
end

