-- ==== Sys2Proof/Machine/Schedule.lean ====
section
/-! DEFINITION. One turn of each agent, and which agent has the next one (00_scope.md R11, 41_control_transfer.md R138,
R139, 60_exceptions.md R270 to R274). -/

namespace Sys2Proof.Machine

/-- AcceptSetup with its dispatch, one segment (41_control_transfer.md R140 to R142): the packet in the SETUP bank is
decoded and its instruction runs. -/
def acceptStep (s : State) : Result := exec (decodeSetup s.ep0SetupBuf) (acceptSetup s)

/-- The engine's segment at each value of `fsm` (41_control_transfer.md R138, R139). -/
def engineStep (s : State) : Result :=
  match s.fsm with
  | none => .next s
  | some .idle => acceptStep s
  | some .sendWait => sendStep s
  | some .addrWait => addrStep s
  | some .recvWait => receiveStep s
  | some .srDone => reportStep s
  | some .flWord => flWordStep s
  | some .flEraseWait => flEraseStep s
  | some .flWriteWait => .next (flWriteStep s)
  | some .exitSettle => .next (exitReset s)
  | some .off => .next s

/-- A turn of the engine: its segment if it is enabled, else nothing (log 1). -/
def engineTurn (s : State) : Result := if engineEnabled s then engineStep s else .next s

/-- A turn of the bus-reset handler. -/
def busHandlerTurn (s : State) : Result := if busHandlerEnabled s then .next (busResetHandler s) else .next s

/-- A turn of the boot agent. -/
def bootTurn (s : State) : Result := if bootEnabled s then .next (bootStep s) else .next s

/-- One scripted move. -/
def runMove (m : Move) (s : State) : Result :=
  match m with
  | .host t => hostToken t s
  | .physReset c => .next (deviceReset c.causes s)
  | .nvm => nvmStep s
  | .busHandler => busHandlerTurn s
  | .engine => engineTurn s
  | .boot => bootTurn s

/-- The turn when nothing is scripted: the host is silent, and the first enabled agent of NVM, bus-reset handler, engine,
boot steps, the order of 95_test_vectors.md schedule B (log 1). With none enabled the block idles
(60_exceptions.md R286; log 10), unless the application has control (log 11). -/
def idleTurn (s : State) : Result :=
  if nvmEnabled s then nvmStep s
  else if busHandlerEnabled s then .next (busResetHandler s)
  else if engineEnabled s then engineStep s
  else if bootEnabled s then .next (bootStep s)
  else if s.bootPhase = .app then .refused .applicationRuns
  else .next s

/-- One step of the machine: none after a recorded fault (60_exceptions.md R279), else the next scripted move, else the
turn of an unscripted block. -/
def takeStep (s : State) : Result :=
  if s.faults ≠ [] then .fault .faulted
  else
    match s.script with
    | m :: rest => runMove m { s with script := rest }
    | [] => idleTurn s

end Sys2Proof.Machine
end

