-- ==== Sys2Proof/Machine/Step.lean ====
section
/-! DEFINITION. The step, and the placing of an instruction where the next step takes it. -/

namespace Sys2Proof.Machine

/-- One step of the machine (`takeStep`). -/
def step (s : State) : Host.Outcome State Fault Refusal := takeStep s

/-- The state whose very next step accepts and dispatches the SETUP packet with bits `w` (30_encoding.md R83): the packet
is in the SETUP bank of an idle, enabled engine that has the next turn (41_control_transfer.md R139; log 21). -/
def State.withFetchWord (s : State) (nbits w : Nat) : State :=
  placeSetup (packetOfWord (w % 2 ^ nbits)) s

end Sys2Proof.Machine
end

