-- ==== Sys2Proof/Safety.lean ====
section
/-! DEFINITION. What claims are stated in: the outcome of a step, the end of a run and its observation
(60_exceptions.md R288), the invariant of the machine, and frames. -/

namespace Sys2Proof.Machine

/-- The next state, if the outcome is one. -/
def nextState : Result → Option State
  | .next s => some s
  | .fault _ => none
  | .refused _ => none

/-! ### The end of a run (R288) -/

/-- (a) Quiescent-ready: the block is waiting for the host. -/
abbrev State.quiescentReady (s : State) : Prop :=
  s.faults = [] ∧ s.fsm = some .idle ∧ s.nvmOp = .idle ∧ s.ep0SetupFull = false ∧
    s.busresetPending = false ∧ s.bootPhase = .usb

/-- (b) Off: the device reset follows. -/
abbrev State.off (s : State) : Prop := s.faults = [] ∧ s.fsm = some .off

/-- (c) App: boot jumped to the application. -/
abbrev State.inApp (s : State) : Prop := s.faults = [] ∧ s.bootPhase = .app

/-- A move of the host or the environment, as a host program lists them (R288, 41_control_transfer.md R136). -/
def Move.isHost : Move → Bool
  | .host _ => true
  | .physReset _ => true
  | .nvm => false
  | .busHandler => false
  | .engine => false
  | .boot => false

/-- The host's list is used up. -/
abbrev State.hostDone (s : State) : Prop := ∀ m ∈ s.script, m.isHost = false

/-- A run has ended; a state with a fault is never an end. -/
abbrev State.ended (s : State) : Prop := s.hostDone ∧ (s.quiescentReady ∨ s.off ∨ s.inApp)

/-- The observation of a run (R288). `off` holds the `rstcause_reg` of each arrival at OFF, oldest first: the run reached
OFF exactly when it is not empty. -/
structure Observation where
  answers          : List (Token × Response)
  flash            : Memory
  devAddr          : DevAddr
  addrEn           : Bool
  usbConfiguration : Byte
  usbAttached      : Bool
  off              : List Causes
deriving DecidableEq, Repr

/-- The observation of the run that has come to `s` (R288). -/
def State.observe (s : State) : Observation where
  answers := s.trace
  flash := s.flash
  devAddr := s.devAddr
  addrEn := s.addrEn
  usbConfiguration := s.usbConfiguration
  usbAttached := s.usbAttached
  off := s.offs

/-! ### The invariant -/

/-- Sizes and canonical forms: the widths of 10_state.md R23, R24, R29 to R31, R37 and the canonical form of memory. -/
structure State.DataInv (s : State) : Prop where
  par      : s.par.wf = true
  flash    : s.flash.wf = true
  flashIn  : s.flash.below s.par.flashSize = true
  pb       : s.pbData.wf = true
  pbIn     : s.pbData.below s.par.pageSize = true
  pbClear  : s.pbTag = none → s.pbData = []
  rpt      : s.rpt.length = 132
  outBuf   : s.ep0OutBuf.length ≤ 64
  inBuf    : s.ep0InBuf.length ≤ 64
  magic    : s.magicKey < 2 ^ s.par.magicWidth
  tx       : ∀ c, s.tx = some c → c.data.length ≤ 255 ∧ c.off + c.rem = c.data.length ∧ c.n ≤ 64
  rxCnt    : ∀ n, s.rxCnt = some n → n ≤ 132
  fl       : ∀ f, s.fl = some f → f.addr < 2 ^ addrWidth s.par ∧ f.i ≤ f.n ∧ f.n ≤ 64

/-- No request: the latch and the transfer context hold no value (10_state.md R21, R23, R40). -/
abbrev State.noRequest (s : State) : Prop :=
  s.latch = none ∧ s.tx = none ∧ s.newAddr = none ∧ s.rxCnt = none ∧ s.fl = none

/-- What holds at each value of `fsm`: the registers its segment reads hold a value, the latch and the transfer context
hold none in `IDLE` and while `fsm` holds none (10_state.md R21 to R23, R40), an erase is pending only in FL_ERASE_WAIT and a write only in FL_WRITE_WAIT
(43_flash_engine.md R233, R238), and the LED is on only during a report-2 chunk (10_state.md R36). -/
structure State.EngineInv (s : State) : Prop where
  idle      : s.fsm = some .idle → s.noRequest
  unset     : s.fsm = none → s.noRequest
  sendWait  : s.fsm = some .sendWait → s.tx ≠ none
  addrWait  : s.fsm = some .addrWait → s.newAddr ≠ none
  recvWait  : s.fsm = some .recvWait → s.latch ≠ none ∧ s.rxCnt ≠ none
  srDone    : s.fsm = some .srDone → s.latch ≠ none ∧ s.rxCnt ≠ none
  flWord    : s.fsm = some .flWord → s.fl ≠ none
  eraseWait : s.faults = [] → s.fsm = some .flEraseWait →
    ∃ f, s.fl = some f ∧ f.i < f.n ∧ f.addr % 2 = 0 ∧ f.addr < s.par.bootStart ∧ offsetOf s.par f.addr = 0
  writeWait : s.fsm = some .flWriteWait → s.fl ≠ none
  erasing   : ∀ p, s.nvmOp = .erase p → pageInFlash s.par p = true ∧ s.fsm = some .flEraseWait
  writing   : ∀ p, s.nvmOp = .write p → pageInFlash s.par p = true ∧ s.fsm = some .flWriteWait
  led       : s.led = true →
    s.fsm = some .flWord ∨ s.fsm = some .flEraseWait ∨ s.fsm = some .flWriteWait

/-- Boot has control exactly while the engine state holds no value, and then the USB module is off
(70_reset_and_hazards.md R300 to R312, 41_control_transfer.md R139); EP1 is enabled only in a configured device
(41_control_transfer.md R150), and no bank flag of an unconfigured EP0 is set (41_control_transfer.md R131, R134). -/
structure State.UsbInv (s : State) : Prop where
  phase     : s.fsm = none ↔ s.bootPhase ≠ .usb
  bootOff   : s.bootPhase ≠ .usb →
    s.usbEnabled = false ∧ s.ep0Configured = false ∧ s.ep1Enabled = false
  ep1       : s.ep1Enabled = true → s.usbConfiguration ≠ 0
  setupFull : s.ep0SetupFull = true → s.ep0Configured = true
  outFull   : s.ep0OutFull = true → s.ep0Configured = true
  inArmed   : s.ep0InArmed = true → s.ep0Configured = true

/-- The invariant of the machine. -/
structure State.Inv (s : State) : Prop where
  data   : s.DataInv
  engine : s.EngineInv
  usb    : s.UsbInv

/-! ### Situations and runs -/

/-- The engine is idle, enabled and has a SETUP packet to accept (41_control_transfer.md R139, row IDLE). -/
abbrev State.setupReady (s : State) : Prop :=
  s.faults = [] ∧ s.bootPhase = .usb ∧ s.fsm = some .idle ∧ s.ep0SetupFull = true ∧ s.ep0Configured = true ∧
    s.intEn = true ∧ s.busresetPending = false

/-- The address the block answers at (41_control_transfer.md R131). -/
def State.currentAddr (s : State) : DevAddr := if s.addrEn then s.devAddr else 0

/-- The block answers tokens on endpoint 0 (41_control_transfer.md R131). -/
abbrev State.listening (s : State) : Prop :=
  s.faults = [] ∧ s.usbEnabled = true ∧ s.usbAttached = true ∧ s.ep0Configured = true

/-- `k` times: a turn of the engine, then an IN token of the host at address `a`. -/
def readScript (a : DevAddr) (k : Nat) : List Move :=
  (List.replicate k [Move.engine, Move.host (.inp a 0)]).flatten

/-- The packets of an IN data phase of the bytes `d`: full ones of 64 bytes, then one of `|d| mod 64` bytes
(41_control_transfer.md R145). -/
def packetsOf (d : List Byte) : List (List Byte) :=
  (List.range (d.length / 64 + 1)).map (fun k => (d.drop (64 * k)).take 64)

/-- The state with its request ended: the engine in `IDLE`, the latch and the transfer context without a value
(10_state.md R21, R23; log 8). -/
def State.idled (s : State) : State :=
  { s with fsm := some .idle, latch := none, tx := none, newAddr := none, rxCnt := none, fl := none }

/-- What holds after a device reset with the causes `c`, taken in `s` (70_reset_and_hazards.md R300, the **dev** column of
R312). The latch and the transfer context, which the spec leaves unspecified there, hold no value (log 7); a magic key
that is not kept is a draw, as are the report buffer and the banks (log 6), of which only the size is said. -/
structure AfterDeviceReset (c : Causes) (s t : State) : Prop where
  par              : t.par = s.par
  noRequest        : t.noRequest
  fsm              : t.fsm = none
  ep0SetupFull     : t.ep0SetupFull = false
  ep0OutFull       : t.ep0OutFull = false
  ep0OutBuf        : t.ep0OutBuf.length ≤ 64
  ep0InArmed       : t.ep0InArmed = false
  ep0InBuf         : t.ep0InBuf.length ≤ 64
  ep0Stall         : t.ep0Stall = false
  ep0Configured    : t.ep0Configured = false
  devAddr          : t.devAddr = 0
  addrEn           : t.addrEn = false
  usbConfiguration : t.usbConfiguration = 0
  ep1Enabled       : t.ep1Enabled = false
  usbEnabled       : t.usbEnabled = false
  usbAttached      : t.usbAttached = false
  busresetPending  : t.busresetPending = false
  rpt              : t.rpt.length = 132
  flash            : ∀ a, (∀ p, s.nvmOp = .erase p ∨ s.nvmOp = .write p →
      ¬(p * s.par.pageSize ≤ a ∧ a < p * s.par.pageSize + s.par.pageSize)) → t.flash.read a = s.flash.read a
  pbData           : ∀ k, t.pbData.read k = 0xFF
  pbTag            : t.pbTag = none
  nvmOp            : t.nvmOp = .idle
  rwwEnabled       : t.rwwEnabled = true
  sessLast         : t.sessLast = none
  ivsel            : t.ivsel = .app
  led              : t.led = false
  rstcauseReg      : t.rstcauseReg =
    if c.powerOn = true then c
    else ⟨s.rstcauseReg.powerOn, s.rstcauseReg.external || c.external, s.rstcauseReg.watchdog || c.watchdog,
      s.rstcauseReg.brownOut || c.brownOut⟩
  magicKey         : c.powerOn = false → c.brownOut = false → t.magicKey = s.magicKey
  magicDrawn       : c.powerOn = true ∨ c.brownOut = true → t.magicKey < 2 ^ s.par.magicWidth
  timeoutCounter   : t.timeoutCounter = 0
  timerRunning     : t.timerRunning = false
  bootPhase        : t.bootPhase = .decide
  intEn            : t.intEn = false
  faults           : t.faults = s.faults
  trace            : t.trace = s.trace
  offs             : t.offs = s.offs

/-! ### Programming the application (43_flash_engine.md R243) -/

/-- Byte `x` of word `j` of a chunk whose words are `w`: even addresses hold low bytes (42_hid_feature_reports.md R202,
20_memory.md R63). -/
def wordByte (w : Nat → Word16) (k : Nat) : Byte := if k % 2 = 0 then lo8 (w (k / 2)) else hi8 (w (k / 2))

/-- The words `w` of a session that began at the page-aligned address `A`, in a FLASH that held `old`, have been accepted
up to the address `a`: the whole pages before it hold their words; the page that `a` lies inside is erased and the words
of it are staged in the page buffer, at their offsets; if `a` is page-aligned the buffer is clear; and the session's last
word is the one before `a`. -/
structure State.Programmed (s : State) (A a : Nat) (w : Nat → Word16) (old : Memory) : Prop where
  flashWf : s.flash.wf = true
  pbWf    : s.pbData.wf = true
  flash   : ∀ x, s.flash.read x =
    if A ≤ x ∧ x < a - a % s.par.pageSize then wordByte w (x - A)
    else if a % s.par.pageSize ≠ 0 ∧ a - a % s.par.pageSize ≤ x ∧ x < a - a % s.par.pageSize + s.par.pageSize then 0xFF
    else old.read x
  buffer  : ∀ k, s.pbData.read k =
    if k < a % s.par.pageSize then wordByte w (a - a % s.par.pageSize - A + k) else 0xFF
  clear   : a % s.par.pageSize = 0 → s.pbData = []
  tag     : s.pbTag = if a % s.par.pageSize = 0 then none else some (a / s.par.pageSize)
  last    : if a = A then ∀ l, s.sessLast = some l → l < A else s.sessLast = some (a - 2)

/-- The data of one report-2 chunk for the words `ws` at the address `a`: the id, the 3-byte address field, the words low
byte first (42_hid_feature_reports.md R200, R202). -/
def chunkData (p : Params) (a : Nat) (ws : List Word16) : List Byte :=
  [0x02, byteOf (a / addrScale p) 0, byteOf (a / addrScale p) 1, byteOf (a / addrScale p) 2] ++
    ws.flatMap (fun w => [lo8 w, hi8 w])

/-- The data of consecutive chunks of the words `wss`, from the address `a` on. -/
def chunksData (p : Params) : Nat → List (List Word16) → List (List Byte)
  | _, [] => []
  | a, ws :: wss => chunkData p a ws :: chunksData p (a + 2 * ws.length) wss

/-- The packets of an OUT data phase of the bytes `d`: full ones of 64 bytes, then the rest if there is one. -/
def outPackets (d : List Byte) : List (List Byte) :=
  (List.range ((d.length + 63) / 64)).map (fun k => (d.drop (64 * k)).take 64)

/-- SET_REPORT of feature report 2 with the data `d`, up to the end of its OUT data phase: the SETUP and each packet, a
turn of the engine behind each. -/
def reportScript (addr : DevAddr) (d : List Byte) : List Move :=
  [.host (.setup addr ⟨0x21, 0x09, 0x02, 0x03, 0, 0, byteOf d.length 0, byteOf d.length 1⟩), .engine] ++
    (outPackets d).flatMap (fun b => [.host (.out addr 0 b), .engine])

/-- `t` is reached from `s` by one SET_REPORT transfer of report 2 for each element of `ds`, in order: the host's moves of
`reportScript`, then the unscripted block until it is quiescent, then the host's IN of the status stage. -/
def Transfers : List (List Byte) → State → State → Prop
  | [], s, t => t = s
  | d :: ds, s, t => ∃ (k : Nat) (u v : State),
    Host.Core.run Sys2Proof.core ((reportScript s.currentAddr d).length + k)
      { s with script := reportScript s.currentAddr d } = .next u ∧
    u.quiescentReady ∧ step { u with script := [.host (.inp u.currentAddr 0)] } = .next v ∧ Transfers ds v t

/-! ### Frames -/

/-- Everything that no dispatch segment writes: the address, the device state but for the configuration, both flash
memories byte by byte, the flash controller, the outputs, boot, and the model's own fields. -/
structure SameBeyondDispatch (s t : State) : Prop where
  par             : t.par = s.par
  devAddr         : t.devAddr = s.devAddr
  addrEn          : t.addrEn = s.addrEn
  usbEnabled      : t.usbEnabled = s.usbEnabled
  usbAttached     : t.usbAttached = s.usbAttached
  busresetPending : t.busresetPending = s.busresetPending
  ep0Configured   : t.ep0Configured = s.ep0Configured
  ep0SetupFull    : t.ep0SetupFull = s.ep0SetupFull
  ep0SetupBuf     : t.ep0SetupBuf = s.ep0SetupBuf
  ep0OutFull      : t.ep0OutFull = s.ep0OutFull
  ep0OutBuf       : t.ep0OutBuf = s.ep0OutBuf
  rpt             : t.rpt = s.rpt
  flash           : ∀ a, t.flash.read a = s.flash.read a
  pbData          : ∀ a, t.pbData.read a = s.pbData.read a
  pbTag           : t.pbTag = s.pbTag
  nvmOp           : t.nvmOp = s.nvmOp
  rwwEnabled      : t.rwwEnabled = s.rwwEnabled
  sessLast        : t.sessLast = s.sessLast
  ivsel           : t.ivsel = s.ivsel
  led             : t.led = s.led
  rstcauseReg     : t.rstcauseReg = s.rstcauseReg
  resetCause      : t.resetCause = s.resetCause
  magicKey        : t.magicKey = s.magicKey
  timeoutCounter  : t.timeoutCounter = s.timeoutCounter
  timerRunning    : t.timerRunning = s.timerRunning
  wdtEnabled      : t.wdtEnabled = s.wdtEnabled
  bootPhase       : t.bootPhase = s.bootPhase
  intEn           : t.intEn = s.intEn
  faults          : t.faults = s.faults
  script          : t.script = s.script
  trace           : t.trace = s.trace
  offs            : t.offs = s.offs
  draws           : t.draws = s.draws

end Sys2Proof.Machine
end

