-- ==== Sys2Proof/WellFormed.lean ====
section
/-! DEFINITION. Which terms of `Instr` are requests of the dispatch map: a catch-all row holds no packet that an earlier
row takes (30_encoding.md R86: the first row that matches is taken). -/

namespace Sys2Proof

/-- A wValue that rows 1 to 4 take (R86): device, configuration or HID report at index 0, or any string. The high
byte of `val` is the descriptor type, the low byte the index (R82). -/
def servedKey (val : Word16) : Bool :=
  val == 0x0100 || val == 0x0200 || val == 0x2200 || val.toNat / 256 == 3

/-- The first two bytes of a packet that one of rows 1 to 12 takes, whatever its wValue (R86). -/
def servedPair (rt rq : Byte) : Bool :=
  rq == 0x06 || rq == 0x05 || (rt == 0x00 && rq == 0x09) || (rt == 0x80 && rq == 0x08) ||
    (rt == 0x21 && rq == 0x0A) || (rt == 0x21 && rq == 0x09)

/-- Row 13 (R86): GET_REPORT of report id 1. -/
def servedInfo (rt rq : Byte) (val : Word16) : Bool :=
  rt == 0xA1 && rq == 0x01 && val.toNat % 256 == 1

/-- The instruction is one its own row takes first (R86). -/
def Instr.wf : Instr → Bool
  | .getDescriptorDevice _ _ _ => true
  | .getDescriptorConfiguration _ _ _ => true
  | .getDescriptorHidReport _ _ _ => true
  | .getDescriptorString _ _ _ _ => true
  | .getDescriptorOther _ val _ _ => !servedKey val
  | .setAddress _ _ _ _ => true
  | .setConfiguration _ _ _ => true
  | .getConfiguration _ _ _ => true
  | .hidSetIdle _ _ _ => true
  | .hidSetReportExit _ _ _ => true
  | .hidSetReportFlash _ _ _ => true
  | .hidSetReportOther val _ _ => !(val.toNat % 256 == 1 || val.toNat % 256 == 2)
  | .hidGetReportDeviceInfo _ _ _ => true
  | .unsupported rt rq val _ _ => !(servedPair rt rq || servedInfo rt rq val)

end Sys2Proof
end

