-- ==== Sys2Proof/Certificates/Slice0/Obligations.lean ====
section
/-! DEFINITION. The statements for the provers. Each cites the rules of spec/ it comes from. -/

open Sys2Proof Sys2Proof.Machine

/-! ### Encoding and dispatch (30_encoding.md) -/

/-- R80, R86: the decoder reads from the packet of a well-formed request exactly that request. -/
def Obligations.DecodeOfEncodeIsTheInstruction : Prop :=
  ∀ i : Instr, i.wf = true → decodeSetup (encode i) = i

/-- R80, R83, R86, R88: no bit of a packet is dropped: every packet decodes to a request that its own row takes first and
that encodes to the packet again; the SETUP word holds the 8 bytes and nothing else; and bytes decode exactly when there
are 8 of them (any other length is rejected by name). -/
def Obligations.EncodeOfDecodeIsThePacket : Prop :=
  (∀ p : SetupPacket, encode (decodeSetup p) = p ∧ (decodeSetup p).wf = true ∧
    setup64 p < 2 ^ 64 ∧ packetOfWord (setup64 p) = p) ∧
  (∀ w : Nat, w < 2 ^ 64 → setup64 (packetOfWord w) = w) ∧
  ∀ l : List Byte,
    (l.length = 8 → ∃ p : SetupPacket, p.bytes = l ∧ decode l = .ok (decodeSetup p)) ∧
    (l.length ≠ 8 → decode l = .error (.notEightBytes l.length))

/-- R83, R86: the decoder takes the first row of the opcode table whose mask and pattern match the SETUP word, and two
rows match one word only within rows 1 to 5, within rows 10 to 12, or where the later one is row 14; wIndex and wLength
are no part of a match. -/
def Obligations.DecoderTakesTheFirstMatchingRow : Prop :=
  (∀ p : SetupPacket, (decodeSetup p).row = opcodeRows.findIdx (fun r => r.matches (setup64 p))) ∧
  (∀ (p : SetupPacket) (b4 b5 b6 b7 : Byte),
    (decodeSetup { p with b4 := b4, b5 := b5, b6 := b6, b7 := b7 }).row = (decodeSetup p).row) ∧
  ∀ (w i j : Nat) (ri rj : OpcodeRow), i < j → opcodeRows[i]? = some ri → opcodeRows[j]? = some rj →
    ri.matches w = true → rj.matches w = true → j ≤ 4 ∨ (9 ≤ i ∧ j ≤ 11) ∨ j = 13

/-- R80 to R86: packets written out byte by byte (95_test_vectors.md V-ENC-1, 3, 10, 12, 17, 20, 22). -/
def Obligations.SamplePacketsDecode : Prop :=
  decodeSetup ⟨0x80, 0x06, 0x00, 0x01, 0x00, 0x00, 0x12, 0x00⟩ = .getDescriptorDevice 0x80 0 0x0012 ∧
  decodeSetup ⟨0x80, 0x06, 0x01, 0x01, 0x00, 0x00, 0x12, 0x00⟩ = .getDescriptorOther 0x80 0x0101 0 0x0012 ∧
  decodeSetup ⟨0x80, 0x05, 0x85, 0x00, 0x00, 0x00, 0x00, 0x00⟩ = .setAddress 0x80 0x0085 0 0 ∧
  decodeSetup ⟨0x01, 0x09, 0x01, 0x00, 0x00, 0x00, 0x00, 0x00⟩ = .unsupported 0x01 0x09 0x0001 0 0 ∧
  decodeSetup ⟨0x21, 0x09, 0x02, 0x03, 0x00, 0x00, 0x84, 0x00⟩ = .hidSetReportFlash 0x03 0 0x0084 ∧
  decodeSetup ⟨0xA1, 0x01, 0x01, 0x03, 0x00, 0x00, 0x07, 0x00⟩ = .hidGetReportDeviceInfo 0x03 0 0x0007 ∧
  decodeSetup ⟨0xA1, 0x01, 0x02, 0x03, 0x00, 0x00, 0x84, 0x00⟩ = .unsupported 0xA1 0x01 0x0302 0 0x0084

/-! ### The step and SETUP acceptance (41_control_transfer.md R139 to R142) -/

/-- R140, R141, R142: the step of an idle, enabled engine that has the turn is the meaning of the instruction in the
SETUP bank, run on the state in which the SETUP event and both banks are cleared, the latch holds the packet's fields,
and the transfer context of the request before holds no value (R23). With a scripted turn of the engine, that turn is
used up; with nothing scripted, the engine steps if the NVM agent has no step. Which agent has the turn is the model's
own (log 1). -/
def Obligations.StepRunsTheDecodedInstruction : Prop :=
  ∀ (s : State) (rest : List Move), s.setupReady →
    (s.script = .engine :: rest ∨ (s.script = [] ∧ rest = [] ∧ s.nvmOp = .idle)) →
    step s = exec (decodeSetup s.ep0SetupBuf)
      { s with
        script := rest
        latch := some
          { rt := s.ep0SetupBuf.b0, rq := s.ep0SetupBuf.b1,
            val := le16 s.ep0SetupBuf.b2 s.ep0SetupBuf.b3,
            idx := le16 s.ep0SetupBuf.b4 s.ep0SetupBuf.b5,
            len := le16 s.ep0SetupBuf.b6 s.ep0SetupBuf.b7 }
        tx := none, newAddr := none, rxCnt := none, fl := none
        ep0SetupFull := false, ep0OutFull := false, ep0OutBuf := []
        ep0InArmed := false, ep0InBuf := [] }

/-- R139 (model: log 21): the state with a placed instruction runs exactly what the decoder reads from its word. -/
def Obligations.PlacedWordIsTheNextInstruction : Prop :=
  ∀ (s : State) (nbits w : Nat), ∃ i,
    decodeTableWord nbits w = some i ∧
    step (s.withFetchWord nbits w) =
      exec i (acceptSetup { s.withFetchWord nbits w with script := s.script })

/-! ### Dispatch segments -/

/-- Every instruction's dispatch segment answers a next state from every state, and leaves alone whatever is not its own:
everything of `SameBeyondDispatch`, the configuration and EP1 unless it is SET_CONFIGURATION (R26), the IN bank unless it
acknowledges, and the stall bit, which a dispatch segment never clears. Where it ends its request, the latch and the
transfer context hold no value any more (R21, R23, log 8); where it does not, the latch and the flash registers are kept,
and so are `new_addr` unless it is SET_ADDRESS, `rx_cnt` unless it is a SET_REPORT, and the send registers unless it is a
control read. -/
def Obligations.DispatchLeavesTheRestAlone : Prop :=
  ∀ (i : Instr) (s : State), ∃ t, exec i s = .next t ∧ SameBeyondDispatch s t ∧
    ((∀ v x l, i ≠ .setConfiguration v x l) →
      t.usbConfiguration = s.usbConfiguration ∧ t.ep1Enabled = s.ep1Enabled) ∧
    (t.fsm = some .idle → t.noRequest) ∧
    (t.fsm ≠ some .idle →
      t.latch = s.latch ∧ t.fl = s.fl ∧
        ((∀ r v x l, i ≠ .setAddress r v x l) → t.newAddr = s.newAddr) ∧
        (i.row ≠ 9 → i.row ≠ 10 → i.row ≠ 11 → t.rxCnt = s.rxCnt) ∧
        (3 < i.row → i.row ≠ 7 → i.row ≠ 12 → t.tx = s.tx)) ∧
    ((i.row ≤ 4 ∨ i.row = 7 ∨ i.row = 12 ∨ i.row = 13) → t.ep0InArmed = s.ep0InArmed ∧ t.ep0InBuf = s.ep0InBuf) ∧
    (s.ep0Stall = true → t.ep0Stall = true) ∧
    (t.ep0Stall ≠ s.ep0Stall → i.row = 3 ∨ i.row = 4 ∨ i.row = 13)

/-- R107 to R110, R143: device, configuration and HID report descriptors start an IN data phase of the first
min(wLength, |d|, 255) bytes of the blob; bmRequestType and wIndex do not matter. -/
def Obligations.DescriptorReadsStartASend : Prop :=
  ∀ (s : State) (rt : Byte) (idx len : Word16) (i : Instr) (d : List Byte),
    (i = .getDescriptorDevice rt idx len ∧ d = deviceDesc s.par ∨
      i = .getDescriptorConfiguration rt idx len ∧ d = configDesc s.par ∨
      i = .getDescriptorHidReport rt idx len ∧ d = s.par.hidReportDesc) →
    ∃ t, exec i s = .next t ∧ t.fsm = some .sendWait ∧ t.ep0Stall = s.ep0Stall ∧
      t.tx = some ⟨d.take (min len.toNat (min d.length 255)), 0, min len.toNat (min d.length 255), 0⟩

/-- R111, R107, R147: a string index the table has starts an IN data phase of its blob's first bytes; an absent one sets
the stall bit and returns to IDLE, which ends the request (log 8), and writes nothing else. -/
def Obligations.StringReadSendsOrStalls : Prop :=
  ∀ (s : State) (rt ix : Byte) (idx len : Word16),
    (∀ d, stringDesc s.par ix = some d →
      ∃ t, exec (.getDescriptorString rt ix idx len) s = .next t ∧ t.fsm = some .sendWait ∧
        t.ep0Stall = s.ep0Stall ∧
        t.tx = some ⟨d.take (min len.toNat (min d.length 255)), 0, min len.toNat (min d.length 255), 0⟩) ∧
    (stringDesc s.par ix = none →
      exec (.getDescriptorString rt ix idx len) s = .next { s.idled with ep0Stall := true })

/-- R112, R147, R152: the two catch-all rows set the stall bit and return to IDLE, which ends the request (log 8), and
write nothing else. -/
def Obligations.CatchAllRowsOnlyStall : Prop :=
  ∀ (s : State) (rt rq : Byte) (val idx len : Word16),
    exec (.getDescriptorOther rt val idx len) s = .next { s.idled with ep0Stall := true } ∧
    exec (.unsupported rt rq val idx len) s = .next { s.idled with ep0Stall := true }

/-- R100: the lookup's table, and NotFound for every key it lacks. -/
def Obligations.LookupServesExactlyItsTable : Prop :=
  ∀ (p : Params) (type index : Byte),
    lookup p 0x01 0x00 = some (deviceDesc p) ∧ lookup p 0x02 0x00 = some (configDesc p) ∧
    lookup p 0x22 0x00 = some p.hidReportDesc ∧ lookup p 0x03 index = stringDesc p index ∧
    (type ≠ 0x03 → ¬(index = 0x00 ∧ (type = 0x01 ∨ type = 0x02 ∨ type = 0x22)) → lookup p type index = none)

/-- R101, R102, R103, R105: in a well-formed instance every blob the lookup serves has at most 255 bytes; the device
descriptor and every string start with their own length and their type; the configuration descriptor is four parts of
9, 9, 9 and 7 bytes that do so, with wTotalLength their sum and wDescriptorLength the length of the HID report
descriptor; the device descriptor says USB 1.10, an EP0 of 64 bytes, vendor 0x16C0, product 0x05DF, one configuration. -/
def Obligations.DescriptorsAreFramedAndFit : Prop :=
  ∀ p : Params, p.wf = true →
    (∀ type index d, lookup p type index = some d → d.length ≤ 255) ∧
    (deviceDesc p).length = 18 ∧ (deviceDesc p).take 4 = [18, 1, 0x10, 0x01] ∧
    ((deviceDesc p).drop 7).take 5 = [64, 0xC0, 0x16, 0xDF, 0x05] ∧ (deviceDesc p)[17]? = some 1 ∧
    (∀ index d, stringDesc p index = some d →
      d[0]? = some (BitVec.ofNat 8 d.length) ∧ d[1]? = some 3 ∧ d.length % 2 = 0 ∧ d.length ≤ 254) ∧
    (configDesc p).length = 34 ∧
    (configDesc p)[0]? = some 9 ∧ (configDesc p)[1]? = some 2 ∧
    (configDesc p)[9]? = some 9 ∧ (configDesc p)[10]? = some 4 ∧
    (configDesc p)[18]? = some 9 ∧ (configDesc p)[19]? = some 0x21 ∧
    (configDesc p)[27]? = some 7 ∧ (configDesc p)[28]? = some 5 ∧
    (∃ lo hi, (configDesc p)[2]? = some lo ∧ (configDesc p)[3]? = some hi ∧ (le16 lo hi).toNat = 34) ∧
    (∃ lo hi, (configDesc p)[25]? = some lo ∧ (configDesc p)[26]? = some hi ∧
      (le16 lo hi).toNat = p.hidReportDesc.length)

/-- R106: the info report holds its id, the page size and the flash size, little-endian, in a well-formed instance. -/
def Obligations.InfoReportHoldsTheSizes : Prop :=
  ∀ p : Params, p.wf = true → ∃ p0 p1 f0 f1 f2 f3,
    infoReport p = [0x01, p0, p1, f0, f1, f2, f3] ∧
    p0.toNat + 256 * p1.toNat = p.pageSize ∧
    f0.toNat + 256 * f1.toNat + 65536 * f2.toNat + 16777216 * f3.toNat = p.flashSize

/-- R149, R320: SET_ADDRESS keeps `wValue[6:0]`, arms a zero-length packet and holds; while the packet is armed the
engine does nothing, and once it is taken the address register takes the new address with the enable bit and the request
ends (log 8). -/
def Obligations.SetAddressWaitsForItsAck : Prop :=
  ∀ (s : State) (rt : Byte) (val idx len : Word16),
    (∃ t, exec (.setAddress rt val idx len) s = .next t ∧ t.fsm = some .addrWait ∧
      t.newAddr = some (BitVec.ofNat 7 (val.toNat % 128)) ∧
      t.devAddr = s.devAddr ∧ t.addrEn = s.addrEn ∧
      t.ep0InArmed = (if s.ep0Configured = true then true else s.ep0InArmed) ∧
      t.ep0InBuf = (if s.ep0Configured = true then [] else s.ep0InBuf)) ∧
    (s.fsm = some .addrWait → s.ep0InArmed = true → engineTurn s = .next s) ∧
    (s.fsm = some .addrWait → s.ep0InArmed = false → s.bootPhase = .usb → s.faults = [] → ∀ a, s.newAddr = some a →
      engineTurn s = .next { s.idled with devAddr := a, addrEn := true })

/-- R150: SET_CONFIGURATION arms a zero-length packet, stores the low byte of wValue, enables EP1 exactly when it is not
0, and returns to IDLE. -/
def Obligations.SetConfigurationStoresTheByte : Prop :=
  ∀ (s : State) (val idx len : Word16),
    ∃ t, exec (.setConfiguration val idx len) s = .next t ∧ t.fsm = some .idle ∧
      t.usbConfiguration.toNat = val.toNat % 256 ∧
      (t.ep1Enabled = true ↔ val.toNat % 256 ≠ 0) ∧
      t.ep0InArmed = (if s.ep0Configured = true then true else s.ep0InArmed) ∧
      t.ep0InBuf = (if s.ep0Configured = true then [] else s.ep0InBuf)

/-- R150, R151: GET_CONFIGURATION starts an IN data phase of the configuration byte, or of nothing when wLength is 0; hence
after SET_CONFIGURATION n, a GET_CONFIGURATION with wLength at least 1 sends n, for every n of 0 to 255 (the source's
§8). -/
def Obligations.GetConfigurationSendsTheByte : Prop :=
  (∀ (s : State) (val idx len : Word16),
    ∃ t, exec (.getConfiguration val idx len) s = .next t ∧ t.fsm = some .sendWait ∧
      t.tx = some (if len = 0 then ⟨[], 0, 0, 0⟩ else ⟨[s.usbConfiguration], 0, 1, 0⟩)) ∧
  ∀ (s : State) (n : Nat) (idx len idx' len' val' : Word16), n < 256 → len' ≠ 0 →
    ∃ t u, exec (.setConfiguration (BitVec.ofNat 16 n) idx len) s = .next t ∧
      exec (.getConfiguration val' idx' len') (acceptSetup t) = .next u ∧
      u.tx = some ⟨[BitVec.ofNat 8 n], 0, 1, 0⟩

/-- R190: SET_IDLE arms a zero-length packet, returns to IDLE, which ends the request (log 8), and changes nothing
else. -/
def Obligations.SetIdleOnlyAcknowledges : Prop :=
  ∀ (s : State) (val idx len : Word16),
    exec (.hidSetIdle val idx len) s =
      .next { s.idled with
        ep0InArmed := (if s.ep0Configured = true then true else s.ep0InArmed)
        ep0InBuf := (if s.ep0Configured = true then [] else s.ep0InBuf) }

/-- R191: GET_REPORT of report 1 starts an IN data phase of the first min(wLength, 7) bytes of the info report. -/
def Obligations.GetReportSendsTheInfo : Prop :=
  ∀ (s : State) (valHi : Byte) (idx len : Word16),
    ∃ t, exec (.hidGetReportDeviceInfo valHi idx len) s = .next t ∧ t.fsm = some .sendWait ∧
      t.tx = some ⟨(infoReport s.par).take (min len.toNat 7), 0, min len.toNat 7, 0⟩

/-- R192, R194: the three SET_REPORT rows clear the receive count and open the OUT data phase; with wLength 0 the phase
is complete at once, and the status packet is armed there only in AckThenProcess mode. -/
def Obligations.SetReportOpensTheOutPhase : Prop :=
  ∀ (s : State) (valHi : Byte) (val idx len : Word16) (i : Instr),
    (i = .hidSetReportExit valHi idx len ∨ i = .hidSetReportFlash valHi idx len ∨ i = .hidSetReportOther val idx len) →
    ∃ t, exec i s = .next t ∧ t.rxCnt = some 0 ∧
      (len ≠ 0 → t.fsm = some .recvWait ∧ t.ep0InArmed = s.ep0InArmed ∧ t.ep0InBuf = s.ep0InBuf) ∧
      (len = 0 → t.fsm = some .srDone ∧
        (s.par.ackOrder = .processThenAck → t.ep0InArmed = s.ep0InArmed ∧ t.ep0InBuf = s.ep0InBuf) ∧
        (s.par.ackOrder = .ackThenProcess →
          t.ep0InArmed = (if s.ep0Configured = true then true else s.ep0InArmed) ∧
          t.ep0InBuf = (if s.ep0Configured = true then [] else s.ep0InBuf)))

/-! ### The IN data phase (41_control_transfer.md §4) -/

/-- R144, R146: at SEND_WAIT the engine holds while a packet is armed and no OUT has come; an OUT aborts the phase
silently; else the next min(tx_rem, 64) bytes are armed, and the phase ends with a packet of fewer than 64 bytes. At the
end of the phase the send registers hold no value any more (log 8). -/
def Obligations.SendStepArmsOnePacket : Prop :=
  ∀ (s : State) (c : TxCtx), s.faults = [] → s.bootPhase = .usb → s.fsm = some .sendWait → s.tx = some c →
    (s.ep0InArmed = true → s.ep0OutFull = false → engineTurn s = .next s) ∧
    (s.ep0OutFull = true → engineTurn s = .next s.idled) ∧
    (s.ep0InArmed = false → s.ep0OutFull = false →
      ∃ t, engineTurn s = .next t ∧ t.ep0InArmed = s.ep0Configured ∧
        t.ep0InBuf = (if s.ep0Configured = true then (c.data.drop c.off).take (min c.rem 64) else s.ep0InBuf) ∧
        t.fsm = (if c.rem < 64 then some .idle else some .sendWait) ∧
        t.tx = (if c.rem < 64 then none
          else some ⟨c.data, c.off + min c.rem 64, c.rem - min c.rem 64, min c.rem 64⟩) ∧
        t.flash = s.flash ∧ t.rpt = s.rpt ∧ t.devAddr = s.devAddr ∧ t.usbConfiguration = s.usbConfiguration ∧
        t.trace = s.trace)

/-- R145, R154: a host that takes the packets of an IN data phase of the bytes `d` receives `|d| div 64` packets of 64
bytes and then one of `|d| mod 64` bytes; together they are exactly `d`, in order; and the engine is IDLE after it. The
script and the record of the answers are the model's own (log 1, log 13). -/
def Obligations.ControlReadDeliversExactlyTheBytes : Prop :=
  ∀ (s : State) (d : List Byte), s.listening → s.bootPhase = .usb → s.fsm = some .sendWait →
    s.tx = some ⟨d, 0, d.length, 0⟩ → s.ep0Stall = false → s.ep0OutFull = false → s.ep0InArmed = false →
    s.script = readScript s.currentAddr (d.length / 64 + 1) →
    (∃ t, Host.Core.run Sys2Proof.core (2 * (d.length / 64 + 1)) s = .next t ∧
      t.trace = s.trace ++ (packetsOf d).map (fun b => (Token.inp s.currentAddr 0, Response.data b)) ∧
      t.fsm = some .idle ∧ t.ep0InArmed = false ∧ t.faults = []) ∧
    (packetsOf d).flatten = d ∧
    (∀ k, k < d.length / 64 → ∃ b, (packetsOf d)[k]? = some b ∧ b.length = 64) ∧
    (∃ b, (packetsOf d)[d.length / 64]? = some b ∧ b.length = d.length % 64)

/-! ### The OUT data phase and the decoder (42_hid_feature_reports.md) -/

/-- R193, R282: an OUT beyond wLength is F08, tested before F07, an OUT beyond the 132-byte buffer; both leave the buffer
and the bank as they are. -/
def Obligations.ReceiveStepFaultsOnExcessData : Prop :=
  ∀ (s : State) (r : Request) (rx : Nat), s.faults = [] → s.bootPhase = .usb → s.fsm = some .recvWait →
    s.ep0OutFull = true → s.latch = some r → s.rxCnt = some rx →
    (r.len.toNat < rx + s.ep0OutBuf.length →
      engineTurn s =
        .next { s with faults := [⟨.hostOverrun rx s.ep0OutBuf.length r.len.toNat, some .recvWait⟩] }) ∧
    (rx + s.ep0OutBuf.length ≤ r.len.toNat → 132 < rx + s.ep0OutBuf.length →
      engineTurn s =
        .next { s with faults := [⟨.reportOverflow rx s.ep0OutBuf.length, some .recvWait⟩] })

/-- R193, R194: a packet that fits is stored behind the bytes received before it, every other byte of the report buffer is
kept, the bank is released, and the phase ends on wLength bytes or on a short packet. At its end the status packet of no
bytes is armed (if EP0 is configured) in AckThenProcess mode; in ProcessThenAck mode, and before the end, the IN bank is
left alone. -/
def Obligations.ReceiveStepStoresThePacket : Prop :=
  ∀ (s : State) (r : Request) (rx : Nat), s.faults = [] → s.bootPhase = .usb → s.fsm = some .recvWait →
    s.ep0OutFull = true → s.latch = some r → s.rxCnt = some rx → s.rpt.length = 132 →
    rx + s.ep0OutBuf.length ≤ r.len.toNat → rx + s.ep0OutBuf.length ≤ 132 →
    ∃ t, engineTurn s = .next t ∧ t.rpt.length = 132 ∧
      (∀ k, k < 132 → t.rpt[k]? =
        if rx ≤ k ∧ k < rx + s.ep0OutBuf.length then s.ep0OutBuf[k - rx]? else s.rpt[k]?) ∧
      t.rxCnt = some (rx + s.ep0OutBuf.length) ∧ t.ep0OutFull = false ∧ t.ep0OutBuf = [] ∧
      t.latch = s.latch ∧ t.flash = s.flash ∧ t.pbData = s.pbData ∧ t.faults = [] ∧
      (rx + s.ep0OutBuf.length = r.len.toNat ∨ s.ep0OutBuf.length < 64 →
        t.fsm = some .srDone ∧
        (s.par.ackOrder = .ackThenProcess →
          t.ep0InArmed = (if s.ep0Configured = true then true else s.ep0InArmed) ∧
          t.ep0InBuf = (if s.ep0Configured = true then [] else s.ep0InBuf)) ∧
        (s.par.ackOrder = .processThenAck → t.ep0InArmed = s.ep0InArmed ∧ t.ep0InBuf = s.ep0InBuf)) ∧
      (rx + s.ep0OutBuf.length ≠ r.len.toNat → 64 ≤ s.ep0OutBuf.length →
        t.fsm = some .recvWait ∧ t.ep0InArmed = s.ep0InArmed ∧ t.ep0InBuf = s.ep0InBuf)

/-- R195, R196, R197: at SR_DONE a val_lo of 1 relinquishes USB, re-enables read-while-write, clears the page buffer, moves
the vector table back and waits the settle delay; flash, configuration and report buffer are kept. -/
def Obligations.ExitReportRelinquishesUsb : Prop :=
  ∀ (s : State) (r : Request), s.faults = [] → s.bootPhase = .usb → s.fsm = some .srDone → s.latch = some r →
    r.val.toNat % 256 = 1 →
    ∃ t, engineTurn s = .next t ∧ t.fsm = some .exitSettle ∧
      t.usbAttached = false ∧ t.usbEnabled = false ∧ t.ep0SetupFull = false ∧ t.ep0OutFull = false ∧
      t.ep0InArmed = false ∧ t.ep0Stall = false ∧ t.ep0Configured = false ∧ t.devAddr = 0 ∧ t.addrEn = false ∧
      t.ep1Enabled = false ∧ t.busresetPending = false ∧ t.rwwEnabled = true ∧ t.pbTag = none ∧
      (∀ k, t.pbData.read k = 0xFF) ∧ t.ivsel = .app ∧
      (∀ a, t.flash.read a = s.flash.read a) ∧ t.usbConfiguration = s.usbConfiguration ∧ t.rpt = s.rpt ∧
      t.sessLast = s.sessLast ∧ t.rstcauseReg = s.rstcauseReg ∧ t.faults = []

/-- R198, R300, R301: the settle step puts the exit cause into the reset-cause register and stops the engine at OFF,
and the next step of an unscripted block with an idle NVM is the device reset with the causes of that register:
afterwards the register holds exactly the exit cause, FLASH is kept, the magic key is kept unless the cause has PowerOn
or BrownOut (so that a watchdog exit keeps it), and every other field is as `AfterDeviceReset` says. That the latch and
the transfer context, unspecified there, hold no value is log 7; the bounds of the drawn banks and of a drawn magic key
are log 6. The record of the arrival at OFF is the model's own (log 13), and so is the order of the agents (log 1). -/
def Obligations.ExitEndsInADeviceReset : Prop :=
  ∀ s : State, s.faults = [] → s.bootPhase = .usb → s.script = [] → s.nvmOp = .idle → s.fsm = some .exitSettle →
    ∃ u t, step s = .next u ∧ step u = .next t ∧
      u = { s with
        rstcauseReg := s.par.exitResetCause, fsm := some .off, offs := s.offs ++ [s.par.exitResetCause] } ∧
      AfterDeviceReset s.par.exitResetCause u t ∧ t.script = [] ∧
      t.rstcauseReg = s.par.exitResetCause ∧ (∀ a, t.flash.read a = s.flash.read a) ∧
      (s.par.exitResetCause.powerOn = false → s.par.exitResetCause.brownOut = false → t.magicKey = s.magicKey)

/-- R195, R200, R201, R203: at SR_DONE a val_lo of 2 sets the chunk up: the 3-byte little-endian address, scaled and
truncated to ADDR_WIDTH bits, the word count of the chunk mode, index 0, and the LED on. -/
def Obligations.FlashReportSetsUpTheChunk : Prop :=
  ∀ (s : State) (r : Request) (rx : Nat) (b0 b1 b2 : Byte), s.faults = [] → s.bootPhase = .usb →
    s.fsm = some .srDone → s.latch = some r → r.val.toNat % 256 = 2 → s.rxCnt = some rx →
    s.rpt[1]? = some b0 → s.rpt[2]? = some b1 → s.rpt[3]? = some b2 →
    engineTurn s =
      .next
        { s with
          fsm := some .flWord
          led := true
          fl := some
            { addr :=
                if s.par.flashSize ≤ 65536 then (b0.toNat + 256 * b1.toNat + 65536 * b2.toNat) % 2 ^ 16
                else ((b0.toNat + 256 * b1.toNat + 65536 * b2.toNat) * 2) % 2 ^ 32
              i := 0
              n := if s.par.chunkMode = .fullBuffer then 64 else if 4 ≤ rx then (rx - 4) / 2 else 0 } }

/-- R195, R204: at SR_DONE any other val_lo ends the request (log 8) with no effect but, in ProcessThenAck mode, the
status packet. -/
def Obligations.OtherReportOnlyAcknowledges : Prop :=
  ∀ (s : State) (r : Request), s.faults = [] → s.bootPhase = .usb → s.fsm = some .srDone → s.latch = some r →
    r.val.toNat % 256 ≠ 1 → r.val.toNat % 256 ≠ 2 →
    (s.par.ackOrder = .ackThenProcess → engineTurn s = .next s.idled) ∧
    (s.par.ackOrder = .processThenAck →
      engineTurn s =
        .next { s.idled with
          ep0InArmed := (if s.ep0Configured = true then true else s.ep0InArmed)
          ep0InBuf := (if s.ep0Configured = true then [] else s.ep0InBuf) })

/-- R195, C13: the id byte in the data, `rpt[0]`, decides nothing: with another byte there the decoder's step is the same
but for that byte. -/
def Obligations.ReportIdInTheDataIsNotRead : Prop :=
  ∀ (s t : State) (b : Byte), reportStep s = .next t →
    reportStep { s with rpt := s.rpt.set 0 b } = .next { t with rpt := t.rpt.set 0 b }

/-! ### The flash controller (43_flash_engine.md) -/

/-- R234, R282: the hazards of a word, tested in their order, before any effect: the first that holds is recorded with the
address, and nothing else changes; a chunk whose words are done is not tested. -/
def Obligations.WordHazardsInTheirOrder : Prop :=
  ∀ (s : State) (f : FlCtx) (w : Word16), s.faults = [] → s.bootPhase = .usb → s.fsm = some .flWord → s.fl = some f →
    f.i ≠ f.n → chunkWord s.rpt f.i = some w →
    (f.addr % 2 ≠ 0 → engineTurn s = .next (raise (.misaligned f.addr) s)) ∧
    (f.addr % 2 = 0 → s.par.flashSize ≤ f.addr → engineTurn s = .next (raise (.outOfRange f.addr) s)) ∧
    (f.addr % 2 = 0 → f.addr < s.par.flashSize → ∀ l, s.sessLast = some l → f.addr ≤ l →
      engineTurn s = .next (raise (.outOfOrder f.addr l) s)) ∧
    (f.addr % 2 = 0 → f.addr < s.par.flashSize → (∀ l, s.sessLast = some l → l < f.addr) →
      ∀ p, s.pbTag = some p → p ≠ f.addr / s.par.pageSize →
        engineTurn s = .next (raise (.bufferPageMismatch f.addr p) s)) ∧
    (f.addr % 2 = 0 → f.addr < s.par.flashSize → (∀ l, s.sessLast = some l → l < f.addr) →
      (∀ p, s.pbTag = some p → p = f.addr / s.par.pageSize) → s.par.bootStart ≤ f.addr →
        engineTurn s = .next (raise (.bootSectionWrite f.addr) s))

/-- R233, R235, R231: a word without a hazard whose address is page-aligned starts the erase of its page and holds; nothing
is staged, and an application page turns read-while-write off. -/
def Obligations.AlignedWordStartsAnErase : Prop :=
  ∀ (s : State) (f : FlCtx) (w : Word16), s.faults = [] → s.bootPhase = .usb → s.fsm = some .flWord → s.fl = some f →
    f.i ≠ f.n → chunkWord s.rpt f.i = some w → checkWord s f.addr = none → f.addr % s.par.pageSize = 0 →
    engineTurn s =
      .next { s with
        fsm := some .flEraseWait
        nvmOp := .erase (f.addr / s.par.pageSize)
        rwwEnabled :=
          if f.addr / s.par.pageSize * s.par.pageSize < s.par.bootStart then false else s.rwwEnabled }

/-- R233, R237: staging a word puts its low byte at the even offset and its high byte behind it, keeps every other byte of
the page buffer, tags the buffer with the page, and advances the session, the address and the index; flash is not
touched. It happens at FL_WORD for an unaligned word without a hazard and at FL_ERASE_WAIT once the erase is done. -/
def Obligations.StagedWordGoesToTheBuffer : Prop :=
  ∀ (s : State) (f : FlCtx) (w : Word16), s.faults = [] → s.bootPhase = .usb → s.fl = some f → s.pbData.wf = true →
    chunkWord s.rpt f.i = some w →
    (s.fsm = some .flWord ∧ f.i ≠ f.n ∧ checkWord s f.addr = none ∧ f.addr % s.par.pageSize ≠ 0 ∨
      s.fsm = some .flEraseWait ∧ s.nvmOp = .idle) →
    ∃ t, engineTurn s = .next t ∧
      (∀ k, t.pbData.read k =
        if k = f.addr % s.par.pageSize then lo8 w
        else if k = f.addr % s.par.pageSize + 1 then hi8 w else s.pbData.read k) ∧
      t.pbTag = some (f.addr / s.par.pageSize) ∧ t.sessLast = some f.addr ∧
      t.fl = some ⟨(f.addr + 2) % 2 ^ addrWidth s.par, f.i + 1, f.n⟩ ∧
      (∀ a, t.flash.read a = s.flash.read a) ∧ t.rpt = s.rpt ∧ t.led = s.led ∧ t.ivsel = s.ivsel ∧
      t.devAddr = s.devAddr ∧ t.usbConfiguration = s.usbConfiguration ∧ t.trace = s.trace

/-- R231, R233, R238, R239, R242: in the engine's turn that stages a word (at FL_WORD for an unaligned word without a
hazard, at FL_ERASE_WAIT once the erase is done), the page is committed exactly when the new address is page-aligned: the
write starts if every byte of the page is 0xFF, and the write of an application page turns read-while-write off; else F05
is recorded and the staged word stands; without a commit the next word follows. The step after the write is only
`fsm <- FL_WORD`. -/
def Obligations.PageIsCommittedAtItsEnd : Prop :=
  (∀ (s : State) (f : FlCtx) (w : Word16), s.faults = [] → s.bootPhase = .usb → s.fl = some f →
    chunkWord s.rpt f.i = some w →
    (s.fsm = some .flWord ∧ f.i ≠ f.n ∧ checkWord s f.addr = none ∧ f.addr % s.par.pageSize ≠ 0 ∨
      s.fsm = some .flEraseWait ∧ s.nvmOp = .idle) →
    ∃ t, engineTurn s = .next t ∧ t.pbTag = some (f.addr / s.par.pageSize) ∧ t.sessLast = some f.addr ∧
      ((f.addr + 2) % 2 ^ addrWidth s.par % s.par.pageSize ≠ 0 →
        t.fsm = some .flWord ∧ t.nvmOp = s.nvmOp ∧ t.faults = [] ∧ t.rwwEnabled = s.rwwEnabled) ∧
      ((f.addr + 2) % 2 ^ addrWidth s.par % s.par.pageSize = 0 →
        (∀ k, k < s.par.pageSize → s.flash.read (f.addr / s.par.pageSize * s.par.pageSize + k) = 0xFF) →
        t.fsm = some .flWriteWait ∧ t.nvmOp = .write (f.addr / s.par.pageSize) ∧ t.faults = [] ∧
          t.rwwEnabled =
            (if f.addr / s.par.pageSize * s.par.pageSize < s.par.bootStart then false else s.rwwEnabled)) ∧
      ((f.addr + 2) % 2 ^ addrWidth s.par % s.par.pageSize = 0 →
        (∃ k, k < s.par.pageSize ∧ s.flash.read (f.addr / s.par.pageSize * s.par.pageSize + k) ≠ 0xFF) →
        t.faults = [⟨.writeUnerased (f.addr / s.par.pageSize), s.fsm⟩] ∧ t.fsm = s.fsm ∧ t.nvmOp = s.nvmOp ∧
          t.rwwEnabled = s.rwwEnabled)) ∧
  (∀ s : State, s.faults = [] → s.bootPhase = .usb → s.fsm = some .flWriteWait →
    (s.nvmOp = .idle → engineTurn s = .next { s with fsm := some .flWord }) ∧
    (s.nvmOp ≠ .idle → engineTurn s = .next s))

/-- R203: when the words of the chunk are done the LED goes off, the request ends (log 8), and in ProcessThenAck mode the status
packet is armed. -/
def Obligations.ChunkEndsWithTheLedOff : Prop :=
  ∀ (s : State) (f : FlCtx), s.faults = [] → s.bootPhase = .usb → s.fsm = some .flWord → s.fl = some f → f.i = f.n →
    (s.par.ackOrder = .ackThenProcess →
      engineTurn s = .next { s.idled with led := false }) ∧
    (s.par.ackOrder = .processThenAck →
      engineTurn s =
        .next { s.idled with
          led := false
          ep0InArmed := (if s.ep0Configured = true then true else s.ep0InArmed)
          ep0InBuf := (if s.ep0Configured = true then [] else s.ep0InBuf) })

/-- R236: the completion of an erase makes every byte of the page read 0xFF, keeps every other byte of FLASH and the page
buffer, and ends the operation. -/
def Obligations.EraseCompletionErasesThePage : Prop :=
  ∀ (s : State) (p : Nat), s.nvmOp = .erase p → pageInFlash s.par p = true →
    ∃ t, nvmStep s = .next t ∧ t.nvmOp = .idle ∧
      (∀ a, t.flash.read a =
        if p * s.par.pageSize ≤ a ∧ a < p * s.par.pageSize + s.par.pageSize then 0xFF else s.flash.read a) ∧
      t.pbData = s.pbData ∧ t.pbTag = s.pbTag ∧ t.fsm = s.fsm ∧ t.rwwEnabled = s.rwwEnabled ∧ t.sessLast = s.sessLast

/-- R240: the completion of a page write puts the page buffer into the page byte by byte (0xFF where nothing was staged),
keeps every other byte of FLASH, clears the buffer, and ends the operation. -/
def Obligations.WriteCompletionProgramsThePage : Prop :=
  ∀ (s : State) (p : Nat), s.nvmOp = .write p → pageInFlash s.par p = true → s.flash.wf = true →
    ∃ t, nvmStep s = .next t ∧ t.nvmOp = .idle ∧
      (∀ a, t.flash.read a =
        if p * s.par.pageSize ≤ a ∧ a < p * s.par.pageSize + s.par.pageSize
        then s.pbData.read (a - p * s.par.pageSize) else s.flash.read a) ∧
      (∀ k, t.pbData.read k = 0xFF) ∧ t.pbTag = none ∧ t.fsm = s.fsm ∧ t.rwwEnabled = s.rwwEnabled ∧
      t.sessLast = s.sessLast

/-- R30, R67, R300: no step changes a byte of FLASH unless an erase or a write is in progress, and then only bytes of its
page. -/
def Obligations.OnlyTheNvmOperationChangesFlash : Prop :=
  ∀ s t : State, s.flash.wf = true → step s = .next t →
    (s.nvmOp = .idle → ∀ a, t.flash.read a = s.flash.read a) ∧
    (∀ p, (s.nvmOp = .erase p ∨ s.nvmOp = .write p) → ∀ a,
      ¬(p * s.par.pageSize ≤ a ∧ a < p * s.par.pageSize + s.par.pageSize) → t.flash.read a = s.flash.read a)

/-- R232: a step that takes the tag off the page buffer leaves the whole buffer at 0xFF, and it is the completion of a page
write, the exit report, or a device reset; a step that changes a byte of the buffer and leaves it tagged is a FILL, at
FL_WORD or FL_ERASE_WAIT. -/
def Obligations.PageBufferIsClearedOnlyAtItsPoints : Prop :=
  ∀ s t : State, step s = .next t →
    (s.pbTag ≠ none → t.pbTag = none →
      (∀ k, t.pbData.read k = 0xFF) ∧
        ((∃ p, s.nvmOp = .write p ∧ t.nvmOp = .idle) ∨
          (s.fsm = some .srDone ∧ t.fsm = some .exitSettle) ∨ t.bootPhase = .decide)) ∧
    (t.pbTag ≠ none → t.pbData ≠ s.pbData → s.fsm = some .flWord ∨ s.fsm = some .flEraseWait)

/-- R243, R233 to R242, R203 (one chunk): in a well-formed instance the unscripted block runs a chunk whose words are `w`
from where the session before it stopped, be that a page boundary or inside a page whose first words are staged, to its
end below the boot section, with no fault: whole pages are programmed, the words of a page that is not complete stay
staged in the erased page (`State.Programmed`), the engine is back in IDLE with the request ended (log 8) and the LED off, in
ProcessThenAck mode the status packet is armed, read-while-write is not turned on, and nothing else changes. The order of
the agents is the model's own (log 1). -/
def Obligations.ChunkIsProgrammed : Prop :=
  ∀ (s : State) (f : FlCtx) (A : Nat) (w : Nat → Word16) (old : Memory), s.par.wf = true → s.faults = [] →
    s.script = [] → s.bootPhase = .usb → s.nvmOp = .idle → s.fsm = some .flWord → s.fl = some f → f.i ≤ f.n →
    A % s.par.pageSize = 0 → A ≤ f.addr → f.addr % 2 = 0 → f.addr + 2 * (f.n - f.i) ≤ s.par.bootStart →
    s.Programmed A f.addr w old →
    (∀ j, j < f.n - f.i → chunkWord s.rpt (f.i + j) = some (w ((f.addr - A) / 2 + j))) →
    ∃ (k : Nat) (t : State), Host.Core.run Sys2Proof.core k s = .next t ∧
      t.Programmed A (f.addr + 2 * (f.n - f.i)) w old ∧
      (t.rwwEnabled = true → s.rwwEnabled = true) ∧
      t = { s.idled with
        led := false
        ep0InArmed :=
          if s.par.ackOrder = .processThenAck ∧ s.ep0Configured = true then true else s.ep0InArmed
        ep0InBuf := if s.par.ackOrder = .processThenAck ∧ s.ep0Configured = true then [] else s.ep0InBuf
        flash := t.flash, pbData := t.pbData, pbTag := t.pbTag, sessLast := t.sessLast, rwwEnabled := t.rwwEnabled }

/-- R243: the chunking law. Words for whole pages from a page boundary on, above the session's last word, below the boot
section and within reach of the 3-byte address field, split in any way into chunks of 1 to 64 words (of 64 in FullBuffer
mode), one SET_REPORT transfer each, are programmed with no fault: each word stands at its address, low byte first, every
other byte of FLASH is kept, the page buffer is clear, and the block is ready for the host. That each page is erased and
written once is not part of it. The moment at which the block runs between the host's moves is the model's own (log
1). -/
def Obligations.ChunksProgramTheImage : Prop :=
  ∀ (s : State) (A : Nat) (wss : List (List Word16)), s.par.wf = true → s.listening → s.quiescentReady →
    s.script = [] → s.intEn = true → s.rpt.length = 132 → s.flash.wf = true → s.pbData = [] → s.pbTag = none →
    (∀ l, s.sessLast = some l → l < A) → A % s.par.pageSize = 0 → (2 * wss.flatten.length) % s.par.pageSize = 0 →
    A + 2 * wss.flatten.length ≤ s.par.bootStart → A + 2 * wss.flatten.length ≤ 2 ^ 24 * addrScale s.par →
    (∀ ws ∈ wss, 1 ≤ ws.length ∧ ws.length ≤ 64 ∧ (s.par.chunkMode = .fullBuffer → ws.length = 64)) →
    ∃ t, Transfers (chunksData s.par A wss) s t ∧ t.quiescentReady ∧ t.listening ∧ t.pbData = [] ∧ t.pbTag = none ∧
      ∀ a, t.flash.read a =
        if A ≤ a ∧ a < A + 2 * wss.flatten.length
        then wordByte (fun j => wss.flatten.getD j 0) (a - A) else s.flash.read a

/-! ### Events and faults (60_exceptions.md) -/

/-- R279, R282, R39: after a recorded fault no agent has a step; no step removes a fault record, and one step records at
most one, with the engine state before it. That the step after a fault is answered by `Fault.faulted` is the model's
form of it (log 9). -/
def Obligations.FaultsAreStickyAndOneAtATime : Prop :=
  ∀ s : State, (s.faults ≠ [] → step s = .fault .faulted) ∧
    ∀ t : State, step s = .next t → t.faults = [] ∨ ∃ c, t.faults = [⟨c, s.fsm⟩]

/-- R273, R245: while a handler of the engine runs, neither the bus-reset handler nor the tick has a step, and no SETUP is
accepted: the request latch keeps its request until the handler returns. -/
def Obligations.RunningHandlerIsNotPreempted : Prop :=
  ∀ s : State, handlerRunning s.fsm = true →
    busHandlerTurn s = .next s ∧ (s.bootPhase = .window → bootTurn s = .next s) ∧
    (∀ t, step s = .next t → t.latch = s.latch ∨ t.latch = none)

/-- R274, R311: with both USB events pending at an idle engine, an engine turn does nothing, and the unscripted block
with an idle NVM runs the bus-reset handler, which configures EP0, clears its flags, the configuration, EP1 and the
event, and nothing else. The turn of an unscripted block is the model's own (log 1). -/
def Obligations.BusResetIsServicedFirst : Prop :=
  ∀ s : State, s.faults = [] → s.script = [] → s.nvmOp = .idle → s.fsm = some .idle → s.bootPhase = .usb →
    s.intEn = true → s.busresetPending = true →
    engineTurn s = .next s ∧
    step s = .next { s with
      ep0Configured := true, ep0SetupFull := false, ep0OutFull := false, ep0InArmed := false, ep0Stall := false,
      usbConfiguration := 0, ep1Enabled := false, busresetPending := false }

/-! ### The host side of EP0 (41_control_transfer.md §1) -/

/-- R131: a token is for the block exactly when USB is enabled and attached and its address is `dev_addr` if the enable
bit is set, else 0; a token whose address or endpoint is not the block's, or on EP0 before it is configured, gets no
response and changes nothing (the record of the answer is the model's own, log 13). -/
def Obligations.ForeignTokensChangeNothing : Prop :=
  (∀ (s : State) (addr : DevAddr),
    forBlock addr s = true ↔
      s.usbEnabled = true ∧ s.usbAttached = true ∧ (s.addrEn = true → addr = s.devAddr) ∧
        (s.addrEn = false → addr = 0)) ∧
  ∀ (s : State) (rest : List Move) (tok : Token) (addr : DevAddr), s.faults = [] → s.script = .host tok :: rest →
    ((∃ b, tok = .setup addr b ∧ (forBlock addr s = false ∨ s.ep0Configured = false)) ∨
      (∃ ep b, tok = .out addr ep b ∧ b.length ≤ 64 ∧
        (forBlock addr s = false ∨ ep ≠ 0 ∨ s.ep0Configured = false)) ∨
      (∃ ep, tok = .inp addr ep ∧
        (forBlock addr s = false ∨ 2 ≤ ep ∨ (ep = 0 ∧ s.ep0Configured = false)))) →
    step s = .next { s with script := rest, trace := s.trace ++ [(tok, .silent)] }

/-- R132: a SETUP for the block fills the bank, clears the stall and is acknowledged, unless the engine is in a transfer
wait or the bank is full: then F09 is recorded and nothing else changes. The scripted move and the record of the answer
are the model's own (log 1, log 13). -/
def Obligations.SetupTokenFillsTheBank : Prop :=
  ∀ (s : State) (rest : List Move) (p : SetupPacket), s.listening → s.script = .host (.setup s.currentAddr p) :: rest →
    (s.ep0SetupFull = false → s.fsm ≠ some .sendWait → s.fsm ≠ some .addrWait → s.fsm ≠ some .recvWait →
      step s = .next { s with
        script := rest, ep0SetupBuf := p, ep0SetupFull := true, ep0Stall := false,
        trace := s.trace ++ [(.setup s.currentAddr p, .ack)] }) ∧
    ((s.ep0SetupFull = true ∨ s.fsm = some .sendWait ∨ s.fsm = some .addrWait ∨ s.fsm = some .recvWait) →
      step s = .next { s with script := rest, faults := [⟨.setupDuringTransfer s.fsm, s.fsm⟩] })

/-- R133, R137: an OUT of at most 64 bytes on EP0 is answered STALL while the endpoint is stalled and NAK while the bank
is full, with no change of state; else it fills the bank and is acknowledged. The scripted move and the record of the
answer are the model's own (log 1, log 13). -/
def Obligations.OutTokenFillsTheBank : Prop :=
  ∀ (s : State) (rest : List Move) (b : List Byte), s.listening → b.length ≤ 64 →
    s.script = .host (.out s.currentAddr 0 b) :: rest →
    step s = .next
      (if s.ep0Stall = true then
        { s with script := rest, trace := s.trace ++ [(.out s.currentAddr 0 b, .stall)] }
      else if s.ep0OutFull = true then
        { s with script := rest, trace := s.trace ++ [(.out s.currentAddr 0 b, .nak)] }
      else
        { s with
          script := rest, ep0OutBuf := b, ep0OutFull := true,
          trace := s.trace ++ [(.out s.currentAddr 0 b, .ack)] })

/-- R134, R137: an IN on EP0 is answered STALL while the endpoint is stalled and NAK while nothing is armed, with no
change of state; else it takes the armed packet whole. The scripted move and the record of the answer are the model's
own (log 1, log 13). -/
def Obligations.InTokenTakesTheArmedPacket : Prop :=
  ∀ (s : State) (rest : List Move), s.listening → s.script = .host (.inp s.currentAddr 0) :: rest →
    step s = .next
      (if s.ep0Stall = true then
        { s with script := rest, trace := s.trace ++ [(.inp s.currentAddr 0, .stall)] }
      else if s.ep0InArmed = false then
        { s with script := rest, trace := s.trace ++ [(.inp s.currentAddr 0, .nak)] }
      else
        { s with
          script := rest, ep0InArmed := false, ep0InBuf := [],
          trace := s.trace ++ [(.inp s.currentAddr 0, .data s.ep0InBuf)] })

/-- R135: a bus reset changes nothing while USB is off; in a transfer wait it is F10; at any other time it clears the
address, the flags and both endpoints at once and leaves the event pending. The scripted move is the model's own (log
1). -/
def Obligations.BusResetTokenActsAtOnce : Prop :=
  ∀ (s : State) (rest : List Move), s.faults = [] → s.script = .host .busReset :: rest →
    (s.usbEnabled = false → step s = .next { s with script := rest }) ∧
    (s.usbEnabled = true → (s.fsm = some .sendWait ∨ s.fsm = some .addrWait ∨ s.fsm = some .recvWait) →
      step s = .next { s with script := rest, faults := [⟨.busResetDuringWait s.fsm, s.fsm⟩] }) ∧
    (s.usbEnabled = true → s.fsm ≠ some .sendWait → s.fsm ≠ some .addrWait → s.fsm ≠ some .recvWait →
      step s = .next { s with
        script := rest, devAddr := 0, addrEn := false, ep0SetupFull := false, ep0OutFull := false,
        ep0InArmed := false, ep0Stall := false, ep0Configured := false, ep1Enabled := false, busresetPending := true })

/-- R131, R153: an IN on EP1 for the block is answered NAK when EP1 is enabled and not at all otherwise, whether or not EP0
is configured; a SETUP or OUT changes nothing there (`ForeignTokensChangeNothing`). The scripted move and the record of
the answer are the model's own (log 1, log 13). -/
def Obligations.Ep1InIsNakedWhenEnabled : Prop :=
  ∀ (s : State) (rest : List Move), s.faults = [] → s.usbEnabled = true → s.usbAttached = true →
    s.script = .host (.inp s.currentAddr 1) :: rest →
    step s = .next { s with
      script := rest
      trace := s.trace ++ [(.inp s.currentAddr 1, if s.ep1Enabled = true then .nak else .silent)] }

/-- R137: once the endpoint is stalled, the only steps that clear the stall are a SETUP and a bus reset of the host, the
bus-reset handler, the exit report, and a device reset. -/
def Obligations.StallLastsUntilSetupOrReset : Prop :=
  ∀ s t : State, step s = .next t → s.ep0Stall = true → t.ep0Stall = false →
    (∃ addr p rest, s.script = .host (.setup addr p) :: rest) ∨
      (∃ rest, s.script = .host .busReset :: rest) ∨
      (s.busresetPending = true ∧ t.busresetPending = false) ∨
      t.fsm = some .exitSettle ∨ t.bootPhase = .decide

/-! ### Reset and boot (70_reset_and_hazards.md) -/

/-- R312 (dev column), R300: the values the spec gives for a power-on reset, and no value where it says none. That
`State.reset` is the dev state of a power-on is the model's choice (log 4). -/
def Obligations.ResetStateHasTheSpecsValues : Prop :=
  State.reset.fsm = none ∧ State.reset.latch = none ∧ State.reset.tx = none ∧ State.reset.newAddr = none ∧
  State.reset.rxCnt = none ∧ State.reset.fl = none ∧
  State.reset.ep0SetupFull = false ∧ State.reset.ep0OutFull = false ∧ State.reset.ep0InArmed = false ∧
  State.reset.ep0Stall = false ∧ State.reset.ep0Configured = false ∧ State.reset.devAddr = 0 ∧
  State.reset.addrEn = false ∧ State.reset.usbConfiguration = 0 ∧ State.reset.ep1Enabled = false ∧
  State.reset.usbEnabled = false ∧ State.reset.usbAttached = false ∧ State.reset.busresetPending = false ∧
  (∀ k, State.reset.pbData.read k = 0xFF) ∧ State.reset.pbTag = none ∧ State.reset.nvmOp = .idle ∧
  State.reset.rwwEnabled = true ∧ State.reset.sessLast = none ∧ State.reset.ivsel = .app ∧ State.reset.led = false ∧
  State.reset.rstcauseReg = ⟨true, false, false, false⟩ ∧ State.reset.timeoutCounter = 0 ∧
  State.reset.timerRunning = false ∧ State.reset.bootPhase = .decide ∧ State.reset.intEn = false ∧
  State.reset.faults = [] ∧ State.reset.rpt.length = 132 ∧
  State.reset.magicKey < 2 ^ State.reset.par.magicWidth

/-- R300, R301: a physical reset, taken at any time in a state without a fault, puts every field at its dev value, whatever
it was (`AfterDeviceReset`): the causes accumulate unless it is a power-on; the magic key is kept over an external reset
and is a draw after a power-on or a brown-out (log 6); FLASH is kept but for the page of an operation in progress; faults
are kept. That the latch and the transfer context, unspecified there, hold no value is log 7; the scripted move is the
model's own (log 1). -/
def Obligations.PhysicalResetGivesTheDevState : Prop :=
  ∀ (s : State) (rest : List Move) (c : PhysCause), s.faults = [] → s.flash.wf = true →
    s.script = .physReset c :: rest →
    ∃ t, step s = .next t ∧ t.script = rest ∧ AfterDeviceReset c.causes s t ∧
      (c = .powerOn → t.rstcauseReg = ⟨true, false, false, false⟩) ∧
      (c = .external → t.rstcauseReg = { s.rstcauseReg with external := true } ∧ t.magicKey = s.magicKey) ∧
      (c = .brownOut → t.rstcauseReg = { s.rstcauseReg with brownOut := true })

/-- R302, R303, R304, R310: the boot step at DECIDE captures the causes, clears the register and disables the watchdog;
an external reset whose magic key is not the sentinel opens the window where there is one, and every other case
initialises USB. The turn of an unscripted block is the model's own (log 1). -/
def Obligations.BootStepDecides : Prop :=
  ∀ s : State, s.faults = [] → s.script = [] → s.nvmOp = .idle → s.bootPhase = .decide →
    ∃ t, step s = .next t ∧ t.resetCause = s.rstcauseReg ∧ t.rstcauseReg = Causes.none ∧ t.wdtEnabled = false ∧
      (s.rstcauseReg.external = true → s.magicKey ≠ s.par.magicKeyValue → s.par.bootWindow = .present →
        t.bootPhase = .window ∧ t.magicKey = s.par.magicKeyValue ∧ t.timeoutCounter = 0 ∧ t.timerRunning = true ∧
          t.intEn = true ∧ t.fsm = s.fsm ∧ t.usbEnabled = s.usbEnabled) ∧
      ((s.rstcauseReg.external = false ∨ s.magicKey = s.par.magicKeyValue ∨ s.par.bootWindow = .absent) →
        t.bootPhase = .usb ∧ t.fsm = some .idle ∧ t.magicKey = s.magicKey ∧ t.usbConfiguration = 0 ∧
          t.rpt = List.replicate 132 0 ∧ t.ivsel = .boot ∧ t.usbEnabled = true ∧ t.usbAttached = true ∧
          t.ep0Configured = false ∧ t.intEn = true ∧ t.timerRunning = false)

/-- R305, R306, R307, R308: in a well-formed instance an undisturbed window ends after exactly BOOT_TIMEOUT_TICKS ticks:
before that it is still open with the ticks counted; then the magic key is cleared, the timer is stopped, and the block
is in the application if byte 0 of FLASH is not 0xFF, else in USB initialisation with the engine idle. The turn of an
unscripted block is the model's own (log 1). -/
def Obligations.BootWindowEndsAfterItsTicks : Prop :=
  ∀ s : State, s.par.wf = true → s.faults = [] → s.script = [] → s.nvmOp = .idle → s.bootPhase = .window →
    s.fsm = none → s.timerRunning = true → s.intEn = true → s.rwwEnabled = true → s.timeoutCounter = 0 →
    (∀ n, n < s.par.bootTimeoutTicks →
      ∃ t, Host.Core.run Sys2Proof.core n s = .next t ∧ t.bootPhase = .window ∧ t.timeoutCounter.toNat = n ∧
        t.magicKey = s.magicKey) ∧
    ∃ t, Host.Core.run Sys2Proof.core s.par.bootTimeoutTicks s = .next t ∧ t.magicKey = 0 ∧ t.timerRunning = false ∧
      t.timeoutCounter.toNat = s.par.bootTimeoutTicks ∧
      (s.flash.read 0 ≠ 0xFF → t.bootPhase = .app ∧ t.fsm = none ∧ t.usbEnabled = s.usbEnabled) ∧
      (s.flash.read 0 = 0xFF → t.bootPhase = .usb ∧ t.fsm = some .idle ∧ t.usbEnabled = true ∧ t.ivsel = .boot)

/-! ### The whole machine -/

/-- The machine's invariant (Safety.lean: sizes and canonical memory, what holds at each `fsm`, boot and USB) holds at
reset. That the latch and the transfer context hold no value there is log 7. -/
def Obligations.InvariantHoldsAtReset : Prop := State.reset.Inv

/-- Every step keeps the machine's invariant, from every state that has it. That the latch and the transfer context hold
no value outside a request is log 7 and log 8. -/
def Obligations.EveryStepKeepsTheInvariant : Prop :=
  ∀ s t : State, s.Inv → step s = .next t → t.Inv

/-- R21, R40, R139: in a state with the invariant no step is a model error: it answers a next state unless a fault is
recorded, the script asks for an OUT of more than 64 bytes (R136), or the application has control (R307). The two
refusals are the model's own (log 11, log 12). -/
def Obligations.InvariantExcludesModelErrors : Prop :=
  ∀ s : State, s.Inv → s.faults = [] →
    (∃ t, step s = .next t) ∨
      (step s = .refused .noSuchMove ∧
        ∃ addr ep b rest, s.script = .host (.out addr ep b) :: rest ∧ 64 < b.length) ∨
      (step s = .refused .applicationRuns ∧ s.script = [] ∧ s.bootPhase = .app)

/-- Both memories stay in canonical form over every step, from every state. -/
def Obligations.MemoriesStayCanonical : Prop :=
  ∀ s t : State, s.flash.wf = true → s.pbData.wf = true → step s = .next t →
    t.flash.wf = true ∧ t.pbData.wf = true

/-- R8, R62: no step changes the parameters, hence none changes a descriptor or the info report. -/
def Obligations.NoStepChangesTheInstance : Prop :=
  ∀ s t : State, step s = .next t → t.par = s.par

/-- R26: a step that changes the configuration byte is one of these: the bus-reset handler, which makes it 0 (R311); USB
initialisation, at the end of boot (R310); a device reset, physical or after OFF (R300, R301); or the acceptance of a
SET_CONFIGURATION by an enabled idle engine, which stores its low byte (R150). -/
def Obligations.ConfigurationHasOnlyItsWriters : Prop :=
  ∀ s t : State, step s = .next t → t.usbConfiguration ≠ s.usbConfiguration →
    (s.busresetPending = true ∧ s.intEn = true ∧ s.fsm = some .idle ∧ s.bootPhase = .usb ∧
      t.busresetPending = false ∧ t.usbConfiguration = 0) ∨
    ((s.bootPhase = .decide ∨ s.bootPhase = .window) ∧ t.bootPhase = .usb ∧ t.fsm = some .idle ∧
      t.usbConfiguration = 0) ∨
    (((∃ c rest, s.script = .physReset c :: rest) ∨ (s.bootPhase = .usb ∧ s.fsm = some .off)) ∧
      t.bootPhase = .decide ∧ t.fsm = none ∧ t.usbConfiguration = 0) ∨
    (s.setupReady ∧ ∃ val idx len, decodeSetup s.ep0SetupBuf = .setConfiguration val idx len ∧
      t.usbConfiguration.toNat = val.toNat % 256)

/-- R320, R149, R25: a step that enables the address or changes it while it is enabled is the end of SET_ADDRESS, at
ADDR_WAIT with no packet armed, and it stores `new_addr`. -/
def Obligations.AddressTakesEffectOnlyAfterTheAck : Prop :=
  ∀ s t : State, step s = .next t → t.addrEn = true → (s.addrEn = false ∨ t.devAddr ≠ s.devAddr) →
    s.fsm = some .addrWait ∧ s.ep0InArmed = false ∧ s.newAddr = some t.devAddr
end

