-- ==== Sys2Proof/Laws/Encode.lean ====
section
/-! SUPPORT. The small laws of bytes, words, packets and requests. -/

namespace Sys2Proof

@[simp] theorem lo8_le16 (a b : Byte) : lo8 (le16 a b) = a := by
  apply BitVec.eq_of_toNat_eq
  simp only [lo8, le16, BitVec.toNat_ofNat]
  omega

@[simp] theorem hi8_le16 (a b : Byte) : hi8 (le16 a b) = b := by
  apply BitVec.eq_of_toNat_eq
  simp only [hi8, le16, BitVec.toNat_ofNat]
  omega

@[simp] theorem le16_lo8_hi8 (v : Word16) : le16 (lo8 v) (hi8 v) = v := by
  apply BitVec.eq_of_toNat_eq
  simp only [lo8, hi8, le16, BitVec.toNat_ofNat]
  omega

/-- A word is known by its two bytes. -/
theorem le16_eq_iff (a b : Byte) (v : Word16) : le16 a b = v ↔ a = lo8 v ∧ b = hi8 v :=
  ⟨fun h => by subst h; simp, fun ⟨h1, h2⟩ => by simp [h1, h2]⟩

/-- The low byte, as a number. -/
theorem lo8_eq_iff (v : Word16) (c : Byte) : lo8 v = c ↔ v.toNat % 256 = c.toNat := by
  rw [← BitVec.toNat_inj]; simp [lo8]

/-- The high byte, as a number. -/
theorem hi8_eq_iff (v : Word16) (c : Byte) : hi8 v = c ↔ v.toNat / 256 = c.toNat := by
  rw [← BitVec.toNat_inj]; simp only [hi8, BitVec.toNat_ofNat]; omega

/-- The packet of the request of a packet is the packet. -/
@[simp] theorem packetOf_requestOf (p : SetupPacket) : packetOf (requestOf p) = p := by
  simp [packetOf, requestOf]

/-- The request of the packet of a request is the request. -/
@[simp] theorem requestOf_packetOf (r : Request) : requestOf (packetOf r) = r := by
  simp [packetOf, requestOf]

theorem le16_device : le16 0x00 0x01 = 0x0100 := by decide

theorem le16_configuration : le16 0x00 0x02 = 0x0200 := by decide

theorem le16_hidReport : le16 0x00 0x22 = 0x2200 := by decide

end Sys2Proof
end

