-- ==== Sys2Proof/Laws/Memory.lean ====
section
/-! SUPPORT. The laws of memory: reading after a write, an erase and a range write, and that every memory operation keeps
the canonical form and the bound of its space. -/

namespace Sys2Proof.Machine

theorem Memory.risingFrom_none {lo : Option Nat} {m : Memory} (h : Memory.risingFrom lo m = true) :
    Memory.risingFrom none m = true := by
  cases m with
  | nil => simp [Memory.risingFrom]
  | cons c rest =>
    cases lo with
    | none => exact h
    | some l => simp only [Memory.risingFrom, Bool.and_eq_true] at h ⊢; exact h.2

theorem Memory.risingFrom_weaken {lo lo' : Nat} {m : Memory} (hle : lo' ≤ lo)
    (h : Memory.risingFrom (some lo) m = true) : Memory.risingFrom (some lo') m = true := by
  cases m with
  | nil => simp [Memory.risingFrom]
  | cons c rest =>
    simp only [Memory.risingFrom, Bool.and_eq_true, decide_eq_true_eq] at h ⊢
    exact ⟨by omega, h.2⟩

theorem Memory.risingFrom_cons {lo : Option Nat} {c : Host.Cell} {rest : Memory} :
    Memory.risingFrom lo (c :: rest) = true ↔
      (∀ l, lo = some l → l < c.1) ∧ Memory.risingFrom (some c.1) rest = true := by
  cases lo <;> simp [Memory.risingFrom]

/-- Nothing is listed at or below the bound. -/
theorem Memory.read_of_le {lo a : Nat} {m : Memory} (h : Memory.risingFrom (some lo) m = true) (ha : a ≤ lo) :
    Memory.read m a = Memory.erased := by
  induction m generalizing lo with
  | nil => rfl
  | cons c rest ih =>
    rw [Memory.risingFrom_cons] at h
    have hlt := h.1 lo rfl
    rw [Memory.read, if_neg (by omega)]
    exact ih h.2 (by omega)

@[simp] theorem Memory.read_cell (a x : Nat) (b : Byte) :
    Memory.read (Memory.cell a b) x = if a = x then b else Memory.erased := by
  unfold Memory.cell
  split <;> simp_all [Memory.read]

/-- Reading a cell in front of a memory whose addresses lie above it. -/
theorem Memory.read_cell_append {a x : Nat} {b : Byte} {m : Memory}
    (h : Memory.risingFrom (some a) m = true) :
    Memory.read (Memory.cell a b ++ m) x = if a = x then b else Memory.read m x := by
  unfold Memory.cell
  split
  · next hb =>
    split
    · next hx => subst hx; simp [Memory.read_of_le h (Nat.le_refl _), hb]
    · rfl
  · simp [Memory.read]

theorem Memory.risingFrom_cell_append {lo : Option Nat} {a : Nat} {b : Byte} {m : Memory}
    (hlo : ∀ l, lo = some l → l < a) (h : Memory.risingFrom (some a) m = true) :
    Memory.risingFrom lo (Memory.cell a b ++ m) = true := by
  unfold Memory.cell
  split
  · cases lo with
    | none => exact Memory.risingFrom_none h
    | some l => exact Memory.risingFrom_weaken (Nat.le_of_lt (hlo l rfl)) h
  · exact Memory.risingFrom_cons.2 ⟨hlo, h⟩

theorem Memory.risingFrom_write {lo : Option Nat} {a : Nat} {b : Byte} {m : Memory}
    (hlo : ∀ l, lo = some l → l < a) (h : Memory.risingFrom lo m = true) :
    Memory.risingFrom lo (Memory.write m a b) = true := by
  induction m generalizing lo with
  | nil =>
    rw [Memory.write, ← List.append_nil (Memory.cell a b)]
    exact Memory.risingFrom_cell_append hlo (by simp [Memory.risingFrom])
  | cons c rest ih =>
    rw [Memory.risingFrom_cons] at h
    rw [Memory.write]
    split
    · next hlt =>
      exact Memory.risingFrom_cons.2 ⟨h.1, ih (by rintro l ⟨⟩; exact hlt) h.2⟩
    · split
      · next heq => exact Memory.risingFrom_cell_append hlo (heq ▸ h.2)
      · exact Memory.risingFrom_cell_append hlo
          (Memory.risingFrom_cons.2 ⟨by rintro l ⟨⟩; omega, h.2⟩)

/-- Reading after a write: the byte written at its address, the old byte anywhere else. -/
theorem Memory.read_write_rising {lo : Option Nat} {m : Memory} (h : Memory.risingFrom lo m = true)
    (a x : Nat) (b : Byte) :
    Memory.read (Memory.write m a b) x = if a = x then b else Memory.read m x := by
  induction m generalizing lo with
  | nil => simp [Memory.write, Memory.read]
  | cons c rest ih =>
    rw [Memory.risingFrom_cons] at h
    rw [Memory.write]
    split
    · rw [Memory.read, ih h.2, Memory.read]
      split
      · rw [if_neg (by omega)]
      · rfl
    · split
      · next heq =>
        rw [Memory.read_cell_append (heq ▸ h.2), Memory.read]
        split
        · rfl
        · rw [if_neg (by omega)]
      · rw [Memory.read_cell_append (Memory.risingFrom_cons.2 ⟨by rintro l ⟨⟩; omega, h.2⟩)]

theorem Memory.all_cell {a : Nat} {b : Byte} {q : Host.Cell → Bool} (hq : b ≠ Memory.erased → q (a, b) = true) :
    (Memory.cell a b).all q = true := by
  unfold Memory.cell
  split
  · rfl
  · next hb => simp [hq hb]

theorem Memory.all_write {m : Memory} {a : Nat} {b : Byte} {q : Host.Cell → Bool}
    (hm : m.all q = true) (hq : b ≠ Memory.erased → q (a, b) = true) : (Memory.write m a b).all q = true := by
  induction m with
  | nil => exact Memory.all_cell hq
  | cons c rest ih =>
    simp only [List.all_cons, Bool.and_eq_true] at hm
    rw [Memory.write]
    split
    · simp only [List.all_cons, Bool.and_eq_true]; exact ⟨hm.1, ih hm.2⟩
    · split
      · rw [List.all_append, Memory.all_cell hq, hm.2]; rfl
      · rw [List.all_append, Memory.all_cell hq, List.all_cons, hm.1, hm.2]; rfl

theorem Memory.wf_nil : Memory.wf [] = true := rfl

theorem Memory.below_nil (n : Nat) : Memory.below n [] = true := rfl

@[simp] theorem Memory.read_nil (a : Nat) : Memory.read [] a = Memory.erased := rfl

theorem Memory.wf_write {m : Memory} (h : m.wf = true) (a : Nat) (b : Byte) : (m.write a b).wf = true := by
  simp only [Memory.wf, Bool.and_eq_true] at h ⊢
  exact ⟨Memory.risingFrom_write (by simp) h.1, Memory.all_write h.2 (by simp)⟩

theorem Memory.below_write {m : Memory} {n a : Nat} (h : m.below n = true) (ha : a < n) (b : Byte) :
    (m.write a b).below n = true :=
  Memory.all_write h (by simp [ha])

theorem Memory.read_write {m : Memory} (h : m.wf = true) (a x : Nat) (b : Byte) :
    (m.write a b).read x = if a = x then b else m.read x := by
  simp only [Memory.wf, Bool.and_eq_true] at h
  exact Memory.read_write_rising h.1 a x b

theorem Memory.risingFrom_filter {lo : Option Nat} {m : Memory} (q : Host.Cell → Bool)
    (h : Memory.risingFrom lo m = true) : Memory.risingFrom lo (m.filter q) = true := by
  induction m generalizing lo with
  | nil => simpa using h
  | cons c rest ih =>
    have h' := Memory.risingFrom_cons.1 h
    rw [List.filter_cons]
    split
    · exact Memory.risingFrom_cons.2 ⟨h'.1, ih h'.2⟩
    · refine ih ?_
      cases lo with
      | none => exact Memory.risingFrom_none h'.2
      | some l => exact Memory.risingFrom_weaken (Nat.le_of_lt (h'.1 l rfl)) h'.2

theorem Memory.all_filter {m : Memory} {q r : Host.Cell → Bool} (h : m.all q = true) : (m.filter r).all q = true := by
  simp only [List.all_eq_true, List.mem_filter] at h ⊢
  exact fun c hc => h c hc.1

theorem Memory.wf_eraseRange {m : Memory} (h : m.wf = true) (lo n : Nat) : (m.eraseRange lo n).wf = true := by
  simp only [Memory.wf, Bool.and_eq_true, Memory.eraseRange] at h ⊢
  exact ⟨Memory.risingFrom_filter _ h.1, Memory.all_filter h.2⟩

theorem Memory.below_eraseRange {m : Memory} {k : Nat} (h : m.below k = true) (lo n : Nat) :
    (m.eraseRange lo n).below k = true := Memory.all_filter h

/-- An erased range reads as erased; every other address is kept. -/
theorem Memory.read_eraseRange (m : Memory) (lo n x : Nat) :
    (m.eraseRange lo n).read x = if lo ≤ x ∧ x < lo + n then Memory.erased else m.read x := by
  induction m with
  | nil => simp [Memory.eraseRange, Memory.read]
  | cons c rest ih =>
    simp only [Memory.eraseRange] at ih ⊢
    rw [List.filter_cons]
    split
    · next hc =>
      rw [Memory.read, Memory.read, ih]
      by_cases hx : c.1 = x
      · simp only [Bool.not_eq_true', Bool.and_eq_false_iff, decide_eq_false_iff_not] at hc
        rw [if_pos hx, if_pos hx, if_neg (by omega)]
      · rw [if_neg hx, if_neg hx]
    · next hc =>
      rw [ih, Memory.read]
      simp only [Bool.not_eq_true', Bool.not_eq_false, Bool.and_eq_true, decide_eq_true_eq] at hc
      by_cases hx : c.1 = x
      · rw [if_pos (by omega), if_pos (by omega)]
      · rw [if_neg hx]

theorem Memory.writeRange_succ (m : Memory) (lo n : Nat) (f : Nat → Byte) :
    m.writeRange lo (n + 1) f = (m.writeRange lo n f).write (lo + n) (f n) := by
  simp [Memory.writeRange, List.range_succ, List.foldl_append]

theorem Memory.wf_writeRange {m : Memory} (h : m.wf = true) (lo n : Nat) (f : Nat → Byte) :
    (m.writeRange lo n f).wf = true := by
  induction n with
  | zero => exact h
  | succ n ih => rw [Memory.writeRange_succ]; exact Memory.wf_write ih _ _

theorem Memory.below_writeRange {m : Memory} {k lo n : Nat} (h : m.below k = true) (hk : lo + n ≤ k) (f : Nat → Byte) :
    (m.writeRange lo n f).below k = true := by
  induction n with
  | zero => exact h
  | succ n ih => rw [Memory.writeRange_succ]; exact Memory.below_write (ih (by omega)) (by omega) _

/-- A written range reads as what was written; every other address is kept. -/
theorem Memory.read_writeRange {m : Memory} (h : m.wf = true) (lo n x : Nat) (f : Nat → Byte) :
    (m.writeRange lo n f).read x = if lo ≤ x ∧ x < lo + n then f (x - lo) else m.read x := by
  induction n with
  | zero => rw [if_neg (by omega)]; rfl
  | succ n ih =>
    rw [Memory.writeRange_succ, Memory.read_write (Memory.wf_writeRange h lo n f), ih]
    by_cases hx : lo + n = x
    · rw [if_pos hx, if_pos (by omega), ← hx, Nat.add_sub_cancel_left]
    · rw [if_neg hx]
      by_cases hr : lo ≤ x ∧ x < lo + n
      · rw [if_pos hr, if_pos (by omega)]
      · rw [if_neg hr, if_neg (by omega)]

/-- An address at or above the bound of a space is not listed. -/
theorem Memory.read_of_below {m : Memory} {n a : Nat} (h : m.below n = true) (ha : n ≤ a) :
    m.read a = Memory.erased := by
  induction m with
  | nil => rfl
  | cons c rest ih =>
    simp only [Memory.below, List.all_cons, Bool.and_eq_true, decide_eq_true_eq] at h
    rw [Memory.read, if_neg (by omega)]
    exact ih h.2

end Sys2Proof.Machine
end

