-- ==== Sys2Proof/Laws/State.lean ====
section
/-! SUPPORT. One lemma per field per shared operation: what it writes, and that it leaves every other field alone. All hold by
`rfl` and are simp lemmas, so that no later proof unfolds a record update. -/

namespace Sys2Proof.Machine

@[simp] theorem raise_par (c : FaultCause) (s : State) : (raise c s).par = s.par := rfl
@[simp] theorem raise_latch (c : FaultCause) (s : State) : (raise c s).latch = s.latch := rfl
@[simp] theorem raise_fsm (c : FaultCause) (s : State) : (raise c s).fsm = s.fsm := rfl
@[simp] theorem raise_tx (c : FaultCause) (s : State) : (raise c s).tx = s.tx := rfl
@[simp] theorem raise_newAddr (c : FaultCause) (s : State) : (raise c s).newAddr = s.newAddr := rfl
@[simp] theorem raise_rxCnt (c : FaultCause) (s : State) : (raise c s).rxCnt = s.rxCnt := rfl
@[simp] theorem raise_fl (c : FaultCause) (s : State) : (raise c s).fl = s.fl := rfl
@[simp] theorem raise_ep0SetupFull (c : FaultCause) (s : State) : (raise c s).ep0SetupFull = s.ep0SetupFull := rfl
@[simp] theorem raise_ep0SetupBuf (c : FaultCause) (s : State) : (raise c s).ep0SetupBuf = s.ep0SetupBuf := rfl
@[simp] theorem raise_ep0OutFull (c : FaultCause) (s : State) : (raise c s).ep0OutFull = s.ep0OutFull := rfl
@[simp] theorem raise_ep0OutBuf (c : FaultCause) (s : State) : (raise c s).ep0OutBuf = s.ep0OutBuf := rfl
@[simp] theorem raise_ep0InArmed (c : FaultCause) (s : State) : (raise c s).ep0InArmed = s.ep0InArmed := rfl
@[simp] theorem raise_ep0InBuf (c : FaultCause) (s : State) : (raise c s).ep0InBuf = s.ep0InBuf := rfl
@[simp] theorem raise_ep0Stall (c : FaultCause) (s : State) : (raise c s).ep0Stall = s.ep0Stall := rfl
@[simp] theorem raise_ep0Configured (c : FaultCause) (s : State) : (raise c s).ep0Configured = s.ep0Configured := rfl
@[simp] theorem raise_devAddr (c : FaultCause) (s : State) : (raise c s).devAddr = s.devAddr := rfl
@[simp] theorem raise_addrEn (c : FaultCause) (s : State) : (raise c s).addrEn = s.addrEn := rfl
@[simp] theorem raise_usbConfiguration (c : FaultCause) (s : State) : (raise c s).usbConfiguration = s.usbConfiguration := rfl
@[simp] theorem raise_ep1Enabled (c : FaultCause) (s : State) : (raise c s).ep1Enabled = s.ep1Enabled := rfl
@[simp] theorem raise_usbEnabled (c : FaultCause) (s : State) : (raise c s).usbEnabled = s.usbEnabled := rfl
@[simp] theorem raise_usbAttached (c : FaultCause) (s : State) : (raise c s).usbAttached = s.usbAttached := rfl
@[simp] theorem raise_busresetPending (c : FaultCause) (s : State) : (raise c s).busresetPending = s.busresetPending := rfl
@[simp] theorem raise_rpt (c : FaultCause) (s : State) : (raise c s).rpt = s.rpt := rfl
@[simp] theorem raise_flash (c : FaultCause) (s : State) : (raise c s).flash = s.flash := rfl
@[simp] theorem raise_pbData (c : FaultCause) (s : State) : (raise c s).pbData = s.pbData := rfl
@[simp] theorem raise_pbTag (c : FaultCause) (s : State) : (raise c s).pbTag = s.pbTag := rfl
@[simp] theorem raise_nvmOp (c : FaultCause) (s : State) : (raise c s).nvmOp = s.nvmOp := rfl
@[simp] theorem raise_rwwEnabled (c : FaultCause) (s : State) : (raise c s).rwwEnabled = s.rwwEnabled := rfl
@[simp] theorem raise_sessLast (c : FaultCause) (s : State) : (raise c s).sessLast = s.sessLast := rfl
@[simp] theorem raise_ivsel (c : FaultCause) (s : State) : (raise c s).ivsel = s.ivsel := rfl
@[simp] theorem raise_led (c : FaultCause) (s : State) : (raise c s).led = s.led := rfl
@[simp] theorem raise_rstcauseReg (c : FaultCause) (s : State) : (raise c s).rstcauseReg = s.rstcauseReg := rfl
@[simp] theorem raise_resetCause (c : FaultCause) (s : State) : (raise c s).resetCause = s.resetCause := rfl
@[simp] theorem raise_magicKey (c : FaultCause) (s : State) : (raise c s).magicKey = s.magicKey := rfl
@[simp] theorem raise_timeoutCounter (c : FaultCause) (s : State) : (raise c s).timeoutCounter = s.timeoutCounter := rfl
@[simp] theorem raise_timerRunning (c : FaultCause) (s : State) : (raise c s).timerRunning = s.timerRunning := rfl
@[simp] theorem raise_wdtEnabled (c : FaultCause) (s : State) : (raise c s).wdtEnabled = s.wdtEnabled := rfl
@[simp] theorem raise_bootPhase (c : FaultCause) (s : State) : (raise c s).bootPhase = s.bootPhase := rfl
@[simp] theorem raise_intEn (c : FaultCause) (s : State) : (raise c s).intEn = s.intEn := rfl
@[simp] theorem raise_faults (c : FaultCause) (s : State) : (raise c s).faults = s.faults ++ [⟨c, s.fsm⟩] := rfl
@[simp] theorem raise_script (c : FaultCause) (s : State) : (raise c s).script = s.script := rfl
@[simp] theorem raise_trace (c : FaultCause) (s : State) : (raise c s).trace = s.trace := rfl
@[simp] theorem raise_offs (c : FaultCause) (s : State) : (raise c s).offs = s.offs := rfl
@[simp] theorem raise_draws (c : FaultCause) (s : State) : (raise c s).draws = s.draws := rfl

@[simp] theorem goto_par (f : Fsm) (s : State) : (goto f s).par = s.par := rfl
@[simp] theorem goto_latch (f : Fsm) (s : State) : (goto f s).latch = s.latch := rfl
@[simp] theorem goto_fsm (f : Fsm) (s : State) : (goto f s).fsm = some f := rfl
@[simp] theorem goto_tx (f : Fsm) (s : State) : (goto f s).tx = s.tx := rfl
@[simp] theorem goto_newAddr (f : Fsm) (s : State) : (goto f s).newAddr = s.newAddr := rfl
@[simp] theorem goto_rxCnt (f : Fsm) (s : State) : (goto f s).rxCnt = s.rxCnt := rfl
@[simp] theorem goto_fl (f : Fsm) (s : State) : (goto f s).fl = s.fl := rfl
@[simp] theorem goto_ep0SetupFull (f : Fsm) (s : State) : (goto f s).ep0SetupFull = s.ep0SetupFull := rfl
@[simp] theorem goto_ep0SetupBuf (f : Fsm) (s : State) : (goto f s).ep0SetupBuf = s.ep0SetupBuf := rfl
@[simp] theorem goto_ep0OutFull (f : Fsm) (s : State) : (goto f s).ep0OutFull = s.ep0OutFull := rfl
@[simp] theorem goto_ep0OutBuf (f : Fsm) (s : State) : (goto f s).ep0OutBuf = s.ep0OutBuf := rfl
@[simp] theorem goto_ep0InArmed (f : Fsm) (s : State) : (goto f s).ep0InArmed = s.ep0InArmed := rfl
@[simp] theorem goto_ep0InBuf (f : Fsm) (s : State) : (goto f s).ep0InBuf = s.ep0InBuf := rfl
@[simp] theorem goto_ep0Stall (f : Fsm) (s : State) : (goto f s).ep0Stall = s.ep0Stall := rfl
@[simp] theorem goto_ep0Configured (f : Fsm) (s : State) : (goto f s).ep0Configured = s.ep0Configured := rfl
@[simp] theorem goto_devAddr (f : Fsm) (s : State) : (goto f s).devAddr = s.devAddr := rfl
@[simp] theorem goto_addrEn (f : Fsm) (s : State) : (goto f s).addrEn = s.addrEn := rfl
@[simp] theorem goto_usbConfiguration (f : Fsm) (s : State) : (goto f s).usbConfiguration = s.usbConfiguration := rfl
@[simp] theorem goto_ep1Enabled (f : Fsm) (s : State) : (goto f s).ep1Enabled = s.ep1Enabled := rfl
@[simp] theorem goto_usbEnabled (f : Fsm) (s : State) : (goto f s).usbEnabled = s.usbEnabled := rfl
@[simp] theorem goto_usbAttached (f : Fsm) (s : State) : (goto f s).usbAttached = s.usbAttached := rfl
@[simp] theorem goto_busresetPending (f : Fsm) (s : State) : (goto f s).busresetPending = s.busresetPending := rfl
@[simp] theorem goto_rpt (f : Fsm) (s : State) : (goto f s).rpt = s.rpt := rfl
@[simp] theorem goto_flash (f : Fsm) (s : State) : (goto f s).flash = s.flash := rfl
@[simp] theorem goto_pbData (f : Fsm) (s : State) : (goto f s).pbData = s.pbData := rfl
@[simp] theorem goto_pbTag (f : Fsm) (s : State) : (goto f s).pbTag = s.pbTag := rfl
@[simp] theorem goto_nvmOp (f : Fsm) (s : State) : (goto f s).nvmOp = s.nvmOp := rfl
@[simp] theorem goto_rwwEnabled (f : Fsm) (s : State) : (goto f s).rwwEnabled = s.rwwEnabled := rfl
@[simp] theorem goto_sessLast (f : Fsm) (s : State) : (goto f s).sessLast = s.sessLast := rfl
@[simp] theorem goto_ivsel (f : Fsm) (s : State) : (goto f s).ivsel = s.ivsel := rfl
@[simp] theorem goto_led (f : Fsm) (s : State) : (goto f s).led = s.led := rfl
@[simp] theorem goto_rstcauseReg (f : Fsm) (s : State) : (goto f s).rstcauseReg = s.rstcauseReg := rfl
@[simp] theorem goto_resetCause (f : Fsm) (s : State) : (goto f s).resetCause = s.resetCause := rfl
@[simp] theorem goto_magicKey (f : Fsm) (s : State) : (goto f s).magicKey = s.magicKey := rfl
@[simp] theorem goto_timeoutCounter (f : Fsm) (s : State) : (goto f s).timeoutCounter = s.timeoutCounter := rfl
@[simp] theorem goto_timerRunning (f : Fsm) (s : State) : (goto f s).timerRunning = s.timerRunning := rfl
@[simp] theorem goto_wdtEnabled (f : Fsm) (s : State) : (goto f s).wdtEnabled = s.wdtEnabled := rfl
@[simp] theorem goto_bootPhase (f : Fsm) (s : State) : (goto f s).bootPhase = s.bootPhase := rfl
@[simp] theorem goto_intEn (f : Fsm) (s : State) : (goto f s).intEn = s.intEn := rfl
@[simp] theorem goto_faults (f : Fsm) (s : State) : (goto f s).faults = s.faults := rfl
@[simp] theorem goto_script (f : Fsm) (s : State) : (goto f s).script = s.script := rfl
@[simp] theorem goto_trace (f : Fsm) (s : State) : (goto f s).trace = s.trace := rfl
@[simp] theorem goto_offs (f : Fsm) (s : State) : (goto f s).offs = s.offs := rfl
@[simp] theorem goto_draws (f : Fsm) (s : State) : (goto f s).draws = s.draws := rfl

@[simp] theorem endRequest_par (s : State) : (endRequest s).par = s.par := rfl
@[simp] theorem endRequest_latch (s : State) : (endRequest s).latch = none := rfl
@[simp] theorem endRequest_fsm (s : State) : (endRequest s).fsm = s.fsm := rfl
@[simp] theorem endRequest_tx (s : State) : (endRequest s).tx = none := rfl
@[simp] theorem endRequest_newAddr (s : State) : (endRequest s).newAddr = none := rfl
@[simp] theorem endRequest_rxCnt (s : State) : (endRequest s).rxCnt = none := rfl
@[simp] theorem endRequest_fl (s : State) : (endRequest s).fl = none := rfl
@[simp] theorem endRequest_ep0SetupFull (s : State) : (endRequest s).ep0SetupFull = s.ep0SetupFull := rfl
@[simp] theorem endRequest_ep0SetupBuf (s : State) : (endRequest s).ep0SetupBuf = s.ep0SetupBuf := rfl
@[simp] theorem endRequest_ep0OutFull (s : State) : (endRequest s).ep0OutFull = s.ep0OutFull := rfl
@[simp] theorem endRequest_ep0OutBuf (s : State) : (endRequest s).ep0OutBuf = s.ep0OutBuf := rfl
@[simp] theorem endRequest_ep0InArmed (s : State) : (endRequest s).ep0InArmed = s.ep0InArmed := rfl
@[simp] theorem endRequest_ep0InBuf (s : State) : (endRequest s).ep0InBuf = s.ep0InBuf := rfl
@[simp] theorem endRequest_ep0Stall (s : State) : (endRequest s).ep0Stall = s.ep0Stall := rfl
@[simp] theorem endRequest_ep0Configured (s : State) : (endRequest s).ep0Configured = s.ep0Configured := rfl
@[simp] theorem endRequest_devAddr (s : State) : (endRequest s).devAddr = s.devAddr := rfl
@[simp] theorem endRequest_addrEn (s : State) : (endRequest s).addrEn = s.addrEn := rfl
@[simp] theorem endRequest_usbConfiguration (s : State) : (endRequest s).usbConfiguration = s.usbConfiguration := rfl
@[simp] theorem endRequest_ep1Enabled (s : State) : (endRequest s).ep1Enabled = s.ep1Enabled := rfl
@[simp] theorem endRequest_usbEnabled (s : State) : (endRequest s).usbEnabled = s.usbEnabled := rfl
@[simp] theorem endRequest_usbAttached (s : State) : (endRequest s).usbAttached = s.usbAttached := rfl
@[simp] theorem endRequest_busresetPending (s : State) : (endRequest s).busresetPending = s.busresetPending := rfl
@[simp] theorem endRequest_rpt (s : State) : (endRequest s).rpt = s.rpt := rfl
@[simp] theorem endRequest_flash (s : State) : (endRequest s).flash = s.flash := rfl
@[simp] theorem endRequest_pbData (s : State) : (endRequest s).pbData = s.pbData := rfl
@[simp] theorem endRequest_pbTag (s : State) : (endRequest s).pbTag = s.pbTag := rfl
@[simp] theorem endRequest_nvmOp (s : State) : (endRequest s).nvmOp = s.nvmOp := rfl
@[simp] theorem endRequest_rwwEnabled (s : State) : (endRequest s).rwwEnabled = s.rwwEnabled := rfl
@[simp] theorem endRequest_sessLast (s : State) : (endRequest s).sessLast = s.sessLast := rfl
@[simp] theorem endRequest_ivsel (s : State) : (endRequest s).ivsel = s.ivsel := rfl
@[simp] theorem endRequest_led (s : State) : (endRequest s).led = s.led := rfl
@[simp] theorem endRequest_rstcauseReg (s : State) : (endRequest s).rstcauseReg = s.rstcauseReg := rfl
@[simp] theorem endRequest_resetCause (s : State) : (endRequest s).resetCause = s.resetCause := rfl
@[simp] theorem endRequest_magicKey (s : State) : (endRequest s).magicKey = s.magicKey := rfl
@[simp] theorem endRequest_timeoutCounter (s : State) : (endRequest s).timeoutCounter = s.timeoutCounter := rfl
@[simp] theorem endRequest_timerRunning (s : State) : (endRequest s).timerRunning = s.timerRunning := rfl
@[simp] theorem endRequest_wdtEnabled (s : State) : (endRequest s).wdtEnabled = s.wdtEnabled := rfl
@[simp] theorem endRequest_bootPhase (s : State) : (endRequest s).bootPhase = s.bootPhase := rfl
@[simp] theorem endRequest_intEn (s : State) : (endRequest s).intEn = s.intEn := rfl
@[simp] theorem endRequest_faults (s : State) : (endRequest s).faults = s.faults := rfl
@[simp] theorem endRequest_script (s : State) : (endRequest s).script = s.script := rfl
@[simp] theorem endRequest_trace (s : State) : (endRequest s).trace = s.trace := rfl
@[simp] theorem endRequest_offs (s : State) : (endRequest s).offs = s.offs := rfl
@[simp] theorem endRequest_draws (s : State) : (endRequest s).draws = s.draws := rfl

@[simp] theorem toIdle_par (s : State) : (toIdle s).par = s.par := rfl
@[simp] theorem toIdle_latch (s : State) : (toIdle s).latch = none := rfl
@[simp] theorem toIdle_fsm (s : State) : (toIdle s).fsm = some .idle := rfl
@[simp] theorem toIdle_tx (s : State) : (toIdle s).tx = none := rfl
@[simp] theorem toIdle_newAddr (s : State) : (toIdle s).newAddr = none := rfl
@[simp] theorem toIdle_rxCnt (s : State) : (toIdle s).rxCnt = none := rfl
@[simp] theorem toIdle_fl (s : State) : (toIdle s).fl = none := rfl
@[simp] theorem toIdle_ep0SetupFull (s : State) : (toIdle s).ep0SetupFull = s.ep0SetupFull := rfl
@[simp] theorem toIdle_ep0SetupBuf (s : State) : (toIdle s).ep0SetupBuf = s.ep0SetupBuf := rfl
@[simp] theorem toIdle_ep0OutFull (s : State) : (toIdle s).ep0OutFull = s.ep0OutFull := rfl
@[simp] theorem toIdle_ep0OutBuf (s : State) : (toIdle s).ep0OutBuf = s.ep0OutBuf := rfl
@[simp] theorem toIdle_ep0InArmed (s : State) : (toIdle s).ep0InArmed = s.ep0InArmed := rfl
@[simp] theorem toIdle_ep0InBuf (s : State) : (toIdle s).ep0InBuf = s.ep0InBuf := rfl
@[simp] theorem toIdle_ep0Stall (s : State) : (toIdle s).ep0Stall = s.ep0Stall := rfl
@[simp] theorem toIdle_ep0Configured (s : State) : (toIdle s).ep0Configured = s.ep0Configured := rfl
@[simp] theorem toIdle_devAddr (s : State) : (toIdle s).devAddr = s.devAddr := rfl
@[simp] theorem toIdle_addrEn (s : State) : (toIdle s).addrEn = s.addrEn := rfl
@[simp] theorem toIdle_usbConfiguration (s : State) : (toIdle s).usbConfiguration = s.usbConfiguration := rfl
@[simp] theorem toIdle_ep1Enabled (s : State) : (toIdle s).ep1Enabled = s.ep1Enabled := rfl
@[simp] theorem toIdle_usbEnabled (s : State) : (toIdle s).usbEnabled = s.usbEnabled := rfl
@[simp] theorem toIdle_usbAttached (s : State) : (toIdle s).usbAttached = s.usbAttached := rfl
@[simp] theorem toIdle_busresetPending (s : State) : (toIdle s).busresetPending = s.busresetPending := rfl
@[simp] theorem toIdle_rpt (s : State) : (toIdle s).rpt = s.rpt := rfl
@[simp] theorem toIdle_flash (s : State) : (toIdle s).flash = s.flash := rfl
@[simp] theorem toIdle_pbData (s : State) : (toIdle s).pbData = s.pbData := rfl
@[simp] theorem toIdle_pbTag (s : State) : (toIdle s).pbTag = s.pbTag := rfl
@[simp] theorem toIdle_nvmOp (s : State) : (toIdle s).nvmOp = s.nvmOp := rfl
@[simp] theorem toIdle_rwwEnabled (s : State) : (toIdle s).rwwEnabled = s.rwwEnabled := rfl
@[simp] theorem toIdle_sessLast (s : State) : (toIdle s).sessLast = s.sessLast := rfl
@[simp] theorem toIdle_ivsel (s : State) : (toIdle s).ivsel = s.ivsel := rfl
@[simp] theorem toIdle_led (s : State) : (toIdle s).led = s.led := rfl
@[simp] theorem toIdle_rstcauseReg (s : State) : (toIdle s).rstcauseReg = s.rstcauseReg := rfl
@[simp] theorem toIdle_resetCause (s : State) : (toIdle s).resetCause = s.resetCause := rfl
@[simp] theorem toIdle_magicKey (s : State) : (toIdle s).magicKey = s.magicKey := rfl
@[simp] theorem toIdle_timeoutCounter (s : State) : (toIdle s).timeoutCounter = s.timeoutCounter := rfl
@[simp] theorem toIdle_timerRunning (s : State) : (toIdle s).timerRunning = s.timerRunning := rfl
@[simp] theorem toIdle_wdtEnabled (s : State) : (toIdle s).wdtEnabled = s.wdtEnabled := rfl
@[simp] theorem toIdle_bootPhase (s : State) : (toIdle s).bootPhase = s.bootPhase := rfl
@[simp] theorem toIdle_intEn (s : State) : (toIdle s).intEn = s.intEn := rfl
@[simp] theorem toIdle_faults (s : State) : (toIdle s).faults = s.faults := rfl
@[simp] theorem toIdle_script (s : State) : (toIdle s).script = s.script := rfl
@[simp] theorem toIdle_trace (s : State) : (toIdle s).trace = s.trace := rfl
@[simp] theorem toIdle_offs (s : State) : (toIdle s).offs = s.offs := rfl
@[simp] theorem toIdle_draws (s : State) : (toIdle s).draws = s.draws := rfl

@[simp] theorem acceptSetup_par (s : State) : (acceptSetup s).par = s.par := rfl
@[simp] theorem acceptSetup_latch (s : State) : (acceptSetup s).latch = some (requestOf s.ep0SetupBuf) := rfl
@[simp] theorem acceptSetup_fsm (s : State) : (acceptSetup s).fsm = s.fsm := rfl
@[simp] theorem acceptSetup_tx (s : State) : (acceptSetup s).tx = none := rfl
@[simp] theorem acceptSetup_newAddr (s : State) : (acceptSetup s).newAddr = none := rfl
@[simp] theorem acceptSetup_rxCnt (s : State) : (acceptSetup s).rxCnt = none := rfl
@[simp] theorem acceptSetup_fl (s : State) : (acceptSetup s).fl = none := rfl
@[simp] theorem acceptSetup_ep0SetupFull (s : State) : (acceptSetup s).ep0SetupFull = false := rfl
@[simp] theorem acceptSetup_ep0SetupBuf (s : State) : (acceptSetup s).ep0SetupBuf = s.ep0SetupBuf := rfl
@[simp] theorem acceptSetup_ep0OutFull (s : State) : (acceptSetup s).ep0OutFull = false := rfl
@[simp] theorem acceptSetup_ep0OutBuf (s : State) : (acceptSetup s).ep0OutBuf = [] := rfl
@[simp] theorem acceptSetup_ep0InArmed (s : State) : (acceptSetup s).ep0InArmed = false := rfl
@[simp] theorem acceptSetup_ep0InBuf (s : State) : (acceptSetup s).ep0InBuf = [] := rfl
@[simp] theorem acceptSetup_ep0Stall (s : State) : (acceptSetup s).ep0Stall = s.ep0Stall := rfl
@[simp] theorem acceptSetup_ep0Configured (s : State) : (acceptSetup s).ep0Configured = s.ep0Configured := rfl
@[simp] theorem acceptSetup_devAddr (s : State) : (acceptSetup s).devAddr = s.devAddr := rfl
@[simp] theorem acceptSetup_addrEn (s : State) : (acceptSetup s).addrEn = s.addrEn := rfl
@[simp] theorem acceptSetup_usbConfiguration (s : State) : (acceptSetup s).usbConfiguration = s.usbConfiguration := rfl
@[simp] theorem acceptSetup_ep1Enabled (s : State) : (acceptSetup s).ep1Enabled = s.ep1Enabled := rfl
@[simp] theorem acceptSetup_usbEnabled (s : State) : (acceptSetup s).usbEnabled = s.usbEnabled := rfl
@[simp] theorem acceptSetup_usbAttached (s : State) : (acceptSetup s).usbAttached = s.usbAttached := rfl
@[simp] theorem acceptSetup_busresetPending (s : State) : (acceptSetup s).busresetPending = s.busresetPending := rfl
@[simp] theorem acceptSetup_rpt (s : State) : (acceptSetup s).rpt = s.rpt := rfl
@[simp] theorem acceptSetup_flash (s : State) : (acceptSetup s).flash = s.flash := rfl
@[simp] theorem acceptSetup_pbData (s : State) : (acceptSetup s).pbData = s.pbData := rfl
@[simp] theorem acceptSetup_pbTag (s : State) : (acceptSetup s).pbTag = s.pbTag := rfl
@[simp] theorem acceptSetup_nvmOp (s : State) : (acceptSetup s).nvmOp = s.nvmOp := rfl
@[simp] theorem acceptSetup_rwwEnabled (s : State) : (acceptSetup s).rwwEnabled = s.rwwEnabled := rfl
@[simp] theorem acceptSetup_sessLast (s : State) : (acceptSetup s).sessLast = s.sessLast := rfl
@[simp] theorem acceptSetup_ivsel (s : State) : (acceptSetup s).ivsel = s.ivsel := rfl
@[simp] theorem acceptSetup_led (s : State) : (acceptSetup s).led = s.led := rfl
@[simp] theorem acceptSetup_rstcauseReg (s : State) : (acceptSetup s).rstcauseReg = s.rstcauseReg := rfl
@[simp] theorem acceptSetup_resetCause (s : State) : (acceptSetup s).resetCause = s.resetCause := rfl
@[simp] theorem acceptSetup_magicKey (s : State) : (acceptSetup s).magicKey = s.magicKey := rfl
@[simp] theorem acceptSetup_timeoutCounter (s : State) : (acceptSetup s).timeoutCounter = s.timeoutCounter := rfl
@[simp] theorem acceptSetup_timerRunning (s : State) : (acceptSetup s).timerRunning = s.timerRunning := rfl
@[simp] theorem acceptSetup_wdtEnabled (s : State) : (acceptSetup s).wdtEnabled = s.wdtEnabled := rfl
@[simp] theorem acceptSetup_bootPhase (s : State) : (acceptSetup s).bootPhase = s.bootPhase := rfl
@[simp] theorem acceptSetup_intEn (s : State) : (acceptSetup s).intEn = s.intEn := rfl
@[simp] theorem acceptSetup_faults (s : State) : (acceptSetup s).faults = s.faults := rfl
@[simp] theorem acceptSetup_script (s : State) : (acceptSetup s).script = s.script := rfl
@[simp] theorem acceptSetup_trace (s : State) : (acceptSetup s).trace = s.trace := rfl
@[simp] theorem acceptSetup_offs (s : State) : (acceptSetup s).offs = s.offs := rfl
@[simp] theorem acceptSetup_draws (s : State) : (acceptSetup s).draws = s.draws := rfl

@[simp] theorem answer_par (t : Token) (r : Response) (s : State) : (answer t r s).par = s.par := rfl
@[simp] theorem answer_latch (t : Token) (r : Response) (s : State) : (answer t r s).latch = s.latch := rfl
@[simp] theorem answer_fsm (t : Token) (r : Response) (s : State) : (answer t r s).fsm = s.fsm := rfl
@[simp] theorem answer_tx (t : Token) (r : Response) (s : State) : (answer t r s).tx = s.tx := rfl
@[simp] theorem answer_newAddr (t : Token) (r : Response) (s : State) : (answer t r s).newAddr = s.newAddr := rfl
@[simp] theorem answer_rxCnt (t : Token) (r : Response) (s : State) : (answer t r s).rxCnt = s.rxCnt := rfl
@[simp] theorem answer_fl (t : Token) (r : Response) (s : State) : (answer t r s).fl = s.fl := rfl
@[simp] theorem answer_ep0SetupFull (t : Token) (r : Response) (s : State) : (answer t r s).ep0SetupFull = s.ep0SetupFull := rfl
@[simp] theorem answer_ep0SetupBuf (t : Token) (r : Response) (s : State) : (answer t r s).ep0SetupBuf = s.ep0SetupBuf := rfl
@[simp] theorem answer_ep0OutFull (t : Token) (r : Response) (s : State) : (answer t r s).ep0OutFull = s.ep0OutFull := rfl
@[simp] theorem answer_ep0OutBuf (t : Token) (r : Response) (s : State) : (answer t r s).ep0OutBuf = s.ep0OutBuf := rfl
@[simp] theorem answer_ep0InArmed (t : Token) (r : Response) (s : State) : (answer t r s).ep0InArmed = s.ep0InArmed := rfl
@[simp] theorem answer_ep0InBuf (t : Token) (r : Response) (s : State) : (answer t r s).ep0InBuf = s.ep0InBuf := rfl
@[simp] theorem answer_ep0Stall (t : Token) (r : Response) (s : State) : (answer t r s).ep0Stall = s.ep0Stall := rfl
@[simp] theorem answer_ep0Configured (t : Token) (r : Response) (s : State) : (answer t r s).ep0Configured = s.ep0Configured := rfl
@[simp] theorem answer_devAddr (t : Token) (r : Response) (s : State) : (answer t r s).devAddr = s.devAddr := rfl
@[simp] theorem answer_addrEn (t : Token) (r : Response) (s : State) : (answer t r s).addrEn = s.addrEn := rfl
@[simp] theorem answer_usbConfiguration (t : Token) (r : Response) (s : State) : (answer t r s).usbConfiguration = s.usbConfiguration := rfl
@[simp] theorem answer_ep1Enabled (t : Token) (r : Response) (s : State) : (answer t r s).ep1Enabled = s.ep1Enabled := rfl
@[simp] theorem answer_usbEnabled (t : Token) (r : Response) (s : State) : (answer t r s).usbEnabled = s.usbEnabled := rfl
@[simp] theorem answer_usbAttached (t : Token) (r : Response) (s : State) : (answer t r s).usbAttached = s.usbAttached := rfl
@[simp] theorem answer_busresetPending (t : Token) (r : Response) (s : State) : (answer t r s).busresetPending = s.busresetPending := rfl
@[simp] theorem answer_rpt (t : Token) (r : Response) (s : State) : (answer t r s).rpt = s.rpt := rfl
@[simp] theorem answer_flash (t : Token) (r : Response) (s : State) : (answer t r s).flash = s.flash := rfl
@[simp] theorem answer_pbData (t : Token) (r : Response) (s : State) : (answer t r s).pbData = s.pbData := rfl
@[simp] theorem answer_pbTag (t : Token) (r : Response) (s : State) : (answer t r s).pbTag = s.pbTag := rfl
@[simp] theorem answer_nvmOp (t : Token) (r : Response) (s : State) : (answer t r s).nvmOp = s.nvmOp := rfl
@[simp] theorem answer_rwwEnabled (t : Token) (r : Response) (s : State) : (answer t r s).rwwEnabled = s.rwwEnabled := rfl
@[simp] theorem answer_sessLast (t : Token) (r : Response) (s : State) : (answer t r s).sessLast = s.sessLast := rfl
@[simp] theorem answer_ivsel (t : Token) (r : Response) (s : State) : (answer t r s).ivsel = s.ivsel := rfl
@[simp] theorem answer_led (t : Token) (r : Response) (s : State) : (answer t r s).led = s.led := rfl
@[simp] theorem answer_rstcauseReg (t : Token) (r : Response) (s : State) : (answer t r s).rstcauseReg = s.rstcauseReg := rfl
@[simp] theorem answer_resetCause (t : Token) (r : Response) (s : State) : (answer t r s).resetCause = s.resetCause := rfl
@[simp] theorem answer_magicKey (t : Token) (r : Response) (s : State) : (answer t r s).magicKey = s.magicKey := rfl
@[simp] theorem answer_timeoutCounter (t : Token) (r : Response) (s : State) : (answer t r s).timeoutCounter = s.timeoutCounter := rfl
@[simp] theorem answer_timerRunning (t : Token) (r : Response) (s : State) : (answer t r s).timerRunning = s.timerRunning := rfl
@[simp] theorem answer_wdtEnabled (t : Token) (r : Response) (s : State) : (answer t r s).wdtEnabled = s.wdtEnabled := rfl
@[simp] theorem answer_bootPhase (t : Token) (r : Response) (s : State) : (answer t r s).bootPhase = s.bootPhase := rfl
@[simp] theorem answer_intEn (t : Token) (r : Response) (s : State) : (answer t r s).intEn = s.intEn := rfl
@[simp] theorem answer_faults (t : Token) (r : Response) (s : State) : (answer t r s).faults = s.faults := rfl
@[simp] theorem answer_script (t : Token) (r : Response) (s : State) : (answer t r s).script = s.script := rfl
@[simp] theorem answer_trace (t : Token) (r : Response) (s : State) : (answer t r s).trace = s.trace ++ [(t, r)] := rfl
@[simp] theorem answer_offs (t : Token) (r : Response) (s : State) : (answer t r s).offs = s.offs := rfl
@[simp] theorem answer_draws (t : Token) (r : Response) (s : State) : (answer t r s).draws = s.draws := rfl

@[simp] theorem fifoArm_par (d : List Byte) (s : State) : (fifoArm d s).par = s.par := rfl
@[simp] theorem fifoArm_latch (d : List Byte) (s : State) : (fifoArm d s).latch = s.latch := rfl
@[simp] theorem fifoArm_fsm (d : List Byte) (s : State) : (fifoArm d s).fsm = s.fsm := rfl
@[simp] theorem fifoArm_tx (d : List Byte) (s : State) : (fifoArm d s).tx = s.tx := rfl
@[simp] theorem fifoArm_newAddr (d : List Byte) (s : State) : (fifoArm d s).newAddr = s.newAddr := rfl
@[simp] theorem fifoArm_rxCnt (d : List Byte) (s : State) : (fifoArm d s).rxCnt = s.rxCnt := rfl
@[simp] theorem fifoArm_fl (d : List Byte) (s : State) : (fifoArm d s).fl = s.fl := rfl
@[simp] theorem fifoArm_ep0SetupFull (d : List Byte) (s : State) : (fifoArm d s).ep0SetupFull = s.ep0SetupFull := rfl
@[simp] theorem fifoArm_ep0SetupBuf (d : List Byte) (s : State) : (fifoArm d s).ep0SetupBuf = s.ep0SetupBuf := rfl
@[simp] theorem fifoArm_ep0OutFull (d : List Byte) (s : State) : (fifoArm d s).ep0OutFull = s.ep0OutFull := rfl
@[simp] theorem fifoArm_ep0OutBuf (d : List Byte) (s : State) : (fifoArm d s).ep0OutBuf = s.ep0OutBuf := rfl
@[simp] theorem fifoArm_ep0InArmed (d : List Byte) (s : State) : (fifoArm d s).ep0InArmed = (s.ep0Configured || s.ep0InArmed) := rfl
@[simp] theorem fifoArm_ep0InBuf (d : List Byte) (s : State) : (fifoArm d s).ep0InBuf = if s.ep0Configured then d else s.ep0InBuf := rfl
@[simp] theorem fifoArm_ep0Stall (d : List Byte) (s : State) : (fifoArm d s).ep0Stall = s.ep0Stall := rfl
@[simp] theorem fifoArm_ep0Configured (d : List Byte) (s : State) : (fifoArm d s).ep0Configured = s.ep0Configured := rfl
@[simp] theorem fifoArm_devAddr (d : List Byte) (s : State) : (fifoArm d s).devAddr = s.devAddr := rfl
@[simp] theorem fifoArm_addrEn (d : List Byte) (s : State) : (fifoArm d s).addrEn = s.addrEn := rfl
@[simp] theorem fifoArm_usbConfiguration (d : List Byte) (s : State) : (fifoArm d s).usbConfiguration = s.usbConfiguration := rfl
@[simp] theorem fifoArm_ep1Enabled (d : List Byte) (s : State) : (fifoArm d s).ep1Enabled = s.ep1Enabled := rfl
@[simp] theorem fifoArm_usbEnabled (d : List Byte) (s : State) : (fifoArm d s).usbEnabled = s.usbEnabled := rfl
@[simp] theorem fifoArm_usbAttached (d : List Byte) (s : State) : (fifoArm d s).usbAttached = s.usbAttached := rfl
@[simp] theorem fifoArm_busresetPending (d : List Byte) (s : State) : (fifoArm d s).busresetPending = s.busresetPending := rfl
@[simp] theorem fifoArm_rpt (d : List Byte) (s : State) : (fifoArm d s).rpt = s.rpt := rfl
@[simp] theorem fifoArm_flash (d : List Byte) (s : State) : (fifoArm d s).flash = s.flash := rfl
@[simp] theorem fifoArm_pbData (d : List Byte) (s : State) : (fifoArm d s).pbData = s.pbData := rfl
@[simp] theorem fifoArm_pbTag (d : List Byte) (s : State) : (fifoArm d s).pbTag = s.pbTag := rfl
@[simp] theorem fifoArm_nvmOp (d : List Byte) (s : State) : (fifoArm d s).nvmOp = s.nvmOp := rfl
@[simp] theorem fifoArm_rwwEnabled (d : List Byte) (s : State) : (fifoArm d s).rwwEnabled = s.rwwEnabled := rfl
@[simp] theorem fifoArm_sessLast (d : List Byte) (s : State) : (fifoArm d s).sessLast = s.sessLast := rfl
@[simp] theorem fifoArm_ivsel (d : List Byte) (s : State) : (fifoArm d s).ivsel = s.ivsel := rfl
@[simp] theorem fifoArm_led (d : List Byte) (s : State) : (fifoArm d s).led = s.led := rfl
@[simp] theorem fifoArm_rstcauseReg (d : List Byte) (s : State) : (fifoArm d s).rstcauseReg = s.rstcauseReg := rfl
@[simp] theorem fifoArm_resetCause (d : List Byte) (s : State) : (fifoArm d s).resetCause = s.resetCause := rfl
@[simp] theorem fifoArm_magicKey (d : List Byte) (s : State) : (fifoArm d s).magicKey = s.magicKey := rfl
@[simp] theorem fifoArm_timeoutCounter (d : List Byte) (s : State) : (fifoArm d s).timeoutCounter = s.timeoutCounter := rfl
@[simp] theorem fifoArm_timerRunning (d : List Byte) (s : State) : (fifoArm d s).timerRunning = s.timerRunning := rfl
@[simp] theorem fifoArm_wdtEnabled (d : List Byte) (s : State) : (fifoArm d s).wdtEnabled = s.wdtEnabled := rfl
@[simp] theorem fifoArm_bootPhase (d : List Byte) (s : State) : (fifoArm d s).bootPhase = s.bootPhase := rfl
@[simp] theorem fifoArm_intEn (d : List Byte) (s : State) : (fifoArm d s).intEn = s.intEn := rfl
@[simp] theorem fifoArm_faults (d : List Byte) (s : State) : (fifoArm d s).faults = s.faults := rfl
@[simp] theorem fifoArm_script (d : List Byte) (s : State) : (fifoArm d s).script = s.script := rfl
@[simp] theorem fifoArm_trace (d : List Byte) (s : State) : (fifoArm d s).trace = s.trace := rfl
@[simp] theorem fifoArm_offs (d : List Byte) (s : State) : (fifoArm d s).offs = s.offs := rfl
@[simp] theorem fifoArm_draws (d : List Byte) (s : State) : (fifoArm d s).draws = s.draws := rfl

@[simp] theorem releaseOut_par (s : State) : (releaseOut s).par = s.par := rfl
@[simp] theorem releaseOut_latch (s : State) : (releaseOut s).latch = s.latch := rfl
@[simp] theorem releaseOut_fsm (s : State) : (releaseOut s).fsm = s.fsm := rfl
@[simp] theorem releaseOut_tx (s : State) : (releaseOut s).tx = s.tx := rfl
@[simp] theorem releaseOut_newAddr (s : State) : (releaseOut s).newAddr = s.newAddr := rfl
@[simp] theorem releaseOut_rxCnt (s : State) : (releaseOut s).rxCnt = s.rxCnt := rfl
@[simp] theorem releaseOut_fl (s : State) : (releaseOut s).fl = s.fl := rfl
@[simp] theorem releaseOut_ep0SetupFull (s : State) : (releaseOut s).ep0SetupFull = s.ep0SetupFull := rfl
@[simp] theorem releaseOut_ep0SetupBuf (s : State) : (releaseOut s).ep0SetupBuf = s.ep0SetupBuf := rfl
@[simp] theorem releaseOut_ep0OutFull (s : State) : (releaseOut s).ep0OutFull = false := rfl
@[simp] theorem releaseOut_ep0OutBuf (s : State) : (releaseOut s).ep0OutBuf = [] := rfl
@[simp] theorem releaseOut_ep0InArmed (s : State) : (releaseOut s).ep0InArmed = s.ep0InArmed := rfl
@[simp] theorem releaseOut_ep0InBuf (s : State) : (releaseOut s).ep0InBuf = s.ep0InBuf := rfl
@[simp] theorem releaseOut_ep0Stall (s : State) : (releaseOut s).ep0Stall = s.ep0Stall := rfl
@[simp] theorem releaseOut_ep0Configured (s : State) : (releaseOut s).ep0Configured = s.ep0Configured := rfl
@[simp] theorem releaseOut_devAddr (s : State) : (releaseOut s).devAddr = s.devAddr := rfl
@[simp] theorem releaseOut_addrEn (s : State) : (releaseOut s).addrEn = s.addrEn := rfl
@[simp] theorem releaseOut_usbConfiguration (s : State) : (releaseOut s).usbConfiguration = s.usbConfiguration := rfl
@[simp] theorem releaseOut_ep1Enabled (s : State) : (releaseOut s).ep1Enabled = s.ep1Enabled := rfl
@[simp] theorem releaseOut_usbEnabled (s : State) : (releaseOut s).usbEnabled = s.usbEnabled := rfl
@[simp] theorem releaseOut_usbAttached (s : State) : (releaseOut s).usbAttached = s.usbAttached := rfl
@[simp] theorem releaseOut_busresetPending (s : State) : (releaseOut s).busresetPending = s.busresetPending := rfl
@[simp] theorem releaseOut_rpt (s : State) : (releaseOut s).rpt = s.rpt := rfl
@[simp] theorem releaseOut_flash (s : State) : (releaseOut s).flash = s.flash := rfl
@[simp] theorem releaseOut_pbData (s : State) : (releaseOut s).pbData = s.pbData := rfl
@[simp] theorem releaseOut_pbTag (s : State) : (releaseOut s).pbTag = s.pbTag := rfl
@[simp] theorem releaseOut_nvmOp (s : State) : (releaseOut s).nvmOp = s.nvmOp := rfl
@[simp] theorem releaseOut_rwwEnabled (s : State) : (releaseOut s).rwwEnabled = s.rwwEnabled := rfl
@[simp] theorem releaseOut_sessLast (s : State) : (releaseOut s).sessLast = s.sessLast := rfl
@[simp] theorem releaseOut_ivsel (s : State) : (releaseOut s).ivsel = s.ivsel := rfl
@[simp] theorem releaseOut_led (s : State) : (releaseOut s).led = s.led := rfl
@[simp] theorem releaseOut_rstcauseReg (s : State) : (releaseOut s).rstcauseReg = s.rstcauseReg := rfl
@[simp] theorem releaseOut_resetCause (s : State) : (releaseOut s).resetCause = s.resetCause := rfl
@[simp] theorem releaseOut_magicKey (s : State) : (releaseOut s).magicKey = s.magicKey := rfl
@[simp] theorem releaseOut_timeoutCounter (s : State) : (releaseOut s).timeoutCounter = s.timeoutCounter := rfl
@[simp] theorem releaseOut_timerRunning (s : State) : (releaseOut s).timerRunning = s.timerRunning := rfl
@[simp] theorem releaseOut_wdtEnabled (s : State) : (releaseOut s).wdtEnabled = s.wdtEnabled := rfl
@[simp] theorem releaseOut_bootPhase (s : State) : (releaseOut s).bootPhase = s.bootPhase := rfl
@[simp] theorem releaseOut_intEn (s : State) : (releaseOut s).intEn = s.intEn := rfl
@[simp] theorem releaseOut_faults (s : State) : (releaseOut s).faults = s.faults := rfl
@[simp] theorem releaseOut_script (s : State) : (releaseOut s).script = s.script := rfl
@[simp] theorem releaseOut_trace (s : State) : (releaseOut s).trace = s.trace := rfl
@[simp] theorem releaseOut_offs (s : State) : (releaseOut s).offs = s.offs := rfl
@[simp] theorem releaseOut_draws (s : State) : (releaseOut s).draws = s.draws := rfl

@[simp] theorem stall_par (s : State) : (stall s).par = s.par := rfl
@[simp] theorem stall_latch (s : State) : (stall s).latch = none := rfl
@[simp] theorem stall_fsm (s : State) : (stall s).fsm = some .idle := rfl
@[simp] theorem stall_tx (s : State) : (stall s).tx = none := rfl
@[simp] theorem stall_newAddr (s : State) : (stall s).newAddr = none := rfl
@[simp] theorem stall_rxCnt (s : State) : (stall s).rxCnt = none := rfl
@[simp] theorem stall_fl (s : State) : (stall s).fl = none := rfl
@[simp] theorem stall_ep0SetupFull (s : State) : (stall s).ep0SetupFull = s.ep0SetupFull := rfl
@[simp] theorem stall_ep0SetupBuf (s : State) : (stall s).ep0SetupBuf = s.ep0SetupBuf := rfl
@[simp] theorem stall_ep0OutFull (s : State) : (stall s).ep0OutFull = s.ep0OutFull := rfl
@[simp] theorem stall_ep0OutBuf (s : State) : (stall s).ep0OutBuf = s.ep0OutBuf := rfl
@[simp] theorem stall_ep0InArmed (s : State) : (stall s).ep0InArmed = s.ep0InArmed := rfl
@[simp] theorem stall_ep0InBuf (s : State) : (stall s).ep0InBuf = s.ep0InBuf := rfl
@[simp] theorem stall_ep0Stall (s : State) : (stall s).ep0Stall = true := rfl
@[simp] theorem stall_ep0Configured (s : State) : (stall s).ep0Configured = s.ep0Configured := rfl
@[simp] theorem stall_devAddr (s : State) : (stall s).devAddr = s.devAddr := rfl
@[simp] theorem stall_addrEn (s : State) : (stall s).addrEn = s.addrEn := rfl
@[simp] theorem stall_usbConfiguration (s : State) : (stall s).usbConfiguration = s.usbConfiguration := rfl
@[simp] theorem stall_ep1Enabled (s : State) : (stall s).ep1Enabled = s.ep1Enabled := rfl
@[simp] theorem stall_usbEnabled (s : State) : (stall s).usbEnabled = s.usbEnabled := rfl
@[simp] theorem stall_usbAttached (s : State) : (stall s).usbAttached = s.usbAttached := rfl
@[simp] theorem stall_busresetPending (s : State) : (stall s).busresetPending = s.busresetPending := rfl
@[simp] theorem stall_rpt (s : State) : (stall s).rpt = s.rpt := rfl
@[simp] theorem stall_flash (s : State) : (stall s).flash = s.flash := rfl
@[simp] theorem stall_pbData (s : State) : (stall s).pbData = s.pbData := rfl
@[simp] theorem stall_pbTag (s : State) : (stall s).pbTag = s.pbTag := rfl
@[simp] theorem stall_nvmOp (s : State) : (stall s).nvmOp = s.nvmOp := rfl
@[simp] theorem stall_rwwEnabled (s : State) : (stall s).rwwEnabled = s.rwwEnabled := rfl
@[simp] theorem stall_sessLast (s : State) : (stall s).sessLast = s.sessLast := rfl
@[simp] theorem stall_ivsel (s : State) : (stall s).ivsel = s.ivsel := rfl
@[simp] theorem stall_led (s : State) : (stall s).led = s.led := rfl
@[simp] theorem stall_rstcauseReg (s : State) : (stall s).rstcauseReg = s.rstcauseReg := rfl
@[simp] theorem stall_resetCause (s : State) : (stall s).resetCause = s.resetCause := rfl
@[simp] theorem stall_magicKey (s : State) : (stall s).magicKey = s.magicKey := rfl
@[simp] theorem stall_timeoutCounter (s : State) : (stall s).timeoutCounter = s.timeoutCounter := rfl
@[simp] theorem stall_timerRunning (s : State) : (stall s).timerRunning = s.timerRunning := rfl
@[simp] theorem stall_wdtEnabled (s : State) : (stall s).wdtEnabled = s.wdtEnabled := rfl
@[simp] theorem stall_bootPhase (s : State) : (stall s).bootPhase = s.bootPhase := rfl
@[simp] theorem stall_intEn (s : State) : (stall s).intEn = s.intEn := rfl
@[simp] theorem stall_faults (s : State) : (stall s).faults = s.faults := rfl
@[simp] theorem stall_script (s : State) : (stall s).script = s.script := rfl
@[simp] theorem stall_trace (s : State) : (stall s).trace = s.trace := rfl
@[simp] theorem stall_offs (s : State) : (stall s).offs = s.offs := rfl
@[simp] theorem stall_draws (s : State) : (stall s).draws = s.draws := rfl

@[simp] theorem ack_par (s : State) : (ack s).par = s.par := rfl
@[simp] theorem ack_latch (s : State) : (ack s).latch = s.latch := rfl
@[simp] theorem ack_fsm (s : State) : (ack s).fsm = s.fsm := rfl
@[simp] theorem ack_tx (s : State) : (ack s).tx = s.tx := rfl
@[simp] theorem ack_newAddr (s : State) : (ack s).newAddr = s.newAddr := rfl
@[simp] theorem ack_rxCnt (s : State) : (ack s).rxCnt = s.rxCnt := rfl
@[simp] theorem ack_fl (s : State) : (ack s).fl = s.fl := rfl
@[simp] theorem ack_ep0SetupFull (s : State) : (ack s).ep0SetupFull = s.ep0SetupFull := rfl
@[simp] theorem ack_ep0SetupBuf (s : State) : (ack s).ep0SetupBuf = s.ep0SetupBuf := rfl
@[simp] theorem ack_ep0OutFull (s : State) : (ack s).ep0OutFull = s.ep0OutFull := rfl
@[simp] theorem ack_ep0OutBuf (s : State) : (ack s).ep0OutBuf = s.ep0OutBuf := rfl
@[simp] theorem ack_ep0InArmed (s : State) : (ack s).ep0InArmed = (s.ep0Configured || s.ep0InArmed) := rfl
@[simp] theorem ack_ep0InBuf (s : State) : (ack s).ep0InBuf = if s.ep0Configured then [] else s.ep0InBuf := rfl
@[simp] theorem ack_ep0Stall (s : State) : (ack s).ep0Stall = s.ep0Stall := rfl
@[simp] theorem ack_ep0Configured (s : State) : (ack s).ep0Configured = s.ep0Configured := rfl
@[simp] theorem ack_devAddr (s : State) : (ack s).devAddr = s.devAddr := rfl
@[simp] theorem ack_addrEn (s : State) : (ack s).addrEn = s.addrEn := rfl
@[simp] theorem ack_usbConfiguration (s : State) : (ack s).usbConfiguration = s.usbConfiguration := rfl
@[simp] theorem ack_ep1Enabled (s : State) : (ack s).ep1Enabled = s.ep1Enabled := rfl
@[simp] theorem ack_usbEnabled (s : State) : (ack s).usbEnabled = s.usbEnabled := rfl
@[simp] theorem ack_usbAttached (s : State) : (ack s).usbAttached = s.usbAttached := rfl
@[simp] theorem ack_busresetPending (s : State) : (ack s).busresetPending = s.busresetPending := rfl
@[simp] theorem ack_rpt (s : State) : (ack s).rpt = s.rpt := rfl
@[simp] theorem ack_flash (s : State) : (ack s).flash = s.flash := rfl
@[simp] theorem ack_pbData (s : State) : (ack s).pbData = s.pbData := rfl
@[simp] theorem ack_pbTag (s : State) : (ack s).pbTag = s.pbTag := rfl
@[simp] theorem ack_nvmOp (s : State) : (ack s).nvmOp = s.nvmOp := rfl
@[simp] theorem ack_rwwEnabled (s : State) : (ack s).rwwEnabled = s.rwwEnabled := rfl
@[simp] theorem ack_sessLast (s : State) : (ack s).sessLast = s.sessLast := rfl
@[simp] theorem ack_ivsel (s : State) : (ack s).ivsel = s.ivsel := rfl
@[simp] theorem ack_led (s : State) : (ack s).led = s.led := rfl
@[simp] theorem ack_rstcauseReg (s : State) : (ack s).rstcauseReg = s.rstcauseReg := rfl
@[simp] theorem ack_resetCause (s : State) : (ack s).resetCause = s.resetCause := rfl
@[simp] theorem ack_magicKey (s : State) : (ack s).magicKey = s.magicKey := rfl
@[simp] theorem ack_timeoutCounter (s : State) : (ack s).timeoutCounter = s.timeoutCounter := rfl
@[simp] theorem ack_timerRunning (s : State) : (ack s).timerRunning = s.timerRunning := rfl
@[simp] theorem ack_wdtEnabled (s : State) : (ack s).wdtEnabled = s.wdtEnabled := rfl
@[simp] theorem ack_bootPhase (s : State) : (ack s).bootPhase = s.bootPhase := rfl
@[simp] theorem ack_intEn (s : State) : (ack s).intEn = s.intEn := rfl
@[simp] theorem ack_faults (s : State) : (ack s).faults = s.faults := rfl
@[simp] theorem ack_script (s : State) : (ack s).script = s.script := rfl
@[simp] theorem ack_trace (s : State) : (ack s).trace = s.trace := rfl
@[simp] theorem ack_offs (s : State) : (ack s).offs = s.offs := rfl
@[simp] theorem ack_draws (s : State) : (ack s).draws = s.draws := rfl

@[simp] theorem send_par (d : List Byte) (s : State) : (send d s).par = s.par := rfl
@[simp] theorem send_latch (d : List Byte) (s : State) : (send d s).latch = s.latch := rfl
@[simp] theorem send_fsm (d : List Byte) (s : State) : (send d s).fsm = some .sendWait := rfl
@[simp] theorem send_tx (d : List Byte) (s : State) : (send d s).tx = some ⟨d, 0, d.length, 0⟩ := rfl
@[simp] theorem send_newAddr (d : List Byte) (s : State) : (send d s).newAddr = s.newAddr := rfl
@[simp] theorem send_rxCnt (d : List Byte) (s : State) : (send d s).rxCnt = s.rxCnt := rfl
@[simp] theorem send_fl (d : List Byte) (s : State) : (send d s).fl = s.fl := rfl
@[simp] theorem send_ep0SetupFull (d : List Byte) (s : State) : (send d s).ep0SetupFull = s.ep0SetupFull := rfl
@[simp] theorem send_ep0SetupBuf (d : List Byte) (s : State) : (send d s).ep0SetupBuf = s.ep0SetupBuf := rfl
@[simp] theorem send_ep0OutFull (d : List Byte) (s : State) : (send d s).ep0OutFull = s.ep0OutFull := rfl
@[simp] theorem send_ep0OutBuf (d : List Byte) (s : State) : (send d s).ep0OutBuf = s.ep0OutBuf := rfl
@[simp] theorem send_ep0InArmed (d : List Byte) (s : State) : (send d s).ep0InArmed = s.ep0InArmed := rfl
@[simp] theorem send_ep0InBuf (d : List Byte) (s : State) : (send d s).ep0InBuf = s.ep0InBuf := rfl
@[simp] theorem send_ep0Stall (d : List Byte) (s : State) : (send d s).ep0Stall = s.ep0Stall := rfl
@[simp] theorem send_ep0Configured (d : List Byte) (s : State) : (send d s).ep0Configured = s.ep0Configured := rfl
@[simp] theorem send_devAddr (d : List Byte) (s : State) : (send d s).devAddr = s.devAddr := rfl
@[simp] theorem send_addrEn (d : List Byte) (s : State) : (send d s).addrEn = s.addrEn := rfl
@[simp] theorem send_usbConfiguration (d : List Byte) (s : State) : (send d s).usbConfiguration = s.usbConfiguration := rfl
@[simp] theorem send_ep1Enabled (d : List Byte) (s : State) : (send d s).ep1Enabled = s.ep1Enabled := rfl
@[simp] theorem send_usbEnabled (d : List Byte) (s : State) : (send d s).usbEnabled = s.usbEnabled := rfl
@[simp] theorem send_usbAttached (d : List Byte) (s : State) : (send d s).usbAttached = s.usbAttached := rfl
@[simp] theorem send_busresetPending (d : List Byte) (s : State) : (send d s).busresetPending = s.busresetPending := rfl
@[simp] theorem send_rpt (d : List Byte) (s : State) : (send d s).rpt = s.rpt := rfl
@[simp] theorem send_flash (d : List Byte) (s : State) : (send d s).flash = s.flash := rfl
@[simp] theorem send_pbData (d : List Byte) (s : State) : (send d s).pbData = s.pbData := rfl
@[simp] theorem send_pbTag (d : List Byte) (s : State) : (send d s).pbTag = s.pbTag := rfl
@[simp] theorem send_nvmOp (d : List Byte) (s : State) : (send d s).nvmOp = s.nvmOp := rfl
@[simp] theorem send_rwwEnabled (d : List Byte) (s : State) : (send d s).rwwEnabled = s.rwwEnabled := rfl
@[simp] theorem send_sessLast (d : List Byte) (s : State) : (send d s).sessLast = s.sessLast := rfl
@[simp] theorem send_ivsel (d : List Byte) (s : State) : (send d s).ivsel = s.ivsel := rfl
@[simp] theorem send_led (d : List Byte) (s : State) : (send d s).led = s.led := rfl
@[simp] theorem send_rstcauseReg (d : List Byte) (s : State) : (send d s).rstcauseReg = s.rstcauseReg := rfl
@[simp] theorem send_resetCause (d : List Byte) (s : State) : (send d s).resetCause = s.resetCause := rfl
@[simp] theorem send_magicKey (d : List Byte) (s : State) : (send d s).magicKey = s.magicKey := rfl
@[simp] theorem send_timeoutCounter (d : List Byte) (s : State) : (send d s).timeoutCounter = s.timeoutCounter := rfl
@[simp] theorem send_timerRunning (d : List Byte) (s : State) : (send d s).timerRunning = s.timerRunning := rfl
@[simp] theorem send_wdtEnabled (d : List Byte) (s : State) : (send d s).wdtEnabled = s.wdtEnabled := rfl
@[simp] theorem send_bootPhase (d : List Byte) (s : State) : (send d s).bootPhase = s.bootPhase := rfl
@[simp] theorem send_intEn (d : List Byte) (s : State) : (send d s).intEn = s.intEn := rfl
@[simp] theorem send_faults (d : List Byte) (s : State) : (send d s).faults = s.faults := rfl
@[simp] theorem send_script (d : List Byte) (s : State) : (send d s).script = s.script := rfl
@[simp] theorem send_trace (d : List Byte) (s : State) : (send d s).trace = s.trace := rfl
@[simp] theorem send_offs (d : List Byte) (s : State) : (send d s).offs = s.offs := rfl
@[simp] theorem send_draws (d : List Byte) (s : State) : (send d s).draws = s.draws := rfl

@[simp] theorem clearPageBuffer_par (s : State) : (clearPageBuffer s).par = s.par := rfl
@[simp] theorem clearPageBuffer_latch (s : State) : (clearPageBuffer s).latch = s.latch := rfl
@[simp] theorem clearPageBuffer_fsm (s : State) : (clearPageBuffer s).fsm = s.fsm := rfl
@[simp] theorem clearPageBuffer_tx (s : State) : (clearPageBuffer s).tx = s.tx := rfl
@[simp] theorem clearPageBuffer_newAddr (s : State) : (clearPageBuffer s).newAddr = s.newAddr := rfl
@[simp] theorem clearPageBuffer_rxCnt (s : State) : (clearPageBuffer s).rxCnt = s.rxCnt := rfl
@[simp] theorem clearPageBuffer_fl (s : State) : (clearPageBuffer s).fl = s.fl := rfl
@[simp] theorem clearPageBuffer_ep0SetupFull (s : State) : (clearPageBuffer s).ep0SetupFull = s.ep0SetupFull := rfl
@[simp] theorem clearPageBuffer_ep0SetupBuf (s : State) : (clearPageBuffer s).ep0SetupBuf = s.ep0SetupBuf := rfl
@[simp] theorem clearPageBuffer_ep0OutFull (s : State) : (clearPageBuffer s).ep0OutFull = s.ep0OutFull := rfl
@[simp] theorem clearPageBuffer_ep0OutBuf (s : State) : (clearPageBuffer s).ep0OutBuf = s.ep0OutBuf := rfl
@[simp] theorem clearPageBuffer_ep0InArmed (s : State) : (clearPageBuffer s).ep0InArmed = s.ep0InArmed := rfl
@[simp] theorem clearPageBuffer_ep0InBuf (s : State) : (clearPageBuffer s).ep0InBuf = s.ep0InBuf := rfl
@[simp] theorem clearPageBuffer_ep0Stall (s : State) : (clearPageBuffer s).ep0Stall = s.ep0Stall := rfl
@[simp] theorem clearPageBuffer_ep0Configured (s : State) : (clearPageBuffer s).ep0Configured = s.ep0Configured := rfl
@[simp] theorem clearPageBuffer_devAddr (s : State) : (clearPageBuffer s).devAddr = s.devAddr := rfl
@[simp] theorem clearPageBuffer_addrEn (s : State) : (clearPageBuffer s).addrEn = s.addrEn := rfl
@[simp] theorem clearPageBuffer_usbConfiguration (s : State) : (clearPageBuffer s).usbConfiguration = s.usbConfiguration := rfl
@[simp] theorem clearPageBuffer_ep1Enabled (s : State) : (clearPageBuffer s).ep1Enabled = s.ep1Enabled := rfl
@[simp] theorem clearPageBuffer_usbEnabled (s : State) : (clearPageBuffer s).usbEnabled = s.usbEnabled := rfl
@[simp] theorem clearPageBuffer_usbAttached (s : State) : (clearPageBuffer s).usbAttached = s.usbAttached := rfl
@[simp] theorem clearPageBuffer_busresetPending (s : State) : (clearPageBuffer s).busresetPending = s.busresetPending := rfl
@[simp] theorem clearPageBuffer_rpt (s : State) : (clearPageBuffer s).rpt = s.rpt := rfl
@[simp] theorem clearPageBuffer_flash (s : State) : (clearPageBuffer s).flash = s.flash := rfl
@[simp] theorem clearPageBuffer_pbData (s : State) : (clearPageBuffer s).pbData = [] := rfl
@[simp] theorem clearPageBuffer_pbTag (s : State) : (clearPageBuffer s).pbTag = none := rfl
@[simp] theorem clearPageBuffer_nvmOp (s : State) : (clearPageBuffer s).nvmOp = s.nvmOp := rfl
@[simp] theorem clearPageBuffer_rwwEnabled (s : State) : (clearPageBuffer s).rwwEnabled = s.rwwEnabled := rfl
@[simp] theorem clearPageBuffer_sessLast (s : State) : (clearPageBuffer s).sessLast = s.sessLast := rfl
@[simp] theorem clearPageBuffer_ivsel (s : State) : (clearPageBuffer s).ivsel = s.ivsel := rfl
@[simp] theorem clearPageBuffer_led (s : State) : (clearPageBuffer s).led = s.led := rfl
@[simp] theorem clearPageBuffer_rstcauseReg (s : State) : (clearPageBuffer s).rstcauseReg = s.rstcauseReg := rfl
@[simp] theorem clearPageBuffer_resetCause (s : State) : (clearPageBuffer s).resetCause = s.resetCause := rfl
@[simp] theorem clearPageBuffer_magicKey (s : State) : (clearPageBuffer s).magicKey = s.magicKey := rfl
@[simp] theorem clearPageBuffer_timeoutCounter (s : State) : (clearPageBuffer s).timeoutCounter = s.timeoutCounter := rfl
@[simp] theorem clearPageBuffer_timerRunning (s : State) : (clearPageBuffer s).timerRunning = s.timerRunning := rfl
@[simp] theorem clearPageBuffer_wdtEnabled (s : State) : (clearPageBuffer s).wdtEnabled = s.wdtEnabled := rfl
@[simp] theorem clearPageBuffer_bootPhase (s : State) : (clearPageBuffer s).bootPhase = s.bootPhase := rfl
@[simp] theorem clearPageBuffer_intEn (s : State) : (clearPageBuffer s).intEn = s.intEn := rfl
@[simp] theorem clearPageBuffer_faults (s : State) : (clearPageBuffer s).faults = s.faults := rfl
@[simp] theorem clearPageBuffer_script (s : State) : (clearPageBuffer s).script = s.script := rfl
@[simp] theorem clearPageBuffer_trace (s : State) : (clearPageBuffer s).trace = s.trace := rfl
@[simp] theorem clearPageBuffer_offs (s : State) : (clearPageBuffer s).offs = s.offs := rfl
@[simp] theorem clearPageBuffer_draws (s : State) : (clearPageBuffer s).draws = s.draws := rfl

@[simp] theorem startErase_par (p : Nat) (s : State) : (startErase p s).par = s.par := rfl
@[simp] theorem startErase_latch (p : Nat) (s : State) : (startErase p s).latch = s.latch := rfl
@[simp] theorem startErase_fsm (p : Nat) (s : State) : (startErase p s).fsm = s.fsm := rfl
@[simp] theorem startErase_tx (p : Nat) (s : State) : (startErase p s).tx = s.tx := rfl
@[simp] theorem startErase_newAddr (p : Nat) (s : State) : (startErase p s).newAddr = s.newAddr := rfl
@[simp] theorem startErase_rxCnt (p : Nat) (s : State) : (startErase p s).rxCnt = s.rxCnt := rfl
@[simp] theorem startErase_fl (p : Nat) (s : State) : (startErase p s).fl = s.fl := rfl
@[simp] theorem startErase_ep0SetupFull (p : Nat) (s : State) : (startErase p s).ep0SetupFull = s.ep0SetupFull := rfl
@[simp] theorem startErase_ep0SetupBuf (p : Nat) (s : State) : (startErase p s).ep0SetupBuf = s.ep0SetupBuf := rfl
@[simp] theorem startErase_ep0OutFull (p : Nat) (s : State) : (startErase p s).ep0OutFull = s.ep0OutFull := rfl
@[simp] theorem startErase_ep0OutBuf (p : Nat) (s : State) : (startErase p s).ep0OutBuf = s.ep0OutBuf := rfl
@[simp] theorem startErase_ep0InArmed (p : Nat) (s : State) : (startErase p s).ep0InArmed = s.ep0InArmed := rfl
@[simp] theorem startErase_ep0InBuf (p : Nat) (s : State) : (startErase p s).ep0InBuf = s.ep0InBuf := rfl
@[simp] theorem startErase_ep0Stall (p : Nat) (s : State) : (startErase p s).ep0Stall = s.ep0Stall := rfl
@[simp] theorem startErase_ep0Configured (p : Nat) (s : State) : (startErase p s).ep0Configured = s.ep0Configured := rfl
@[simp] theorem startErase_devAddr (p : Nat) (s : State) : (startErase p s).devAddr = s.devAddr := rfl
@[simp] theorem startErase_addrEn (p : Nat) (s : State) : (startErase p s).addrEn = s.addrEn := rfl
@[simp] theorem startErase_usbConfiguration (p : Nat) (s : State) : (startErase p s).usbConfiguration = s.usbConfiguration := rfl
@[simp] theorem startErase_ep1Enabled (p : Nat) (s : State) : (startErase p s).ep1Enabled = s.ep1Enabled := rfl
@[simp] theorem startErase_usbEnabled (p : Nat) (s : State) : (startErase p s).usbEnabled = s.usbEnabled := rfl
@[simp] theorem startErase_usbAttached (p : Nat) (s : State) : (startErase p s).usbAttached = s.usbAttached := rfl
@[simp] theorem startErase_busresetPending (p : Nat) (s : State) : (startErase p s).busresetPending = s.busresetPending := rfl
@[simp] theorem startErase_rpt (p : Nat) (s : State) : (startErase p s).rpt = s.rpt := rfl
@[simp] theorem startErase_flash (p : Nat) (s : State) : (startErase p s).flash = s.flash := rfl
@[simp] theorem startErase_pbData (p : Nat) (s : State) : (startErase p s).pbData = s.pbData := rfl
@[simp] theorem startErase_pbTag (p : Nat) (s : State) : (startErase p s).pbTag = s.pbTag := rfl
@[simp] theorem startErase_nvmOp (p : Nat) (s : State) : (startErase p s).nvmOp = .erase p := rfl
@[simp] theorem startErase_rwwEnabled (p : Nat) (s : State) : (startErase p s).rwwEnabled = if appPage s.par p then false else s.rwwEnabled := rfl
@[simp] theorem startErase_sessLast (p : Nat) (s : State) : (startErase p s).sessLast = s.sessLast := rfl
@[simp] theorem startErase_ivsel (p : Nat) (s : State) : (startErase p s).ivsel = s.ivsel := rfl
@[simp] theorem startErase_led (p : Nat) (s : State) : (startErase p s).led = s.led := rfl
@[simp] theorem startErase_rstcauseReg (p : Nat) (s : State) : (startErase p s).rstcauseReg = s.rstcauseReg := rfl
@[simp] theorem startErase_resetCause (p : Nat) (s : State) : (startErase p s).resetCause = s.resetCause := rfl
@[simp] theorem startErase_magicKey (p : Nat) (s : State) : (startErase p s).magicKey = s.magicKey := rfl
@[simp] theorem startErase_timeoutCounter (p : Nat) (s : State) : (startErase p s).timeoutCounter = s.timeoutCounter := rfl
@[simp] theorem startErase_timerRunning (p : Nat) (s : State) : (startErase p s).timerRunning = s.timerRunning := rfl
@[simp] theorem startErase_wdtEnabled (p : Nat) (s : State) : (startErase p s).wdtEnabled = s.wdtEnabled := rfl
@[simp] theorem startErase_bootPhase (p : Nat) (s : State) : (startErase p s).bootPhase = s.bootPhase := rfl
@[simp] theorem startErase_intEn (p : Nat) (s : State) : (startErase p s).intEn = s.intEn := rfl
@[simp] theorem startErase_faults (p : Nat) (s : State) : (startErase p s).faults = s.faults := rfl
@[simp] theorem startErase_script (p : Nat) (s : State) : (startErase p s).script = s.script := rfl
@[simp] theorem startErase_trace (p : Nat) (s : State) : (startErase p s).trace = s.trace := rfl
@[simp] theorem startErase_offs (p : Nat) (s : State) : (startErase p s).offs = s.offs := rfl
@[simp] theorem startErase_draws (p : Nat) (s : State) : (startErase p s).draws = s.draws := rfl

@[simp] theorem startWrite_par (p : Nat) (s : State) : (startWrite p s).par = s.par := rfl
@[simp] theorem startWrite_latch (p : Nat) (s : State) : (startWrite p s).latch = s.latch := rfl
@[simp] theorem startWrite_fsm (p : Nat) (s : State) : (startWrite p s).fsm = s.fsm := rfl
@[simp] theorem startWrite_tx (p : Nat) (s : State) : (startWrite p s).tx = s.tx := rfl
@[simp] theorem startWrite_newAddr (p : Nat) (s : State) : (startWrite p s).newAddr = s.newAddr := rfl
@[simp] theorem startWrite_rxCnt (p : Nat) (s : State) : (startWrite p s).rxCnt = s.rxCnt := rfl
@[simp] theorem startWrite_fl (p : Nat) (s : State) : (startWrite p s).fl = s.fl := rfl
@[simp] theorem startWrite_ep0SetupFull (p : Nat) (s : State) : (startWrite p s).ep0SetupFull = s.ep0SetupFull := rfl
@[simp] theorem startWrite_ep0SetupBuf (p : Nat) (s : State) : (startWrite p s).ep0SetupBuf = s.ep0SetupBuf := rfl
@[simp] theorem startWrite_ep0OutFull (p : Nat) (s : State) : (startWrite p s).ep0OutFull = s.ep0OutFull := rfl
@[simp] theorem startWrite_ep0OutBuf (p : Nat) (s : State) : (startWrite p s).ep0OutBuf = s.ep0OutBuf := rfl
@[simp] theorem startWrite_ep0InArmed (p : Nat) (s : State) : (startWrite p s).ep0InArmed = s.ep0InArmed := rfl
@[simp] theorem startWrite_ep0InBuf (p : Nat) (s : State) : (startWrite p s).ep0InBuf = s.ep0InBuf := rfl
@[simp] theorem startWrite_ep0Stall (p : Nat) (s : State) : (startWrite p s).ep0Stall = s.ep0Stall := rfl
@[simp] theorem startWrite_ep0Configured (p : Nat) (s : State) : (startWrite p s).ep0Configured = s.ep0Configured := rfl
@[simp] theorem startWrite_devAddr (p : Nat) (s : State) : (startWrite p s).devAddr = s.devAddr := rfl
@[simp] theorem startWrite_addrEn (p : Nat) (s : State) : (startWrite p s).addrEn = s.addrEn := rfl
@[simp] theorem startWrite_usbConfiguration (p : Nat) (s : State) : (startWrite p s).usbConfiguration = s.usbConfiguration := rfl
@[simp] theorem startWrite_ep1Enabled (p : Nat) (s : State) : (startWrite p s).ep1Enabled = s.ep1Enabled := rfl
@[simp] theorem startWrite_usbEnabled (p : Nat) (s : State) : (startWrite p s).usbEnabled = s.usbEnabled := rfl
@[simp] theorem startWrite_usbAttached (p : Nat) (s : State) : (startWrite p s).usbAttached = s.usbAttached := rfl
@[simp] theorem startWrite_busresetPending (p : Nat) (s : State) : (startWrite p s).busresetPending = s.busresetPending := rfl
@[simp] theorem startWrite_rpt (p : Nat) (s : State) : (startWrite p s).rpt = s.rpt := rfl
@[simp] theorem startWrite_flash (p : Nat) (s : State) : (startWrite p s).flash = s.flash := rfl
@[simp] theorem startWrite_pbData (p : Nat) (s : State) : (startWrite p s).pbData = s.pbData := rfl
@[simp] theorem startWrite_pbTag (p : Nat) (s : State) : (startWrite p s).pbTag = s.pbTag := rfl
@[simp] theorem startWrite_nvmOp (p : Nat) (s : State) : (startWrite p s).nvmOp = .write p := rfl
@[simp] theorem startWrite_rwwEnabled (p : Nat) (s : State) : (startWrite p s).rwwEnabled = if appPage s.par p then false else s.rwwEnabled := rfl
@[simp] theorem startWrite_sessLast (p : Nat) (s : State) : (startWrite p s).sessLast = s.sessLast := rfl
@[simp] theorem startWrite_ivsel (p : Nat) (s : State) : (startWrite p s).ivsel = s.ivsel := rfl
@[simp] theorem startWrite_led (p : Nat) (s : State) : (startWrite p s).led = s.led := rfl
@[simp] theorem startWrite_rstcauseReg (p : Nat) (s : State) : (startWrite p s).rstcauseReg = s.rstcauseReg := rfl
@[simp] theorem startWrite_resetCause (p : Nat) (s : State) : (startWrite p s).resetCause = s.resetCause := rfl
@[simp] theorem startWrite_magicKey (p : Nat) (s : State) : (startWrite p s).magicKey = s.magicKey := rfl
@[simp] theorem startWrite_timeoutCounter (p : Nat) (s : State) : (startWrite p s).timeoutCounter = s.timeoutCounter := rfl
@[simp] theorem startWrite_timerRunning (p : Nat) (s : State) : (startWrite p s).timerRunning = s.timerRunning := rfl
@[simp] theorem startWrite_wdtEnabled (p : Nat) (s : State) : (startWrite p s).wdtEnabled = s.wdtEnabled := rfl
@[simp] theorem startWrite_bootPhase (p : Nat) (s : State) : (startWrite p s).bootPhase = s.bootPhase := rfl
@[simp] theorem startWrite_intEn (p : Nat) (s : State) : (startWrite p s).intEn = s.intEn := rfl
@[simp] theorem startWrite_faults (p : Nat) (s : State) : (startWrite p s).faults = s.faults := rfl
@[simp] theorem startWrite_script (p : Nat) (s : State) : (startWrite p s).script = s.script := rfl
@[simp] theorem startWrite_trace (p : Nat) (s : State) : (startWrite p s).trace = s.trace := rfl
@[simp] theorem startWrite_offs (p : Nat) (s : State) : (startWrite p s).offs = s.offs := rfl
@[simp] theorem startWrite_draws (p : Nat) (s : State) : (startWrite p s).draws = s.draws := rfl

@[simp] theorem rwwEnable_par (s : State) : (rwwEnable s).par = s.par := rfl
@[simp] theorem rwwEnable_latch (s : State) : (rwwEnable s).latch = s.latch := rfl
@[simp] theorem rwwEnable_fsm (s : State) : (rwwEnable s).fsm = s.fsm := rfl
@[simp] theorem rwwEnable_tx (s : State) : (rwwEnable s).tx = s.tx := rfl
@[simp] theorem rwwEnable_newAddr (s : State) : (rwwEnable s).newAddr = s.newAddr := rfl
@[simp] theorem rwwEnable_rxCnt (s : State) : (rwwEnable s).rxCnt = s.rxCnt := rfl
@[simp] theorem rwwEnable_fl (s : State) : (rwwEnable s).fl = s.fl := rfl
@[simp] theorem rwwEnable_ep0SetupFull (s : State) : (rwwEnable s).ep0SetupFull = s.ep0SetupFull := rfl
@[simp] theorem rwwEnable_ep0SetupBuf (s : State) : (rwwEnable s).ep0SetupBuf = s.ep0SetupBuf := rfl
@[simp] theorem rwwEnable_ep0OutFull (s : State) : (rwwEnable s).ep0OutFull = s.ep0OutFull := rfl
@[simp] theorem rwwEnable_ep0OutBuf (s : State) : (rwwEnable s).ep0OutBuf = s.ep0OutBuf := rfl
@[simp] theorem rwwEnable_ep0InArmed (s : State) : (rwwEnable s).ep0InArmed = s.ep0InArmed := rfl
@[simp] theorem rwwEnable_ep0InBuf (s : State) : (rwwEnable s).ep0InBuf = s.ep0InBuf := rfl
@[simp] theorem rwwEnable_ep0Stall (s : State) : (rwwEnable s).ep0Stall = s.ep0Stall := rfl
@[simp] theorem rwwEnable_ep0Configured (s : State) : (rwwEnable s).ep0Configured = s.ep0Configured := rfl
@[simp] theorem rwwEnable_devAddr (s : State) : (rwwEnable s).devAddr = s.devAddr := rfl
@[simp] theorem rwwEnable_addrEn (s : State) : (rwwEnable s).addrEn = s.addrEn := rfl
@[simp] theorem rwwEnable_usbConfiguration (s : State) : (rwwEnable s).usbConfiguration = s.usbConfiguration := rfl
@[simp] theorem rwwEnable_ep1Enabled (s : State) : (rwwEnable s).ep1Enabled = s.ep1Enabled := rfl
@[simp] theorem rwwEnable_usbEnabled (s : State) : (rwwEnable s).usbEnabled = s.usbEnabled := rfl
@[simp] theorem rwwEnable_usbAttached (s : State) : (rwwEnable s).usbAttached = s.usbAttached := rfl
@[simp] theorem rwwEnable_busresetPending (s : State) : (rwwEnable s).busresetPending = s.busresetPending := rfl
@[simp] theorem rwwEnable_rpt (s : State) : (rwwEnable s).rpt = s.rpt := rfl
@[simp] theorem rwwEnable_flash (s : State) : (rwwEnable s).flash = s.flash := rfl
@[simp] theorem rwwEnable_pbData (s : State) : (rwwEnable s).pbData = [] := rfl
@[simp] theorem rwwEnable_pbTag (s : State) : (rwwEnable s).pbTag = none := rfl
@[simp] theorem rwwEnable_nvmOp (s : State) : (rwwEnable s).nvmOp = s.nvmOp := rfl
@[simp] theorem rwwEnable_rwwEnabled (s : State) : (rwwEnable s).rwwEnabled = true := rfl
@[simp] theorem rwwEnable_sessLast (s : State) : (rwwEnable s).sessLast = s.sessLast := rfl
@[simp] theorem rwwEnable_ivsel (s : State) : (rwwEnable s).ivsel = s.ivsel := rfl
@[simp] theorem rwwEnable_led (s : State) : (rwwEnable s).led = s.led := rfl
@[simp] theorem rwwEnable_rstcauseReg (s : State) : (rwwEnable s).rstcauseReg = s.rstcauseReg := rfl
@[simp] theorem rwwEnable_resetCause (s : State) : (rwwEnable s).resetCause = s.resetCause := rfl
@[simp] theorem rwwEnable_magicKey (s : State) : (rwwEnable s).magicKey = s.magicKey := rfl
@[simp] theorem rwwEnable_timeoutCounter (s : State) : (rwwEnable s).timeoutCounter = s.timeoutCounter := rfl
@[simp] theorem rwwEnable_timerRunning (s : State) : (rwwEnable s).timerRunning = s.timerRunning := rfl
@[simp] theorem rwwEnable_wdtEnabled (s : State) : (rwwEnable s).wdtEnabled = s.wdtEnabled := rfl
@[simp] theorem rwwEnable_bootPhase (s : State) : (rwwEnable s).bootPhase = s.bootPhase := rfl
@[simp] theorem rwwEnable_intEn (s : State) : (rwwEnable s).intEn = s.intEn := rfl
@[simp] theorem rwwEnable_faults (s : State) : (rwwEnable s).faults = s.faults := rfl
@[simp] theorem rwwEnable_script (s : State) : (rwwEnable s).script = s.script := rfl
@[simp] theorem rwwEnable_trace (s : State) : (rwwEnable s).trace = s.trace := rfl
@[simp] theorem rwwEnable_offs (s : State) : (rwwEnable s).offs = s.offs := rfl
@[simp] theorem rwwEnable_draws (s : State) : (rwwEnable s).draws = s.draws := rfl

@[simp] theorem fill_par (a : Nat) (w : Word16) (s : State) : (fill a w s).par = s.par := rfl
@[simp] theorem fill_latch (a : Nat) (w : Word16) (s : State) : (fill a w s).latch = s.latch := rfl
@[simp] theorem fill_fsm (a : Nat) (w : Word16) (s : State) : (fill a w s).fsm = s.fsm := rfl
@[simp] theorem fill_tx (a : Nat) (w : Word16) (s : State) : (fill a w s).tx = s.tx := rfl
@[simp] theorem fill_newAddr (a : Nat) (w : Word16) (s : State) : (fill a w s).newAddr = s.newAddr := rfl
@[simp] theorem fill_rxCnt (a : Nat) (w : Word16) (s : State) : (fill a w s).rxCnt = s.rxCnt := rfl
@[simp] theorem fill_fl (a : Nat) (w : Word16) (s : State) : (fill a w s).fl = s.fl := rfl
@[simp] theorem fill_ep0SetupFull (a : Nat) (w : Word16) (s : State) : (fill a w s).ep0SetupFull = s.ep0SetupFull := rfl
@[simp] theorem fill_ep0SetupBuf (a : Nat) (w : Word16) (s : State) : (fill a w s).ep0SetupBuf = s.ep0SetupBuf := rfl
@[simp] theorem fill_ep0OutFull (a : Nat) (w : Word16) (s : State) : (fill a w s).ep0OutFull = s.ep0OutFull := rfl
@[simp] theorem fill_ep0OutBuf (a : Nat) (w : Word16) (s : State) : (fill a w s).ep0OutBuf = s.ep0OutBuf := rfl
@[simp] theorem fill_ep0InArmed (a : Nat) (w : Word16) (s : State) : (fill a w s).ep0InArmed = s.ep0InArmed := rfl
@[simp] theorem fill_ep0InBuf (a : Nat) (w : Word16) (s : State) : (fill a w s).ep0InBuf = s.ep0InBuf := rfl
@[simp] theorem fill_ep0Stall (a : Nat) (w : Word16) (s : State) : (fill a w s).ep0Stall = s.ep0Stall := rfl
@[simp] theorem fill_ep0Configured (a : Nat) (w : Word16) (s : State) : (fill a w s).ep0Configured = s.ep0Configured := rfl
@[simp] theorem fill_devAddr (a : Nat) (w : Word16) (s : State) : (fill a w s).devAddr = s.devAddr := rfl
@[simp] theorem fill_addrEn (a : Nat) (w : Word16) (s : State) : (fill a w s).addrEn = s.addrEn := rfl
@[simp] theorem fill_usbConfiguration (a : Nat) (w : Word16) (s : State) : (fill a w s).usbConfiguration = s.usbConfiguration := rfl
@[simp] theorem fill_ep1Enabled (a : Nat) (w : Word16) (s : State) : (fill a w s).ep1Enabled = s.ep1Enabled := rfl
@[simp] theorem fill_usbEnabled (a : Nat) (w : Word16) (s : State) : (fill a w s).usbEnabled = s.usbEnabled := rfl
@[simp] theorem fill_usbAttached (a : Nat) (w : Word16) (s : State) : (fill a w s).usbAttached = s.usbAttached := rfl
@[simp] theorem fill_busresetPending (a : Nat) (w : Word16) (s : State) : (fill a w s).busresetPending = s.busresetPending := rfl
@[simp] theorem fill_rpt (a : Nat) (w : Word16) (s : State) : (fill a w s).rpt = s.rpt := rfl
@[simp] theorem fill_flash (a : Nat) (w : Word16) (s : State) : (fill a w s).flash = s.flash := rfl
@[simp] theorem fill_pbData (a : Nat) (w : Word16) (s : State) : (fill a w s).pbData = (s.pbData.write (offsetOf s.par a) (lo8 w)).write (offsetOf s.par a + 1) (hi8 w) := rfl
@[simp] theorem fill_pbTag (a : Nat) (w : Word16) (s : State) : (fill a w s).pbTag = some (pageOf s.par a) := rfl
@[simp] theorem fill_nvmOp (a : Nat) (w : Word16) (s : State) : (fill a w s).nvmOp = s.nvmOp := rfl
@[simp] theorem fill_rwwEnabled (a : Nat) (w : Word16) (s : State) : (fill a w s).rwwEnabled = s.rwwEnabled := rfl
@[simp] theorem fill_sessLast (a : Nat) (w : Word16) (s : State) : (fill a w s).sessLast = s.sessLast := rfl
@[simp] theorem fill_ivsel (a : Nat) (w : Word16) (s : State) : (fill a w s).ivsel = s.ivsel := rfl
@[simp] theorem fill_led (a : Nat) (w : Word16) (s : State) : (fill a w s).led = s.led := rfl
@[simp] theorem fill_rstcauseReg (a : Nat) (w : Word16) (s : State) : (fill a w s).rstcauseReg = s.rstcauseReg := rfl
@[simp] theorem fill_resetCause (a : Nat) (w : Word16) (s : State) : (fill a w s).resetCause = s.resetCause := rfl
@[simp] theorem fill_magicKey (a : Nat) (w : Word16) (s : State) : (fill a w s).magicKey = s.magicKey := rfl
@[simp] theorem fill_timeoutCounter (a : Nat) (w : Word16) (s : State) : (fill a w s).timeoutCounter = s.timeoutCounter := rfl
@[simp] theorem fill_timerRunning (a : Nat) (w : Word16) (s : State) : (fill a w s).timerRunning = s.timerRunning := rfl
@[simp] theorem fill_wdtEnabled (a : Nat) (w : Word16) (s : State) : (fill a w s).wdtEnabled = s.wdtEnabled := rfl
@[simp] theorem fill_bootPhase (a : Nat) (w : Word16) (s : State) : (fill a w s).bootPhase = s.bootPhase := rfl
@[simp] theorem fill_intEn (a : Nat) (w : Word16) (s : State) : (fill a w s).intEn = s.intEn := rfl
@[simp] theorem fill_faults (a : Nat) (w : Word16) (s : State) : (fill a w s).faults = s.faults := rfl
@[simp] theorem fill_script (a : Nat) (w : Word16) (s : State) : (fill a w s).script = s.script := rfl
@[simp] theorem fill_trace (a : Nat) (w : Word16) (s : State) : (fill a w s).trace = s.trace := rfl
@[simp] theorem fill_offs (a : Nat) (w : Word16) (s : State) : (fill a w s).offs = s.offs := rfl
@[simp] theorem fill_draws (a : Nat) (w : Word16) (s : State) : (fill a w s).draws = s.draws := rfl

@[simp] theorem eraseDone_par (p : Nat) (s : State) : (eraseDone p s).par = s.par := rfl
@[simp] theorem eraseDone_latch (p : Nat) (s : State) : (eraseDone p s).latch = s.latch := rfl
@[simp] theorem eraseDone_fsm (p : Nat) (s : State) : (eraseDone p s).fsm = s.fsm := rfl
@[simp] theorem eraseDone_tx (p : Nat) (s : State) : (eraseDone p s).tx = s.tx := rfl
@[simp] theorem eraseDone_newAddr (p : Nat) (s : State) : (eraseDone p s).newAddr = s.newAddr := rfl
@[simp] theorem eraseDone_rxCnt (p : Nat) (s : State) : (eraseDone p s).rxCnt = s.rxCnt := rfl
@[simp] theorem eraseDone_fl (p : Nat) (s : State) : (eraseDone p s).fl = s.fl := rfl
@[simp] theorem eraseDone_ep0SetupFull (p : Nat) (s : State) : (eraseDone p s).ep0SetupFull = s.ep0SetupFull := rfl
@[simp] theorem eraseDone_ep0SetupBuf (p : Nat) (s : State) : (eraseDone p s).ep0SetupBuf = s.ep0SetupBuf := rfl
@[simp] theorem eraseDone_ep0OutFull (p : Nat) (s : State) : (eraseDone p s).ep0OutFull = s.ep0OutFull := rfl
@[simp] theorem eraseDone_ep0OutBuf (p : Nat) (s : State) : (eraseDone p s).ep0OutBuf = s.ep0OutBuf := rfl
@[simp] theorem eraseDone_ep0InArmed (p : Nat) (s : State) : (eraseDone p s).ep0InArmed = s.ep0InArmed := rfl
@[simp] theorem eraseDone_ep0InBuf (p : Nat) (s : State) : (eraseDone p s).ep0InBuf = s.ep0InBuf := rfl
@[simp] theorem eraseDone_ep0Stall (p : Nat) (s : State) : (eraseDone p s).ep0Stall = s.ep0Stall := rfl
@[simp] theorem eraseDone_ep0Configured (p : Nat) (s : State) : (eraseDone p s).ep0Configured = s.ep0Configured := rfl
@[simp] theorem eraseDone_devAddr (p : Nat) (s : State) : (eraseDone p s).devAddr = s.devAddr := rfl
@[simp] theorem eraseDone_addrEn (p : Nat) (s : State) : (eraseDone p s).addrEn = s.addrEn := rfl
@[simp] theorem eraseDone_usbConfiguration (p : Nat) (s : State) : (eraseDone p s).usbConfiguration = s.usbConfiguration := rfl
@[simp] theorem eraseDone_ep1Enabled (p : Nat) (s : State) : (eraseDone p s).ep1Enabled = s.ep1Enabled := rfl
@[simp] theorem eraseDone_usbEnabled (p : Nat) (s : State) : (eraseDone p s).usbEnabled = s.usbEnabled := rfl
@[simp] theorem eraseDone_usbAttached (p : Nat) (s : State) : (eraseDone p s).usbAttached = s.usbAttached := rfl
@[simp] theorem eraseDone_busresetPending (p : Nat) (s : State) : (eraseDone p s).busresetPending = s.busresetPending := rfl
@[simp] theorem eraseDone_rpt (p : Nat) (s : State) : (eraseDone p s).rpt = s.rpt := rfl
@[simp] theorem eraseDone_flash (p : Nat) (s : State) : (eraseDone p s).flash = s.flash.eraseRange (pageBase s.par p) s.par.pageSize := rfl
@[simp] theorem eraseDone_pbData (p : Nat) (s : State) : (eraseDone p s).pbData = s.pbData := rfl
@[simp] theorem eraseDone_pbTag (p : Nat) (s : State) : (eraseDone p s).pbTag = s.pbTag := rfl
@[simp] theorem eraseDone_nvmOp (p : Nat) (s : State) : (eraseDone p s).nvmOp = .idle := rfl
@[simp] theorem eraseDone_rwwEnabled (p : Nat) (s : State) : (eraseDone p s).rwwEnabled = s.rwwEnabled := rfl
@[simp] theorem eraseDone_sessLast (p : Nat) (s : State) : (eraseDone p s).sessLast = s.sessLast := rfl
@[simp] theorem eraseDone_ivsel (p : Nat) (s : State) : (eraseDone p s).ivsel = s.ivsel := rfl
@[simp] theorem eraseDone_led (p : Nat) (s : State) : (eraseDone p s).led = s.led := rfl
@[simp] theorem eraseDone_rstcauseReg (p : Nat) (s : State) : (eraseDone p s).rstcauseReg = s.rstcauseReg := rfl
@[simp] theorem eraseDone_resetCause (p : Nat) (s : State) : (eraseDone p s).resetCause = s.resetCause := rfl
@[simp] theorem eraseDone_magicKey (p : Nat) (s : State) : (eraseDone p s).magicKey = s.magicKey := rfl
@[simp] theorem eraseDone_timeoutCounter (p : Nat) (s : State) : (eraseDone p s).timeoutCounter = s.timeoutCounter := rfl
@[simp] theorem eraseDone_timerRunning (p : Nat) (s : State) : (eraseDone p s).timerRunning = s.timerRunning := rfl
@[simp] theorem eraseDone_wdtEnabled (p : Nat) (s : State) : (eraseDone p s).wdtEnabled = s.wdtEnabled := rfl
@[simp] theorem eraseDone_bootPhase (p : Nat) (s : State) : (eraseDone p s).bootPhase = s.bootPhase := rfl
@[simp] theorem eraseDone_intEn (p : Nat) (s : State) : (eraseDone p s).intEn = s.intEn := rfl
@[simp] theorem eraseDone_faults (p : Nat) (s : State) : (eraseDone p s).faults = s.faults := rfl
@[simp] theorem eraseDone_script (p : Nat) (s : State) : (eraseDone p s).script = s.script := rfl
@[simp] theorem eraseDone_trace (p : Nat) (s : State) : (eraseDone p s).trace = s.trace := rfl
@[simp] theorem eraseDone_offs (p : Nat) (s : State) : (eraseDone p s).offs = s.offs := rfl
@[simp] theorem eraseDone_draws (p : Nat) (s : State) : (eraseDone p s).draws = s.draws := rfl

@[simp] theorem writeDone_par (p : Nat) (s : State) : (writeDone p s).par = s.par := rfl
@[simp] theorem writeDone_latch (p : Nat) (s : State) : (writeDone p s).latch = s.latch := rfl
@[simp] theorem writeDone_fsm (p : Nat) (s : State) : (writeDone p s).fsm = s.fsm := rfl
@[simp] theorem writeDone_tx (p : Nat) (s : State) : (writeDone p s).tx = s.tx := rfl
@[simp] theorem writeDone_newAddr (p : Nat) (s : State) : (writeDone p s).newAddr = s.newAddr := rfl
@[simp] theorem writeDone_rxCnt (p : Nat) (s : State) : (writeDone p s).rxCnt = s.rxCnt := rfl
@[simp] theorem writeDone_fl (p : Nat) (s : State) : (writeDone p s).fl = s.fl := rfl
@[simp] theorem writeDone_ep0SetupFull (p : Nat) (s : State) : (writeDone p s).ep0SetupFull = s.ep0SetupFull := rfl
@[simp] theorem writeDone_ep0SetupBuf (p : Nat) (s : State) : (writeDone p s).ep0SetupBuf = s.ep0SetupBuf := rfl
@[simp] theorem writeDone_ep0OutFull (p : Nat) (s : State) : (writeDone p s).ep0OutFull = s.ep0OutFull := rfl
@[simp] theorem writeDone_ep0OutBuf (p : Nat) (s : State) : (writeDone p s).ep0OutBuf = s.ep0OutBuf := rfl
@[simp] theorem writeDone_ep0InArmed (p : Nat) (s : State) : (writeDone p s).ep0InArmed = s.ep0InArmed := rfl
@[simp] theorem writeDone_ep0InBuf (p : Nat) (s : State) : (writeDone p s).ep0InBuf = s.ep0InBuf := rfl
@[simp] theorem writeDone_ep0Stall (p : Nat) (s : State) : (writeDone p s).ep0Stall = s.ep0Stall := rfl
@[simp] theorem writeDone_ep0Configured (p : Nat) (s : State) : (writeDone p s).ep0Configured = s.ep0Configured := rfl
@[simp] theorem writeDone_devAddr (p : Nat) (s : State) : (writeDone p s).devAddr = s.devAddr := rfl
@[simp] theorem writeDone_addrEn (p : Nat) (s : State) : (writeDone p s).addrEn = s.addrEn := rfl
@[simp] theorem writeDone_usbConfiguration (p : Nat) (s : State) : (writeDone p s).usbConfiguration = s.usbConfiguration := rfl
@[simp] theorem writeDone_ep1Enabled (p : Nat) (s : State) : (writeDone p s).ep1Enabled = s.ep1Enabled := rfl
@[simp] theorem writeDone_usbEnabled (p : Nat) (s : State) : (writeDone p s).usbEnabled = s.usbEnabled := rfl
@[simp] theorem writeDone_usbAttached (p : Nat) (s : State) : (writeDone p s).usbAttached = s.usbAttached := rfl
@[simp] theorem writeDone_busresetPending (p : Nat) (s : State) : (writeDone p s).busresetPending = s.busresetPending := rfl
@[simp] theorem writeDone_rpt (p : Nat) (s : State) : (writeDone p s).rpt = s.rpt := rfl
@[simp] theorem writeDone_flash (p : Nat) (s : State) : (writeDone p s).flash = s.flash.writeRange (pageBase s.par p) s.par.pageSize s.pbData.read := rfl
@[simp] theorem writeDone_pbData (p : Nat) (s : State) : (writeDone p s).pbData = [] := rfl
@[simp] theorem writeDone_pbTag (p : Nat) (s : State) : (writeDone p s).pbTag = none := rfl
@[simp] theorem writeDone_nvmOp (p : Nat) (s : State) : (writeDone p s).nvmOp = .idle := rfl
@[simp] theorem writeDone_rwwEnabled (p : Nat) (s : State) : (writeDone p s).rwwEnabled = s.rwwEnabled := rfl
@[simp] theorem writeDone_sessLast (p : Nat) (s : State) : (writeDone p s).sessLast = s.sessLast := rfl
@[simp] theorem writeDone_ivsel (p : Nat) (s : State) : (writeDone p s).ivsel = s.ivsel := rfl
@[simp] theorem writeDone_led (p : Nat) (s : State) : (writeDone p s).led = s.led := rfl
@[simp] theorem writeDone_rstcauseReg (p : Nat) (s : State) : (writeDone p s).rstcauseReg = s.rstcauseReg := rfl
@[simp] theorem writeDone_resetCause (p : Nat) (s : State) : (writeDone p s).resetCause = s.resetCause := rfl
@[simp] theorem writeDone_magicKey (p : Nat) (s : State) : (writeDone p s).magicKey = s.magicKey := rfl
@[simp] theorem writeDone_timeoutCounter (p : Nat) (s : State) : (writeDone p s).timeoutCounter = s.timeoutCounter := rfl
@[simp] theorem writeDone_timerRunning (p : Nat) (s : State) : (writeDone p s).timerRunning = s.timerRunning := rfl
@[simp] theorem writeDone_wdtEnabled (p : Nat) (s : State) : (writeDone p s).wdtEnabled = s.wdtEnabled := rfl
@[simp] theorem writeDone_bootPhase (p : Nat) (s : State) : (writeDone p s).bootPhase = s.bootPhase := rfl
@[simp] theorem writeDone_intEn (p : Nat) (s : State) : (writeDone p s).intEn = s.intEn := rfl
@[simp] theorem writeDone_faults (p : Nat) (s : State) : (writeDone p s).faults = s.faults := rfl
@[simp] theorem writeDone_script (p : Nat) (s : State) : (writeDone p s).script = s.script := rfl
@[simp] theorem writeDone_trace (p : Nat) (s : State) : (writeDone p s).trace = s.trace := rfl
@[simp] theorem writeDone_offs (p : Nat) (s : State) : (writeDone p s).offs = s.offs := rfl
@[simp] theorem writeDone_draws (p : Nat) (s : State) : (writeDone p s).draws = s.draws := rfl

@[simp] theorem fillAdvance_par (f : FlCtx) (w : Word16) (s : State) : (fillAdvance f w s).par = s.par := rfl
@[simp] theorem fillAdvance_latch (f : FlCtx) (w : Word16) (s : State) : (fillAdvance f w s).latch = s.latch := rfl
@[simp] theorem fillAdvance_fsm (f : FlCtx) (w : Word16) (s : State) : (fillAdvance f w s).fsm = s.fsm := rfl
@[simp] theorem fillAdvance_tx (f : FlCtx) (w : Word16) (s : State) : (fillAdvance f w s).tx = s.tx := rfl
@[simp] theorem fillAdvance_newAddr (f : FlCtx) (w : Word16) (s : State) : (fillAdvance f w s).newAddr = s.newAddr := rfl
@[simp] theorem fillAdvance_rxCnt (f : FlCtx) (w : Word16) (s : State) : (fillAdvance f w s).rxCnt = s.rxCnt := rfl
@[simp] theorem fillAdvance_fl (f : FlCtx) (w : Word16) (s : State) : (fillAdvance f w s).fl = some { f with addr := truncTo (addrWidth s.par) (f.addr + 2), i := f.i + 1 } := rfl
@[simp] theorem fillAdvance_ep0SetupFull (f : FlCtx) (w : Word16) (s : State) : (fillAdvance f w s).ep0SetupFull = s.ep0SetupFull := rfl
@[simp] theorem fillAdvance_ep0SetupBuf (f : FlCtx) (w : Word16) (s : State) : (fillAdvance f w s).ep0SetupBuf = s.ep0SetupBuf := rfl
@[simp] theorem fillAdvance_ep0OutFull (f : FlCtx) (w : Word16) (s : State) : (fillAdvance f w s).ep0OutFull = s.ep0OutFull := rfl
@[simp] theorem fillAdvance_ep0OutBuf (f : FlCtx) (w : Word16) (s : State) : (fillAdvance f w s).ep0OutBuf = s.ep0OutBuf := rfl
@[simp] theorem fillAdvance_ep0InArmed (f : FlCtx) (w : Word16) (s : State) : (fillAdvance f w s).ep0InArmed = s.ep0InArmed := rfl
@[simp] theorem fillAdvance_ep0InBuf (f : FlCtx) (w : Word16) (s : State) : (fillAdvance f w s).ep0InBuf = s.ep0InBuf := rfl
@[simp] theorem fillAdvance_ep0Stall (f : FlCtx) (w : Word16) (s : State) : (fillAdvance f w s).ep0Stall = s.ep0Stall := rfl
@[simp] theorem fillAdvance_ep0Configured (f : FlCtx) (w : Word16) (s : State) : (fillAdvance f w s).ep0Configured = s.ep0Configured := rfl
@[simp] theorem fillAdvance_devAddr (f : FlCtx) (w : Word16) (s : State) : (fillAdvance f w s).devAddr = s.devAddr := rfl
@[simp] theorem fillAdvance_addrEn (f : FlCtx) (w : Word16) (s : State) : (fillAdvance f w s).addrEn = s.addrEn := rfl
@[simp] theorem fillAdvance_usbConfiguration (f : FlCtx) (w : Word16) (s : State) : (fillAdvance f w s).usbConfiguration = s.usbConfiguration := rfl
@[simp] theorem fillAdvance_ep1Enabled (f : FlCtx) (w : Word16) (s : State) : (fillAdvance f w s).ep1Enabled = s.ep1Enabled := rfl
@[simp] theorem fillAdvance_usbEnabled (f : FlCtx) (w : Word16) (s : State) : (fillAdvance f w s).usbEnabled = s.usbEnabled := rfl
@[simp] theorem fillAdvance_usbAttached (f : FlCtx) (w : Word16) (s : State) : (fillAdvance f w s).usbAttached = s.usbAttached := rfl
@[simp] theorem fillAdvance_busresetPending (f : FlCtx) (w : Word16) (s : State) : (fillAdvance f w s).busresetPending = s.busresetPending := rfl
@[simp] theorem fillAdvance_rpt (f : FlCtx) (w : Word16) (s : State) : (fillAdvance f w s).rpt = s.rpt := rfl
@[simp] theorem fillAdvance_flash (f : FlCtx) (w : Word16) (s : State) : (fillAdvance f w s).flash = s.flash := rfl
@[simp] theorem fillAdvance_pbData (f : FlCtx) (w : Word16) (s : State) : (fillAdvance f w s).pbData = (s.pbData.write (offsetOf s.par f.addr) (lo8 w)).write (offsetOf s.par f.addr + 1) (hi8 w) := rfl
@[simp] theorem fillAdvance_pbTag (f : FlCtx) (w : Word16) (s : State) : (fillAdvance f w s).pbTag = some (pageOf s.par f.addr) := rfl
@[simp] theorem fillAdvance_nvmOp (f : FlCtx) (w : Word16) (s : State) : (fillAdvance f w s).nvmOp = s.nvmOp := rfl
@[simp] theorem fillAdvance_rwwEnabled (f : FlCtx) (w : Word16) (s : State) : (fillAdvance f w s).rwwEnabled = s.rwwEnabled := rfl
@[simp] theorem fillAdvance_sessLast (f : FlCtx) (w : Word16) (s : State) : (fillAdvance f w s).sessLast = some f.addr := rfl
@[simp] theorem fillAdvance_ivsel (f : FlCtx) (w : Word16) (s : State) : (fillAdvance f w s).ivsel = s.ivsel := rfl
@[simp] theorem fillAdvance_led (f : FlCtx) (w : Word16) (s : State) : (fillAdvance f w s).led = s.led := rfl
@[simp] theorem fillAdvance_rstcauseReg (f : FlCtx) (w : Word16) (s : State) : (fillAdvance f w s).rstcauseReg = s.rstcauseReg := rfl
@[simp] theorem fillAdvance_resetCause (f : FlCtx) (w : Word16) (s : State) : (fillAdvance f w s).resetCause = s.resetCause := rfl
@[simp] theorem fillAdvance_magicKey (f : FlCtx) (w : Word16) (s : State) : (fillAdvance f w s).magicKey = s.magicKey := rfl
@[simp] theorem fillAdvance_timeoutCounter (f : FlCtx) (w : Word16) (s : State) : (fillAdvance f w s).timeoutCounter = s.timeoutCounter := rfl
@[simp] theorem fillAdvance_timerRunning (f : FlCtx) (w : Word16) (s : State) : (fillAdvance f w s).timerRunning = s.timerRunning := rfl
@[simp] theorem fillAdvance_wdtEnabled (f : FlCtx) (w : Word16) (s : State) : (fillAdvance f w s).wdtEnabled = s.wdtEnabled := rfl
@[simp] theorem fillAdvance_bootPhase (f : FlCtx) (w : Word16) (s : State) : (fillAdvance f w s).bootPhase = s.bootPhase := rfl
@[simp] theorem fillAdvance_intEn (f : FlCtx) (w : Word16) (s : State) : (fillAdvance f w s).intEn = s.intEn := rfl
@[simp] theorem fillAdvance_faults (f : FlCtx) (w : Word16) (s : State) : (fillAdvance f w s).faults = s.faults := rfl
@[simp] theorem fillAdvance_script (f : FlCtx) (w : Word16) (s : State) : (fillAdvance f w s).script = s.script := rfl
@[simp] theorem fillAdvance_trace (f : FlCtx) (w : Word16) (s : State) : (fillAdvance f w s).trace = s.trace := rfl
@[simp] theorem fillAdvance_offs (f : FlCtx) (w : Word16) (s : State) : (fillAdvance f w s).offs = s.offs := rfl
@[simp] theorem fillAdvance_draws (f : FlCtx) (w : Word16) (s : State) : (fillAdvance f w s).draws = s.draws := rfl

@[simp] theorem armNext_par (c : TxCtx) (s : State) : (armNext c s).par = s.par := rfl
@[simp] theorem armNext_latch (c : TxCtx) (s : State) : (armNext c s).latch = s.latch := rfl
@[simp] theorem armNext_fsm (c : TxCtx) (s : State) : (armNext c s).fsm = s.fsm := rfl
@[simp] theorem armNext_tx (c : TxCtx) (s : State) : (armNext c s).tx = some { c with off := c.off + min c.rem 64, rem := c.rem - min c.rem 64, n := min c.rem 64 } := rfl
@[simp] theorem armNext_newAddr (c : TxCtx) (s : State) : (armNext c s).newAddr = s.newAddr := rfl
@[simp] theorem armNext_rxCnt (c : TxCtx) (s : State) : (armNext c s).rxCnt = s.rxCnt := rfl
@[simp] theorem armNext_fl (c : TxCtx) (s : State) : (armNext c s).fl = s.fl := rfl
@[simp] theorem armNext_ep0SetupFull (c : TxCtx) (s : State) : (armNext c s).ep0SetupFull = s.ep0SetupFull := rfl
@[simp] theorem armNext_ep0SetupBuf (c : TxCtx) (s : State) : (armNext c s).ep0SetupBuf = s.ep0SetupBuf := rfl
@[simp] theorem armNext_ep0OutFull (c : TxCtx) (s : State) : (armNext c s).ep0OutFull = s.ep0OutFull := rfl
@[simp] theorem armNext_ep0OutBuf (c : TxCtx) (s : State) : (armNext c s).ep0OutBuf = s.ep0OutBuf := rfl
@[simp] theorem armNext_ep0InArmed (c : TxCtx) (s : State) : (armNext c s).ep0InArmed = (s.ep0Configured || s.ep0InArmed) := rfl
@[simp] theorem armNext_ep0InBuf (c : TxCtx) (s : State) : (armNext c s).ep0InBuf = if s.ep0Configured then (c.data.drop c.off).take (min c.rem 64) else s.ep0InBuf := rfl
@[simp] theorem armNext_ep0Stall (c : TxCtx) (s : State) : (armNext c s).ep0Stall = s.ep0Stall := rfl
@[simp] theorem armNext_ep0Configured (c : TxCtx) (s : State) : (armNext c s).ep0Configured = s.ep0Configured := rfl
@[simp] theorem armNext_devAddr (c : TxCtx) (s : State) : (armNext c s).devAddr = s.devAddr := rfl
@[simp] theorem armNext_addrEn (c : TxCtx) (s : State) : (armNext c s).addrEn = s.addrEn := rfl
@[simp] theorem armNext_usbConfiguration (c : TxCtx) (s : State) : (armNext c s).usbConfiguration = s.usbConfiguration := rfl
@[simp] theorem armNext_ep1Enabled (c : TxCtx) (s : State) : (armNext c s).ep1Enabled = s.ep1Enabled := rfl
@[simp] theorem armNext_usbEnabled (c : TxCtx) (s : State) : (armNext c s).usbEnabled = s.usbEnabled := rfl
@[simp] theorem armNext_usbAttached (c : TxCtx) (s : State) : (armNext c s).usbAttached = s.usbAttached := rfl
@[simp] theorem armNext_busresetPending (c : TxCtx) (s : State) : (armNext c s).busresetPending = s.busresetPending := rfl
@[simp] theorem armNext_rpt (c : TxCtx) (s : State) : (armNext c s).rpt = s.rpt := rfl
@[simp] theorem armNext_flash (c : TxCtx) (s : State) : (armNext c s).flash = s.flash := rfl
@[simp] theorem armNext_pbData (c : TxCtx) (s : State) : (armNext c s).pbData = s.pbData := rfl
@[simp] theorem armNext_pbTag (c : TxCtx) (s : State) : (armNext c s).pbTag = s.pbTag := rfl
@[simp] theorem armNext_nvmOp (c : TxCtx) (s : State) : (armNext c s).nvmOp = s.nvmOp := rfl
@[simp] theorem armNext_rwwEnabled (c : TxCtx) (s : State) : (armNext c s).rwwEnabled = s.rwwEnabled := rfl
@[simp] theorem armNext_sessLast (c : TxCtx) (s : State) : (armNext c s).sessLast = s.sessLast := rfl
@[simp] theorem armNext_ivsel (c : TxCtx) (s : State) : (armNext c s).ivsel = s.ivsel := rfl
@[simp] theorem armNext_led (c : TxCtx) (s : State) : (armNext c s).led = s.led := rfl
@[simp] theorem armNext_rstcauseReg (c : TxCtx) (s : State) : (armNext c s).rstcauseReg = s.rstcauseReg := rfl
@[simp] theorem armNext_resetCause (c : TxCtx) (s : State) : (armNext c s).resetCause = s.resetCause := rfl
@[simp] theorem armNext_magicKey (c : TxCtx) (s : State) : (armNext c s).magicKey = s.magicKey := rfl
@[simp] theorem armNext_timeoutCounter (c : TxCtx) (s : State) : (armNext c s).timeoutCounter = s.timeoutCounter := rfl
@[simp] theorem armNext_timerRunning (c : TxCtx) (s : State) : (armNext c s).timerRunning = s.timerRunning := rfl
@[simp] theorem armNext_wdtEnabled (c : TxCtx) (s : State) : (armNext c s).wdtEnabled = s.wdtEnabled := rfl
@[simp] theorem armNext_bootPhase (c : TxCtx) (s : State) : (armNext c s).bootPhase = s.bootPhase := rfl
@[simp] theorem armNext_intEn (c : TxCtx) (s : State) : (armNext c s).intEn = s.intEn := rfl
@[simp] theorem armNext_faults (c : TxCtx) (s : State) : (armNext c s).faults = s.faults := rfl
@[simp] theorem armNext_script (c : TxCtx) (s : State) : (armNext c s).script = s.script := rfl
@[simp] theorem armNext_trace (c : TxCtx) (s : State) : (armNext c s).trace = s.trace := rfl
@[simp] theorem armNext_offs (c : TxCtx) (s : State) : (armNext c s).offs = s.offs := rfl
@[simp] theorem armNext_draws (c : TxCtx) (s : State) : (armNext c s).draws = s.draws := rfl

@[simp] theorem storePacket_par (rx : Nat) (s : State) : (storePacket rx s).par = s.par := rfl
@[simp] theorem storePacket_latch (rx : Nat) (s : State) : (storePacket rx s).latch = s.latch := rfl
@[simp] theorem storePacket_fsm (rx : Nat) (s : State) : (storePacket rx s).fsm = s.fsm := rfl
@[simp] theorem storePacket_tx (rx : Nat) (s : State) : (storePacket rx s).tx = s.tx := rfl
@[simp] theorem storePacket_newAddr (rx : Nat) (s : State) : (storePacket rx s).newAddr = s.newAddr := rfl
@[simp] theorem storePacket_rxCnt (rx : Nat) (s : State) : (storePacket rx s).rxCnt = some (rx + s.ep0OutBuf.length) := rfl
@[simp] theorem storePacket_fl (rx : Nat) (s : State) : (storePacket rx s).fl = s.fl := rfl
@[simp] theorem storePacket_ep0SetupFull (rx : Nat) (s : State) : (storePacket rx s).ep0SetupFull = s.ep0SetupFull := rfl
@[simp] theorem storePacket_ep0SetupBuf (rx : Nat) (s : State) : (storePacket rx s).ep0SetupBuf = s.ep0SetupBuf := rfl
@[simp] theorem storePacket_ep0OutFull (rx : Nat) (s : State) : (storePacket rx s).ep0OutFull = false := rfl
@[simp] theorem storePacket_ep0OutBuf (rx : Nat) (s : State) : (storePacket rx s).ep0OutBuf = [] := rfl
@[simp] theorem storePacket_ep0InArmed (rx : Nat) (s : State) : (storePacket rx s).ep0InArmed = s.ep0InArmed := rfl
@[simp] theorem storePacket_ep0InBuf (rx : Nat) (s : State) : (storePacket rx s).ep0InBuf = s.ep0InBuf := rfl
@[simp] theorem storePacket_ep0Stall (rx : Nat) (s : State) : (storePacket rx s).ep0Stall = s.ep0Stall := rfl
@[simp] theorem storePacket_ep0Configured (rx : Nat) (s : State) : (storePacket rx s).ep0Configured = s.ep0Configured := rfl
@[simp] theorem storePacket_devAddr (rx : Nat) (s : State) : (storePacket rx s).devAddr = s.devAddr := rfl
@[simp] theorem storePacket_addrEn (rx : Nat) (s : State) : (storePacket rx s).addrEn = s.addrEn := rfl
@[simp] theorem storePacket_usbConfiguration (rx : Nat) (s : State) : (storePacket rx s).usbConfiguration = s.usbConfiguration := rfl
@[simp] theorem storePacket_ep1Enabled (rx : Nat) (s : State) : (storePacket rx s).ep1Enabled = s.ep1Enabled := rfl
@[simp] theorem storePacket_usbEnabled (rx : Nat) (s : State) : (storePacket rx s).usbEnabled = s.usbEnabled := rfl
@[simp] theorem storePacket_usbAttached (rx : Nat) (s : State) : (storePacket rx s).usbAttached = s.usbAttached := rfl
@[simp] theorem storePacket_busresetPending (rx : Nat) (s : State) : (storePacket rx s).busresetPending = s.busresetPending := rfl
@[simp] theorem storePacket_rpt (rx : Nat) (s : State) : (storePacket rx s).rpt = rptStore s.rpt rx s.ep0OutBuf := rfl
@[simp] theorem storePacket_flash (rx : Nat) (s : State) : (storePacket rx s).flash = s.flash := rfl
@[simp] theorem storePacket_pbData (rx : Nat) (s : State) : (storePacket rx s).pbData = s.pbData := rfl
@[simp] theorem storePacket_pbTag (rx : Nat) (s : State) : (storePacket rx s).pbTag = s.pbTag := rfl
@[simp] theorem storePacket_nvmOp (rx : Nat) (s : State) : (storePacket rx s).nvmOp = s.nvmOp := rfl
@[simp] theorem storePacket_rwwEnabled (rx : Nat) (s : State) : (storePacket rx s).rwwEnabled = s.rwwEnabled := rfl
@[simp] theorem storePacket_sessLast (rx : Nat) (s : State) : (storePacket rx s).sessLast = s.sessLast := rfl
@[simp] theorem storePacket_ivsel (rx : Nat) (s : State) : (storePacket rx s).ivsel = s.ivsel := rfl
@[simp] theorem storePacket_led (rx : Nat) (s : State) : (storePacket rx s).led = s.led := rfl
@[simp] theorem storePacket_rstcauseReg (rx : Nat) (s : State) : (storePacket rx s).rstcauseReg = s.rstcauseReg := rfl
@[simp] theorem storePacket_resetCause (rx : Nat) (s : State) : (storePacket rx s).resetCause = s.resetCause := rfl
@[simp] theorem storePacket_magicKey (rx : Nat) (s : State) : (storePacket rx s).magicKey = s.magicKey := rfl
@[simp] theorem storePacket_timeoutCounter (rx : Nat) (s : State) : (storePacket rx s).timeoutCounter = s.timeoutCounter := rfl
@[simp] theorem storePacket_timerRunning (rx : Nat) (s : State) : (storePacket rx s).timerRunning = s.timerRunning := rfl
@[simp] theorem storePacket_wdtEnabled (rx : Nat) (s : State) : (storePacket rx s).wdtEnabled = s.wdtEnabled := rfl
@[simp] theorem storePacket_bootPhase (rx : Nat) (s : State) : (storePacket rx s).bootPhase = s.bootPhase := rfl
@[simp] theorem storePacket_intEn (rx : Nat) (s : State) : (storePacket rx s).intEn = s.intEn := rfl
@[simp] theorem storePacket_faults (rx : Nat) (s : State) : (storePacket rx s).faults = s.faults := rfl
@[simp] theorem storePacket_script (rx : Nat) (s : State) : (storePacket rx s).script = s.script := rfl
@[simp] theorem storePacket_trace (rx : Nat) (s : State) : (storePacket rx s).trace = s.trace := rfl
@[simp] theorem storePacket_offs (rx : Nat) (s : State) : (storePacket rx s).offs = s.offs := rfl
@[simp] theorem storePacket_draws (rx : Nat) (s : State) : (storePacket rx s).draws = s.draws := rfl

@[simp] theorem usbOff_par (s : State) : (usbOff s).par = s.par := rfl
@[simp] theorem usbOff_latch (s : State) : (usbOff s).latch = s.latch := rfl
@[simp] theorem usbOff_fsm (s : State) : (usbOff s).fsm = s.fsm := rfl
@[simp] theorem usbOff_tx (s : State) : (usbOff s).tx = s.tx := rfl
@[simp] theorem usbOff_newAddr (s : State) : (usbOff s).newAddr = s.newAddr := rfl
@[simp] theorem usbOff_rxCnt (s : State) : (usbOff s).rxCnt = s.rxCnt := rfl
@[simp] theorem usbOff_fl (s : State) : (usbOff s).fl = s.fl := rfl
@[simp] theorem usbOff_ep0SetupFull (s : State) : (usbOff s).ep0SetupFull = false := rfl
@[simp] theorem usbOff_ep0SetupBuf (s : State) : (usbOff s).ep0SetupBuf = s.ep0SetupBuf := rfl
@[simp] theorem usbOff_ep0OutFull (s : State) : (usbOff s).ep0OutFull = false := rfl
@[simp] theorem usbOff_ep0OutBuf (s : State) : (usbOff s).ep0OutBuf = s.ep0OutBuf := rfl
@[simp] theorem usbOff_ep0InArmed (s : State) : (usbOff s).ep0InArmed = false := rfl
@[simp] theorem usbOff_ep0InBuf (s : State) : (usbOff s).ep0InBuf = s.ep0InBuf := rfl
@[simp] theorem usbOff_ep0Stall (s : State) : (usbOff s).ep0Stall = false := rfl
@[simp] theorem usbOff_ep0Configured (s : State) : (usbOff s).ep0Configured = false := rfl
@[simp] theorem usbOff_devAddr (s : State) : (usbOff s).devAddr = 0 := rfl
@[simp] theorem usbOff_addrEn (s : State) : (usbOff s).addrEn = false := rfl
@[simp] theorem usbOff_usbConfiguration (s : State) : (usbOff s).usbConfiguration = s.usbConfiguration := rfl
@[simp] theorem usbOff_ep1Enabled (s : State) : (usbOff s).ep1Enabled = false := rfl
@[simp] theorem usbOff_usbEnabled (s : State) : (usbOff s).usbEnabled = false := rfl
@[simp] theorem usbOff_usbAttached (s : State) : (usbOff s).usbAttached = false := rfl
@[simp] theorem usbOff_busresetPending (s : State) : (usbOff s).busresetPending = false := rfl
@[simp] theorem usbOff_rpt (s : State) : (usbOff s).rpt = s.rpt := rfl
@[simp] theorem usbOff_flash (s : State) : (usbOff s).flash = s.flash := rfl
@[simp] theorem usbOff_pbData (s : State) : (usbOff s).pbData = s.pbData := rfl
@[simp] theorem usbOff_pbTag (s : State) : (usbOff s).pbTag = s.pbTag := rfl
@[simp] theorem usbOff_nvmOp (s : State) : (usbOff s).nvmOp = s.nvmOp := rfl
@[simp] theorem usbOff_rwwEnabled (s : State) : (usbOff s).rwwEnabled = s.rwwEnabled := rfl
@[simp] theorem usbOff_sessLast (s : State) : (usbOff s).sessLast = s.sessLast := rfl
@[simp] theorem usbOff_ivsel (s : State) : (usbOff s).ivsel = s.ivsel := rfl
@[simp] theorem usbOff_led (s : State) : (usbOff s).led = s.led := rfl
@[simp] theorem usbOff_rstcauseReg (s : State) : (usbOff s).rstcauseReg = s.rstcauseReg := rfl
@[simp] theorem usbOff_resetCause (s : State) : (usbOff s).resetCause = s.resetCause := rfl
@[simp] theorem usbOff_magicKey (s : State) : (usbOff s).magicKey = s.magicKey := rfl
@[simp] theorem usbOff_timeoutCounter (s : State) : (usbOff s).timeoutCounter = s.timeoutCounter := rfl
@[simp] theorem usbOff_timerRunning (s : State) : (usbOff s).timerRunning = s.timerRunning := rfl
@[simp] theorem usbOff_wdtEnabled (s : State) : (usbOff s).wdtEnabled = s.wdtEnabled := rfl
@[simp] theorem usbOff_bootPhase (s : State) : (usbOff s).bootPhase = s.bootPhase := rfl
@[simp] theorem usbOff_intEn (s : State) : (usbOff s).intEn = s.intEn := rfl
@[simp] theorem usbOff_faults (s : State) : (usbOff s).faults = s.faults := rfl
@[simp] theorem usbOff_script (s : State) : (usbOff s).script = s.script := rfl
@[simp] theorem usbOff_trace (s : State) : (usbOff s).trace = s.trace := rfl
@[simp] theorem usbOff_offs (s : State) : (usbOff s).offs = s.offs := rfl
@[simp] theorem usbOff_draws (s : State) : (usbOff s).draws = s.draws := rfl

@[simp] theorem usbInit_par (s : State) : (usbInit s).par = s.par := rfl
@[simp] theorem usbInit_latch (s : State) : (usbInit s).latch = s.latch := rfl
@[simp] theorem usbInit_fsm (s : State) : (usbInit s).fsm = some .idle := rfl
@[simp] theorem usbInit_tx (s : State) : (usbInit s).tx = s.tx := rfl
@[simp] theorem usbInit_newAddr (s : State) : (usbInit s).newAddr = s.newAddr := rfl
@[simp] theorem usbInit_rxCnt (s : State) : (usbInit s).rxCnt = s.rxCnt := rfl
@[simp] theorem usbInit_fl (s : State) : (usbInit s).fl = s.fl := rfl
@[simp] theorem usbInit_ep0SetupFull (s : State) : (usbInit s).ep0SetupFull = s.ep0SetupFull := rfl
@[simp] theorem usbInit_ep0SetupBuf (s : State) : (usbInit s).ep0SetupBuf = s.ep0SetupBuf := rfl
@[simp] theorem usbInit_ep0OutFull (s : State) : (usbInit s).ep0OutFull = s.ep0OutFull := rfl
@[simp] theorem usbInit_ep0OutBuf (s : State) : (usbInit s).ep0OutBuf = s.ep0OutBuf := rfl
@[simp] theorem usbInit_ep0InArmed (s : State) : (usbInit s).ep0InArmed = s.ep0InArmed := rfl
@[simp] theorem usbInit_ep0InBuf (s : State) : (usbInit s).ep0InBuf = s.ep0InBuf := rfl
@[simp] theorem usbInit_ep0Stall (s : State) : (usbInit s).ep0Stall = s.ep0Stall := rfl
@[simp] theorem usbInit_ep0Configured (s : State) : (usbInit s).ep0Configured = false := rfl
@[simp] theorem usbInit_devAddr (s : State) : (usbInit s).devAddr = s.devAddr := rfl
@[simp] theorem usbInit_addrEn (s : State) : (usbInit s).addrEn = s.addrEn := rfl
@[simp] theorem usbInit_usbConfiguration (s : State) : (usbInit s).usbConfiguration = 0 := rfl
@[simp] theorem usbInit_ep1Enabled (s : State) : (usbInit s).ep1Enabled = s.ep1Enabled := rfl
@[simp] theorem usbInit_usbEnabled (s : State) : (usbInit s).usbEnabled = true := rfl
@[simp] theorem usbInit_usbAttached (s : State) : (usbInit s).usbAttached = true := rfl
@[simp] theorem usbInit_busresetPending (s : State) : (usbInit s).busresetPending = s.busresetPending := rfl
@[simp] theorem usbInit_rpt (s : State) : (usbInit s).rpt = List.replicate 132 0x00 := rfl
@[simp] theorem usbInit_flash (s : State) : (usbInit s).flash = s.flash := rfl
@[simp] theorem usbInit_pbData (s : State) : (usbInit s).pbData = s.pbData := rfl
@[simp] theorem usbInit_pbTag (s : State) : (usbInit s).pbTag = s.pbTag := rfl
@[simp] theorem usbInit_nvmOp (s : State) : (usbInit s).nvmOp = s.nvmOp := rfl
@[simp] theorem usbInit_rwwEnabled (s : State) : (usbInit s).rwwEnabled = s.rwwEnabled := rfl
@[simp] theorem usbInit_sessLast (s : State) : (usbInit s).sessLast = s.sessLast := rfl
@[simp] theorem usbInit_ivsel (s : State) : (usbInit s).ivsel = .boot := rfl
@[simp] theorem usbInit_led (s : State) : (usbInit s).led = s.led := rfl
@[simp] theorem usbInit_rstcauseReg (s : State) : (usbInit s).rstcauseReg = s.rstcauseReg := rfl
@[simp] theorem usbInit_resetCause (s : State) : (usbInit s).resetCause = s.resetCause := rfl
@[simp] theorem usbInit_magicKey (s : State) : (usbInit s).magicKey = s.magicKey := rfl
@[simp] theorem usbInit_timeoutCounter (s : State) : (usbInit s).timeoutCounter = s.timeoutCounter := rfl
@[simp] theorem usbInit_timerRunning (s : State) : (usbInit s).timerRunning = false := rfl
@[simp] theorem usbInit_wdtEnabled (s : State) : (usbInit s).wdtEnabled = s.wdtEnabled := rfl
@[simp] theorem usbInit_bootPhase (s : State) : (usbInit s).bootPhase = .usb := rfl
@[simp] theorem usbInit_intEn (s : State) : (usbInit s).intEn = true := rfl
@[simp] theorem usbInit_faults (s : State) : (usbInit s).faults = s.faults := rfl
@[simp] theorem usbInit_script (s : State) : (usbInit s).script = s.script := rfl
@[simp] theorem usbInit_trace (s : State) : (usbInit s).trace = s.trace := rfl
@[simp] theorem usbInit_offs (s : State) : (usbInit s).offs = s.offs := rfl
@[simp] theorem usbInit_draws (s : State) : (usbInit s).draws = s.draws := rfl

@[simp] theorem exitReset_par (s : State) : (exitReset s).par = s.par := rfl
@[simp] theorem exitReset_latch (s : State) : (exitReset s).latch = s.latch := rfl
@[simp] theorem exitReset_fsm (s : State) : (exitReset s).fsm = some .off := rfl
@[simp] theorem exitReset_tx (s : State) : (exitReset s).tx = s.tx := rfl
@[simp] theorem exitReset_newAddr (s : State) : (exitReset s).newAddr = s.newAddr := rfl
@[simp] theorem exitReset_rxCnt (s : State) : (exitReset s).rxCnt = s.rxCnt := rfl
@[simp] theorem exitReset_fl (s : State) : (exitReset s).fl = s.fl := rfl
@[simp] theorem exitReset_ep0SetupFull (s : State) : (exitReset s).ep0SetupFull = s.ep0SetupFull := rfl
@[simp] theorem exitReset_ep0SetupBuf (s : State) : (exitReset s).ep0SetupBuf = s.ep0SetupBuf := rfl
@[simp] theorem exitReset_ep0OutFull (s : State) : (exitReset s).ep0OutFull = s.ep0OutFull := rfl
@[simp] theorem exitReset_ep0OutBuf (s : State) : (exitReset s).ep0OutBuf = s.ep0OutBuf := rfl
@[simp] theorem exitReset_ep0InArmed (s : State) : (exitReset s).ep0InArmed = s.ep0InArmed := rfl
@[simp] theorem exitReset_ep0InBuf (s : State) : (exitReset s).ep0InBuf = s.ep0InBuf := rfl
@[simp] theorem exitReset_ep0Stall (s : State) : (exitReset s).ep0Stall = s.ep0Stall := rfl
@[simp] theorem exitReset_ep0Configured (s : State) : (exitReset s).ep0Configured = s.ep0Configured := rfl
@[simp] theorem exitReset_devAddr (s : State) : (exitReset s).devAddr = s.devAddr := rfl
@[simp] theorem exitReset_addrEn (s : State) : (exitReset s).addrEn = s.addrEn := rfl
@[simp] theorem exitReset_usbConfiguration (s : State) : (exitReset s).usbConfiguration = s.usbConfiguration := rfl
@[simp] theorem exitReset_ep1Enabled (s : State) : (exitReset s).ep1Enabled = s.ep1Enabled := rfl
@[simp] theorem exitReset_usbEnabled (s : State) : (exitReset s).usbEnabled = s.usbEnabled := rfl
@[simp] theorem exitReset_usbAttached (s : State) : (exitReset s).usbAttached = s.usbAttached := rfl
@[simp] theorem exitReset_busresetPending (s : State) : (exitReset s).busresetPending = s.busresetPending := rfl
@[simp] theorem exitReset_rpt (s : State) : (exitReset s).rpt = s.rpt := rfl
@[simp] theorem exitReset_flash (s : State) : (exitReset s).flash = s.flash := rfl
@[simp] theorem exitReset_pbData (s : State) : (exitReset s).pbData = s.pbData := rfl
@[simp] theorem exitReset_pbTag (s : State) : (exitReset s).pbTag = s.pbTag := rfl
@[simp] theorem exitReset_nvmOp (s : State) : (exitReset s).nvmOp = s.nvmOp := rfl
@[simp] theorem exitReset_rwwEnabled (s : State) : (exitReset s).rwwEnabled = s.rwwEnabled := rfl
@[simp] theorem exitReset_sessLast (s : State) : (exitReset s).sessLast = s.sessLast := rfl
@[simp] theorem exitReset_ivsel (s : State) : (exitReset s).ivsel = s.ivsel := rfl
@[simp] theorem exitReset_led (s : State) : (exitReset s).led = s.led := rfl
@[simp] theorem exitReset_rstcauseReg (s : State) : (exitReset s).rstcauseReg = s.par.exitResetCause := rfl
@[simp] theorem exitReset_resetCause (s : State) : (exitReset s).resetCause = s.resetCause := rfl
@[simp] theorem exitReset_magicKey (s : State) : (exitReset s).magicKey = s.magicKey := rfl
@[simp] theorem exitReset_timeoutCounter (s : State) : (exitReset s).timeoutCounter = s.timeoutCounter := rfl
@[simp] theorem exitReset_timerRunning (s : State) : (exitReset s).timerRunning = s.timerRunning := rfl
@[simp] theorem exitReset_wdtEnabled (s : State) : (exitReset s).wdtEnabled = s.wdtEnabled := rfl
@[simp] theorem exitReset_bootPhase (s : State) : (exitReset s).bootPhase = s.bootPhase := rfl
@[simp] theorem exitReset_intEn (s : State) : (exitReset s).intEn = s.intEn := rfl
@[simp] theorem exitReset_faults (s : State) : (exitReset s).faults = s.faults := rfl
@[simp] theorem exitReset_script (s : State) : (exitReset s).script = s.script := rfl
@[simp] theorem exitReset_trace (s : State) : (exitReset s).trace = s.trace := rfl
@[simp] theorem exitReset_offs (s : State) : (exitReset s).offs = s.offs ++ [s.par.exitResetCause] := rfl
@[simp] theorem exitReset_draws (s : State) : (exitReset s).draws = s.draws := rfl

@[simp] theorem windowStart_par (s : State) : (windowStart s).par = s.par := rfl
@[simp] theorem windowStart_latch (s : State) : (windowStart s).latch = s.latch := rfl
@[simp] theorem windowStart_fsm (s : State) : (windowStart s).fsm = s.fsm := rfl
@[simp] theorem windowStart_tx (s : State) : (windowStart s).tx = s.tx := rfl
@[simp] theorem windowStart_newAddr (s : State) : (windowStart s).newAddr = s.newAddr := rfl
@[simp] theorem windowStart_rxCnt (s : State) : (windowStart s).rxCnt = s.rxCnt := rfl
@[simp] theorem windowStart_fl (s : State) : (windowStart s).fl = s.fl := rfl
@[simp] theorem windowStart_ep0SetupFull (s : State) : (windowStart s).ep0SetupFull = s.ep0SetupFull := rfl
@[simp] theorem windowStart_ep0SetupBuf (s : State) : (windowStart s).ep0SetupBuf = s.ep0SetupBuf := rfl
@[simp] theorem windowStart_ep0OutFull (s : State) : (windowStart s).ep0OutFull = s.ep0OutFull := rfl
@[simp] theorem windowStart_ep0OutBuf (s : State) : (windowStart s).ep0OutBuf = s.ep0OutBuf := rfl
@[simp] theorem windowStart_ep0InArmed (s : State) : (windowStart s).ep0InArmed = s.ep0InArmed := rfl
@[simp] theorem windowStart_ep0InBuf (s : State) : (windowStart s).ep0InBuf = s.ep0InBuf := rfl
@[simp] theorem windowStart_ep0Stall (s : State) : (windowStart s).ep0Stall = s.ep0Stall := rfl
@[simp] theorem windowStart_ep0Configured (s : State) : (windowStart s).ep0Configured = s.ep0Configured := rfl
@[simp] theorem windowStart_devAddr (s : State) : (windowStart s).devAddr = s.devAddr := rfl
@[simp] theorem windowStart_addrEn (s : State) : (windowStart s).addrEn = s.addrEn := rfl
@[simp] theorem windowStart_usbConfiguration (s : State) : (windowStart s).usbConfiguration = s.usbConfiguration := rfl
@[simp] theorem windowStart_ep1Enabled (s : State) : (windowStart s).ep1Enabled = s.ep1Enabled := rfl
@[simp] theorem windowStart_usbEnabled (s : State) : (windowStart s).usbEnabled = s.usbEnabled := rfl
@[simp] theorem windowStart_usbAttached (s : State) : (windowStart s).usbAttached = s.usbAttached := rfl
@[simp] theorem windowStart_busresetPending (s : State) : (windowStart s).busresetPending = s.busresetPending := rfl
@[simp] theorem windowStart_rpt (s : State) : (windowStart s).rpt = s.rpt := rfl
@[simp] theorem windowStart_flash (s : State) : (windowStart s).flash = s.flash := rfl
@[simp] theorem windowStart_pbData (s : State) : (windowStart s).pbData = s.pbData := rfl
@[simp] theorem windowStart_pbTag (s : State) : (windowStart s).pbTag = s.pbTag := rfl
@[simp] theorem windowStart_nvmOp (s : State) : (windowStart s).nvmOp = s.nvmOp := rfl
@[simp] theorem windowStart_rwwEnabled (s : State) : (windowStart s).rwwEnabled = s.rwwEnabled := rfl
@[simp] theorem windowStart_sessLast (s : State) : (windowStart s).sessLast = s.sessLast := rfl
@[simp] theorem windowStart_ivsel (s : State) : (windowStart s).ivsel = s.ivsel := rfl
@[simp] theorem windowStart_led (s : State) : (windowStart s).led = s.led := rfl
@[simp] theorem windowStart_rstcauseReg (s : State) : (windowStart s).rstcauseReg = s.rstcauseReg := rfl
@[simp] theorem windowStart_resetCause (s : State) : (windowStart s).resetCause = s.resetCause := rfl
@[simp] theorem windowStart_magicKey (s : State) : (windowStart s).magicKey = s.par.magicKeyValue := rfl
@[simp] theorem windowStart_timeoutCounter (s : State) : (windowStart s).timeoutCounter = 0 := rfl
@[simp] theorem windowStart_timerRunning (s : State) : (windowStart s).timerRunning = true := rfl
@[simp] theorem windowStart_wdtEnabled (s : State) : (windowStart s).wdtEnabled = s.wdtEnabled := rfl
@[simp] theorem windowStart_bootPhase (s : State) : (windowStart s).bootPhase = .window := rfl
@[simp] theorem windowStart_intEn (s : State) : (windowStart s).intEn = true := rfl
@[simp] theorem windowStart_faults (s : State) : (windowStart s).faults = s.faults := rfl
@[simp] theorem windowStart_script (s : State) : (windowStart s).script = s.script := rfl
@[simp] theorem windowStart_trace (s : State) : (windowStart s).trace = s.trace := rfl
@[simp] theorem windowStart_offs (s : State) : (windowStart s).offs = s.offs := rfl
@[simp] theorem windowStart_draws (s : State) : (windowStart s).draws = s.draws := rfl

@[simp] theorem busResetHandler_par (s : State) : (busResetHandler s).par = s.par := rfl
@[simp] theorem busResetHandler_latch (s : State) : (busResetHandler s).latch = s.latch := rfl
@[simp] theorem busResetHandler_fsm (s : State) : (busResetHandler s).fsm = s.fsm := rfl
@[simp] theorem busResetHandler_tx (s : State) : (busResetHandler s).tx = s.tx := rfl
@[simp] theorem busResetHandler_newAddr (s : State) : (busResetHandler s).newAddr = s.newAddr := rfl
@[simp] theorem busResetHandler_rxCnt (s : State) : (busResetHandler s).rxCnt = s.rxCnt := rfl
@[simp] theorem busResetHandler_fl (s : State) : (busResetHandler s).fl = s.fl := rfl
@[simp] theorem busResetHandler_ep0SetupFull (s : State) : (busResetHandler s).ep0SetupFull = false := rfl
@[simp] theorem busResetHandler_ep0SetupBuf (s : State) : (busResetHandler s).ep0SetupBuf = s.ep0SetupBuf := rfl
@[simp] theorem busResetHandler_ep0OutFull (s : State) : (busResetHandler s).ep0OutFull = false := rfl
@[simp] theorem busResetHandler_ep0OutBuf (s : State) : (busResetHandler s).ep0OutBuf = s.ep0OutBuf := rfl
@[simp] theorem busResetHandler_ep0InArmed (s : State) : (busResetHandler s).ep0InArmed = false := rfl
@[simp] theorem busResetHandler_ep0InBuf (s : State) : (busResetHandler s).ep0InBuf = s.ep0InBuf := rfl
@[simp] theorem busResetHandler_ep0Stall (s : State) : (busResetHandler s).ep0Stall = false := rfl
@[simp] theorem busResetHandler_ep0Configured (s : State) : (busResetHandler s).ep0Configured = true := rfl
@[simp] theorem busResetHandler_devAddr (s : State) : (busResetHandler s).devAddr = s.devAddr := rfl
@[simp] theorem busResetHandler_addrEn (s : State) : (busResetHandler s).addrEn = s.addrEn := rfl
@[simp] theorem busResetHandler_usbConfiguration (s : State) : (busResetHandler s).usbConfiguration = 0 := rfl
@[simp] theorem busResetHandler_ep1Enabled (s : State) : (busResetHandler s).ep1Enabled = false := rfl
@[simp] theorem busResetHandler_usbEnabled (s : State) : (busResetHandler s).usbEnabled = s.usbEnabled := rfl
@[simp] theorem busResetHandler_usbAttached (s : State) : (busResetHandler s).usbAttached = s.usbAttached := rfl
@[simp] theorem busResetHandler_busresetPending (s : State) : (busResetHandler s).busresetPending = false := rfl
@[simp] theorem busResetHandler_rpt (s : State) : (busResetHandler s).rpt = s.rpt := rfl
@[simp] theorem busResetHandler_flash (s : State) : (busResetHandler s).flash = s.flash := rfl
@[simp] theorem busResetHandler_pbData (s : State) : (busResetHandler s).pbData = s.pbData := rfl
@[simp] theorem busResetHandler_pbTag (s : State) : (busResetHandler s).pbTag = s.pbTag := rfl
@[simp] theorem busResetHandler_nvmOp (s : State) : (busResetHandler s).nvmOp = s.nvmOp := rfl
@[simp] theorem busResetHandler_rwwEnabled (s : State) : (busResetHandler s).rwwEnabled = s.rwwEnabled := rfl
@[simp] theorem busResetHandler_sessLast (s : State) : (busResetHandler s).sessLast = s.sessLast := rfl
@[simp] theorem busResetHandler_ivsel (s : State) : (busResetHandler s).ivsel = s.ivsel := rfl
@[simp] theorem busResetHandler_led (s : State) : (busResetHandler s).led = s.led := rfl
@[simp] theorem busResetHandler_rstcauseReg (s : State) : (busResetHandler s).rstcauseReg = s.rstcauseReg := rfl
@[simp] theorem busResetHandler_resetCause (s : State) : (busResetHandler s).resetCause = s.resetCause := rfl
@[simp] theorem busResetHandler_magicKey (s : State) : (busResetHandler s).magicKey = s.magicKey := rfl
@[simp] theorem busResetHandler_timeoutCounter (s : State) : (busResetHandler s).timeoutCounter = s.timeoutCounter := rfl
@[simp] theorem busResetHandler_timerRunning (s : State) : (busResetHandler s).timerRunning = s.timerRunning := rfl
@[simp] theorem busResetHandler_wdtEnabled (s : State) : (busResetHandler s).wdtEnabled = s.wdtEnabled := rfl
@[simp] theorem busResetHandler_bootPhase (s : State) : (busResetHandler s).bootPhase = s.bootPhase := rfl
@[simp] theorem busResetHandler_intEn (s : State) : (busResetHandler s).intEn = s.intEn := rfl
@[simp] theorem busResetHandler_faults (s : State) : (busResetHandler s).faults = s.faults := rfl
@[simp] theorem busResetHandler_script (s : State) : (busResetHandler s).script = s.script := rfl
@[simp] theorem busResetHandler_trace (s : State) : (busResetHandler s).trace = s.trace := rfl
@[simp] theorem busResetHandler_offs (s : State) : (busResetHandler s).offs = s.offs := rfl
@[simp] theorem busResetHandler_draws (s : State) : (busResetHandler s).draws = s.draws := rfl

end Sys2Proof.Machine
end

