-- ==== Sys2Proof/Laws/Ops.lean ====
section
/-! SUPPORT. For each shared operation, once, everything it can do: what an answer `.next t` of a segment, a turn or a step
says about `t`. Cite these instead of unfolding the operation. -/

namespace Sys2Proof.Machine

/-- The next state is unique. -/
theorem next_inj {s t : State} : (Host.Outcome.next s : Result) = .next t ↔ s = t :=
  ⟨fun h => by injection h, fun h => by rw [h]⟩

theorem fault_ne_next {r : Fault} {t : State} : (Host.Outcome.fault r : Result) ≠ .next t := nofun

theorem refused_ne_next {r : Refusal} {t : State} : (Host.Outcome.refused r : Result) ≠ .next t := nofun

/-! ### One equation per shared operation, under the condition that selects its branch -/

/-- A scripted move is made on the state with the move used up. -/
theorem step_scripted {s : State} {m : Move} {rest : List Move} (hf : s.faults = []) (hs : s.script = m :: rest) :
    step s = runMove m { s with script := rest } := by
  simp only [step, takeStep, hf, hs, ne_eq, not_true_eq_false, if_false]

/-- A handler's return is the end of its request (60_exceptions.md R276, 10_state.md R21, R23). -/
theorem toIdle_eq_idled (s : State) : toIdle s = s.idled := rfl

/-- A run of no steps. -/
theorem run_zero (s : State) : Host.Core.run Sys2Proof.core 0 s = (.next s : Result) := rfl

/-- A run whose first step answers a next state goes on from there. -/
theorem run_succ {s t : State} (h : step s = .next t) (k : Nat) :
    Host.Core.run Sys2Proof.core (k + 1) s = (Host.Core.run Sys2Proof.core k t : Result) := by
  have h : Sys2Proof.core.step s = .next t := h
  simp only [Host.Core.run, h]

/-- A run goes on where a shorter one has come to. -/
theorem run_add {s t : State} {m : Nat} (h : Host.Core.run Sys2Proof.core m s = (.next t : Result)) (n : Nat) :
    Host.Core.run Sys2Proof.core (m + n) s = (Host.Core.run Sys2Proof.core n t : Result) := by
  induction m generalizing s with
  | zero => rw [Nat.zero_add, next_inj.1 h]
  | succ m ih =>
    rw [Nat.add_right_comm]
    simp only [Host.Core.run] at h ⊢
    split at h
    · next u hu => exact ih h
    · exact absurd h fault_ne_next
    · exact absurd h refused_ne_next

/-- With nothing scripted, the turn is that of the unscripted block. -/
theorem step_unscripted {s : State} (hf : s.faults = []) (hs : s.script = []) : step s = idleTurn s := by
  simp only [step, takeStep, hf, hs, ne_eq, not_true_eq_false, if_false]

/-- The unscripted block gives the NVM agent the turn while an operation is in progress. -/
theorem idleTurn_nvm {s : State} (hn : s.nvmOp ≠ .idle) : idleTurn s = nvmStep s := by
  simp [idleTurn, nvmEnabled, hn]

/-- The unscripted block in phase USB with an idle NVM agent and no bus reset to handle gives the engine the turn. -/
theorem idleTurn_engine {s : State} (hn : s.nvmOp = .idle) (hb : busHandlerEnabled s = false)
    (he : engineEnabled s = true) : idleTurn s = engineStep s := by
  simp [idleTurn, nvmEnabled, hn, hb, he]

/-- The bus-reset handler has no step unless the engine is idle (60_exceptions.md R273). -/
theorem busHandler_off {s : State} (h : s.fsm ≠ some .idle) : busHandlerEnabled s = false := by
  simp [busHandlerEnabled, h]

/-- An enabled engine runs the segment of its `fsm` (41_control_transfer.md R139). -/
theorem engineTurn_enabled {s : State} (hf : s.faults = []) (hp : s.bootPhase = .usb) (he : fsmEnabled s = true) :
    engineTurn s = engineStep s := by
  simp [engineTurn, engineEnabled, hf, hp, he]

/-- The block answers at its current address (41_control_transfer.md R131). -/
theorem forBlock_currentAddr {s : State} (he : s.usbEnabled = true) (ha : s.usbAttached = true) (l : List Move) :
    forBlock s.currentAddr { s with script := l } = true := by
  simp [forBlock, State.currentAddr, he, ha]

/-- A SETUP for the block (41_control_transfer.md R131, R132). -/
theorem hostToken_setup {addr : DevAddr} {b : SetupPacket} {s : State} (hb : forBlock addr s = true)
    (hc : s.ep0Configured = true) : hostToken (.setup addr b) s = .next (hostSetup (.setup addr b) b s) := by
  simp [hostToken, hb, hc]

/-- An OUT for endpoint 0 of the block (41_control_transfer.md R131, R133). -/
theorem hostToken_out {addr : DevAddr} {b : List Byte} {s : State} (hl : b.length ≤ 64) (hb : forBlock addr s = true)
    (hc : s.ep0Configured = true) : hostToken (.out addr 0 b) s = .next (hostOut (.out addr 0 b) b s) := by
  simp [hostToken, Nat.not_lt.2 hl, hb, hc]

/-- An IN for endpoint 0 of the block (41_control_transfer.md R131, R134). -/
theorem hostToken_in {addr : DevAddr} {s : State} (hb : forBlock addr s = true) (hc : s.ep0Configured = true) :
    hostToken (.inp addr 0) s = .next (hostIn (.inp addr 0) s) := by
  simp [hostToken, hb, hc]

/-- An IN for endpoint 1 of the block (41_control_transfer.md R153). -/
theorem hostToken_ep1 {addr : DevAddr} {s : State} (hb : forBlock addr s = true) :
    hostToken (.inp addr 1) s = .next (answer (.inp addr 1) (ep1In s) s) := by
  simp [hostToken, hb]

/-- The three transfer waits. -/
theorem transferWait_iff (f : Option Fsm) :
    transferWait f = true ↔ f = some .sendWait ∨ f = some .addrWait ∨ f = some .recvWait := by
  unfold transferWait
  split <;> simp_all

/-- Rows 1 to 3 always find their descriptor, row 4 reads the string table (40_descriptor_server.md R100, R107). -/
theorem getDescriptor_device (len : Word16) (s : State) :
    getDescriptor 0x01 0x00 len s = send (clamp len (deviceDesc s.par)) s := rfl

theorem getDescriptor_configuration (len : Word16) (s : State) :
    getDescriptor 0x02 0x00 len s = send (clamp len (configDesc s.par)) s := rfl

theorem getDescriptor_hidReport (len : Word16) (s : State) :
    getDescriptor 0x22 0x00 len s = send (clamp len s.par.hidReportDesc) s := rfl

theorem getDescriptor_string (i : Byte) (len : Word16) (s : State) :
    getDescriptor 0x03 i len s =
      match stringDesc s.par i with
      | none => stall s
      | some d => send (clamp len d) s := rfl

/-- Nothing longer than 255 bytes is sent (40_descriptor_server.md R107). -/
theorem length_clamp (len : Word16) (d : List Byte) :
    (clamp len d).length = min len.toNat (min d.length 255) := by
  simp only [clamp, List.length_take]; omega

/-- A word passes CheckWord exactly when it is even, inside FLASH, above the session's last word, in the page the buffer
holds words of (if any), and below the boot section (43_flash_engine.md R234). -/
theorem checkWord_none {s : State} {a : Nat} :
    checkWord s a = none ↔
      a % 2 = 0 ∧ a < s.par.flashSize ∧ (∀ l, s.sessLast = some l → l < a) ∧
        (∀ t, s.pbTag = some t → t = pageOf s.par a) ∧ a < s.par.bootStart := by
  unfold checkWord
  split
  · next h => simp [h]
  · next h =>
    split
    · next h2 => simp; omega
    · next h2 =>
      cases hs : s.sessLast with
      | none =>
        cases ht : s.pbTag with
        | none => simp; omega
        | some t =>
          by_cases hp : t = pageOf s.par a
          · simp [Option.filter, hp]; omega
          · simp [Option.filter, hp]
      | some l =>
        by_cases hl : a ≤ l
        · simp [Option.filter, hl]
        · cases ht : s.pbTag with
          | none => simp [Option.filter, hl]; omega
          | some t =>
            by_cases hp : t = pageOf s.par a
            · simp [Option.filter, hl, hp]; omega
            · simp [Option.filter, hl, hp]

/-- A commit of an erased page starts the write; else it raises F05 (43_flash_engine.md R238, R239). -/
theorem commit_cases (p : Nat) (s : State) :
    (pageErased s p = true ∧ commit p s = goto .flWriteWait (startWrite p s)) ∨
      (pageErased s p = false ∧ commit p s = raise (.writeUnerased p) s) := by
  unfold commit
  cases h : pageErased s p <;> simp

/-- A page is erased when each of its bytes reads as 0xFF (43_flash_engine.md R239). -/
theorem pageErased_iff (s : State) (p : Nat) :
    pageErased s p = true ↔ ∀ k, k < s.par.pageSize → s.flash.read (pageBase s.par p + k) = Memory.erased := by
  simp [pageErased]

/-- The staged word: the chunk goes on, or its page is committed, or the commit raises F05 (43_flash_engine.md R233). -/
theorem fillAndAdvance_cases (f : FlCtx) (w : Word16) (s : State) :
    fillAndAdvance f w s = goto .flWord (fillAdvance f w s) ∨
      fillAndAdvance f w s =
        goto .flWriteWait (startWrite (pageOf s.par f.addr) (fillAdvance f w s)) ∨
      fillAndAdvance f w s = raise (.writeUnerased (pageOf s.par f.addr)) (fillAdvance f w s) := by
  unfold fillAndAdvance
  split
  · rcases commit_cases (pageOf s.par f.addr) (fillAdvance f w s) with ⟨_, h⟩ | ⟨_, h⟩ <;> simp [h]
  · exact .inl rfl

/-- One word of a chunk: a hazard raises its fault before any effect, a page-aligned word starts the erase of its page,
any other is staged (43_flash_engine.md R233, R234). -/
theorem writeWord_cases (f : FlCtx) (w : Word16) (s : State) :
    (∃ c, checkWord s f.addr = some c ∧ writeWord f w s = raise c s) ∨
      (checkWord s f.addr = none ∧ offsetOf s.par f.addr = 0 ∧
        writeWord f w s = goto .flEraseWait (startErase (pageOf s.par f.addr) s)) ∨
      (checkWord s f.addr = none ∧ offsetOf s.par f.addr ≠ 0 ∧ writeWord f w s = fillAndAdvance f w s) := by
  unfold writeWord
  cases h : checkWord s f.addr with
  | some c => exact .inl ⟨c, rfl, rfl⟩
  | none =>
    by_cases ho : offsetOf s.par f.addr = 0
    · exact .inr (.inl ⟨rfl, ho, by simp [ho]⟩)
    · exact .inr (.inr ⟨rfl, ho, by simp [ho]⟩)

/-- What the NVM agent's step can do (43_flash_engine.md R231). -/
theorem nvmStep_next {s t : State} (h : nvmStep s = .next t) :
    (s.nvmOp = .idle ∧ t = s) ∨
      (∃ p, s.nvmOp = .erase p ∧ pageInFlash s.par p = true ∧ t = eraseDone p s) ∨
      (∃ p, s.nvmOp = .write p ∧ pageInFlash s.par p = true ∧ t = writeDone p s) := by
  unfold nvmStep at h
  split at h
  · next hn => exact .inl ⟨hn, (next_inj.1 h).symm⟩
  · next p hn =>
    split at h
    · next hp => exact .inr (.inl ⟨p, hn, hp, (next_inj.1 h).symm⟩)
    · exact absurd h fault_ne_next
  · next p hn =>
    split at h
    · next hp => exact .inr (.inr ⟨p, hn, hp, (next_inj.1 h).symm⟩)
    · exact absurd h fault_ne_next

/-- What the send step can do: abort, arm a packet and go on, or arm the last one (41_control_transfer.md R144). -/
theorem sendStep_next {s t : State} (h : sendStep s = .next t) :
    (s.ep0OutFull = true ∧ t = toIdle s) ∨
      (∃ c, s.ep0OutFull = false ∧ s.tx = some c ∧
        ((0 < c.rem - min c.rem 64 ∨ min c.rem 64 = 64) ∧ t = goto .sendWait (armNext c s) ∨
          ¬(0 < c.rem - min c.rem 64 ∨ min c.rem 64 = 64) ∧ t = toIdle (armNext c s))) := by
  unfold sendStep at h
  split at h
  · next ho => exact .inl ⟨ho, (next_inj.1 h).symm⟩
  · next ho =>
    have ho := Bool.eq_false_iff.2 ho
    split at h
    · exact absurd h fault_ne_next
    · next c hc =>
      split at h
      · next hm => exact .inr ⟨c, ho, hc, .inl ⟨hm, (next_inj.1 h).symm⟩⟩
      · next hm => exact .inr ⟨c, ho, hc, .inr ⟨hm, (next_inj.1 h).symm⟩⟩

/-- What the end of SET_ADDRESS does (41_control_transfer.md R149). -/
theorem addrStep_next {s t : State} (h : addrStep s = .next t) :
    ∃ a, s.newAddr = some a ∧ t = toIdle { s with devAddr := a, addrEn := true } := by
  unfold addrStep at h
  split at h
  · exact absurd h fault_ne_next
  · next a ha => exact ⟨a, ha, (next_inj.1 h).symm⟩

/-- The end of the OUT data phase, with or without the zero-length packet (42_hid_feature_reports.md R194). -/
theorem receiveComplete_cases (s : State) :
    receiveComplete s = goto .srDone (ack s) ∨ receiveComplete s = goto .srDone s := by
  unfold receiveComplete
  cases s.par.ackOrder <;> simp

/-- What SetReportBegin can do (42_hid_feature_reports.md R192). -/
theorem setReportBegin_cases (len : Word16) (s : State) :
    setReportBegin len s = goto .srDone (ack { s with rxCnt := some 0 }) ∨
      setReportBegin len s = goto .srDone { s with rxCnt := some 0 } ∨
      setReportBegin len s = goto .recvWait { s with rxCnt := some 0 } := by
  unfold setReportBegin
  split
  · rcases receiveComplete_cases { s with rxCnt := some 0 } with h | h
    · exact .inl h
    · exact .inr (.inl h)
  · exact .inr (.inr rfl)

/-- What the receive step can do (42_hid_feature_reports.md R193). -/
theorem receiveStep_next {s t : State} (h : receiveStep s = .next t) :
    ∃ r rx, s.latch = some r ∧ s.rxCnt = some rx ∧
      ((r.len.toNat < rx + s.ep0OutBuf.length ∧ t = raise (.hostOverrun rx s.ep0OutBuf.length r.len.toNat) s) ∨
        (132 < rx + s.ep0OutBuf.length ∧ t = raise (.reportOverflow rx s.ep0OutBuf.length) s) ∨
        (rx + s.ep0OutBuf.length ≤ r.len.toNat ∧ rx + s.ep0OutBuf.length ≤ 132 ∧
          ((rx + s.ep0OutBuf.length = r.len.toNat ∨ s.ep0OutBuf.length < 64) ∧
              t = receiveComplete (storePacket rx s) ∨
            t = goto .recvWait (storePacket rx s)))) := by
  unfold receiveStep at h
  split at h
  · exact absurd h fault_ne_next
  · exact absurd h fault_ne_next
  · next r rx hl hr =>
    refine ⟨r, rx, hl, hr, ?_⟩
    split at h
    · next h1 => exact .inl ⟨h1, (next_inj.1 h).symm⟩
    · split at h
      · next h2 => exact .inr (.inl ⟨h2, (next_inj.1 h).symm⟩)
      · refine .inr (.inr ⟨by omega, by omega, ?_⟩)
        split at h
        · next h3 => exact .inl ⟨h3, (next_inj.1 h).symm⟩
        · exact .inr (next_inj.1 h).symm

/-- The late acknowledgment arms a zero-length packet or does nothing (42_hid_feature_reports.md R203, R204). -/
theorem lateAck_cases (s : State) : lateAck s = s ∨ lateAck s = ack s := by
  unfold lateAck
  cases s.par.ackOrder <;> simp

/-- What the set-up of a flash chunk does (42_hid_feature_reports.md R200). -/
theorem flashReport_next {s t : State} (h : flashReport s = .next t) :
    ∃ rx a, s.rxCnt = some rx ∧ chunkAddr s.par s.rpt = some a ∧
      t = goto .flWord { s with fl := some ⟨a, 0, wordCount s.par.chunkMode rx⟩, led := true } := by
  unfold flashReport at h
  split at h
  · exact absurd h fault_ne_next
  · exact absurd h fault_ne_next
  · next rx a hr ha => exact ⟨rx, a, hr, ha, (next_inj.1 h).symm⟩

/-- What the decoder's step can do (42_hid_feature_reports.md R195). -/
theorem reportStep_next {s t : State} (h : reportStep s = .next t) :
    ∃ r, s.latch = some r ∧
      ((lo8 r.val = 0x01 ∧ t = exitReport s) ∨ (lo8 r.val = 0x02 ∧ flashReport s = .next t) ∨
        (lo8 r.val ≠ 0x01 ∧ lo8 r.val ≠ 0x02 ∧ t = otherReport s)) := by
  unfold reportStep at h
  split at h
  · exact absurd h fault_ne_next
  · next r hr =>
    refine ⟨r, hr, ?_⟩
    split at h
    · next h1 => exact .inl ⟨h1, (next_inj.1 h).symm⟩
    · next h1 =>
      split at h
      · next h2 => exact .inr (.inl ⟨h2, h⟩)
      · next h2 => exact .inr (.inr ⟨h1, h2, (next_inj.1 h).symm⟩)

/-- What the FL_WORD step can do (42_hid_feature_reports.md R203). -/
theorem flWordStep_next {s t : State} (h : flWordStep s = .next t) :
    ∃ f, s.fl = some f ∧
      ((f.i = f.n ∧ t = chunkDone s) ∨
        (f.i ≠ f.n ∧ ∃ w, chunkWord s.rpt f.i = some w ∧ t = writeWord f w s)) := by
  unfold flWordStep at h
  split at h
  · exact absurd h fault_ne_next
  · next f hf =>
    refine ⟨f, hf, ?_⟩
    split at h
    · next hi => exact .inl ⟨hi, (next_inj.1 h).symm⟩
    · next hi =>
      split at h
      · exact absurd h fault_ne_next
      · next w hw => exact .inr ⟨hi, w, hw, (next_inj.1 h).symm⟩

/-- What the FL_ERASE_WAIT step does (43_flash_engine.md R233). -/
theorem flEraseStep_next {s t : State} (h : flEraseStep s = .next t) :
    ∃ f w, s.fl = some f ∧ chunkWord s.rpt f.i = some w ∧ t = fillAndAdvance f w s := by
  unfold flEraseStep at h
  split at h
  · exact absurd h fault_ne_next
  · next f hf =>
    split at h
    · exact absurd h fault_ne_next
    · next w hw => exact ⟨f, w, hf, hw, (next_inj.1 h).symm⟩

/-- What a dispatch segment can do: stall, start an IN data phase, arm the packet of SET_ADDRESS and wait, set the
configuration, acknowledge, or open the OUT data phase (41_control_transfer.md R142). -/
theorem exec_next {i : Instr} {s t : State} (h : exec i s = .next t) :
    t = stall s ∨ (∃ d, d.length ≤ 255 ∧ t = send d s) ∨
      (∃ rt v x l, i = .setAddress rt v x l ∧
        t = goto .addrWait (Machine.ack { s with newAddr := some (BitVec.ofNat 7 v.toNat) })) ∨
      (∃ v x l, i = .setConfiguration v x l ∧
        t = toIdle { Machine.ack s with usbConfiguration := lo8 v, ep1Enabled := lo8 v != 0 }) ∨
      t = toIdle (Machine.ack s) ∨ ∃ l, t = setReportBegin l s := by
  have gd : ∀ a b l, getDescriptor a b l s = stall s ∨ ∃ d, d.length ≤ 255 ∧ getDescriptor a b l s = send d s := by
    intro a b l
    unfold getDescriptor
    split
    · exact .inl rfl
    · exact .inr ⟨_, by rw [length_clamp]; omega, rfl⟩
  have gd' : ∀ a b l, Host.Outcome.next (getDescriptor a b l s) = (.next t : Result) →
      t = stall s ∨ ∃ d, d.length ≤ 255 ∧ t = send d s := fun a b l h => next_inj.1 h ▸ gd a b l
  cases i
  case getDescriptorDevice => exact (gd' _ _ _ h).imp id .inl
  case getDescriptorConfiguration => exact (gd' _ _ _ h).imp id .inl
  case getDescriptorHidReport => exact (gd' _ _ _ h).imp id .inl
  case getDescriptorString => exact (gd' _ _ _ h).imp id .inl
  case getDescriptorOther => exact .inl (next_inj.1 h).symm
  case setAddress rt v x l => exact .inr (.inr (.inl ⟨rt, v, x, l, rfl, (next_inj.1 h).symm⟩))
  case setConfiguration v x l => exact .inr (.inr (.inr (.inl ⟨v, x, l, rfl, (next_inj.1 h).symm⟩)))
  case getConfiguration => exact .inr (.inl ⟨_, by rw [length_clamp]; omega, (next_inj.1 h).symm⟩)
  case hidSetIdle => exact .inr (.inr (.inr (.inr (.inl (next_inj.1 h).symm))))
  case hidSetReportExit => exact .inr (.inr (.inr (.inr (.inr ⟨_, (next_inj.1 h).symm⟩))))
  case hidSetReportFlash => exact .inr (.inr (.inr (.inr (.inr ⟨_, (next_inj.1 h).symm⟩))))
  case hidSetReportOther => exact .inr (.inr (.inr (.inr (.inr ⟨_, (next_inj.1 h).symm⟩))))
  case hidGetReportDeviceInfo => exact .inr (.inl ⟨_, by rw [length_clamp]; omega, (next_inj.1 h).symm⟩)
  case unsupported => exact .inl (next_inj.1 h).symm

/-- The segment the engine runs, by `fsm` (41_control_transfer.md R138, R139). -/
theorem engineStep_next {s t : State} (h : engineStep s = .next t) :
    ((s.fsm = none ∨ s.fsm = some .off) ∧ t = s) ∨
      (s.fsm = some .idle ∧ exec (decodeSetup s.ep0SetupBuf) (acceptSetup s) = .next t) ∨
      (s.fsm = some .sendWait ∧ sendStep s = .next t) ∨ (s.fsm = some .addrWait ∧ addrStep s = .next t) ∨
      (s.fsm = some .recvWait ∧ receiveStep s = .next t) ∨ (s.fsm = some .srDone ∧ reportStep s = .next t) ∨
      (s.fsm = some .flWord ∧ flWordStep s = .next t) ∨ (s.fsm = some .flEraseWait ∧ flEraseStep s = .next t) ∨
      (s.fsm = some .flWriteWait ∧ t = flWriteStep s) ∨ (s.fsm = some .exitSettle ∧ t = exitReset s) := by
  unfold engineStep at h
  split at h <;> rename_i hf
  · exact .inl ⟨.inl hf, (next_inj.1 h).symm⟩
  · exact .inr (.inl ⟨hf, h⟩)
  · exact .inr (.inr (.inl ⟨hf, h⟩))
  · exact .inr (.inr (.inr (.inl ⟨hf, h⟩)))
  · exact .inr (.inr (.inr (.inr (.inl ⟨hf, h⟩))))
  · exact .inr (.inr (.inr (.inr (.inr (.inl ⟨hf, h⟩)))))
  · exact .inr (.inr (.inr (.inr (.inr (.inr (.inl ⟨hf, h⟩))))))
  · exact .inr (.inr (.inr (.inr (.inr (.inr (.inr (.inl ⟨hf, h⟩)))))))
  · exact .inr (.inr (.inr (.inr (.inr (.inr (.inr (.inr (.inl ⟨hf, (next_inj.1 h).symm⟩))))))))
  · exact .inr (.inr (.inr (.inr (.inr (.inr (.inr (.inr (.inr ⟨hf, (next_inj.1 h).symm⟩))))))))
  · exact .inl ⟨.inr hf, (next_inj.1 h).symm⟩

/-- A device reset keeps every byte of FLASH but those of the page of an operation in progress
(70_reset_and_hazards.md R300). -/
theorem read_flashOverReset {s : State} (h : s.flash.wf = true) (d : Nat) {a : Nat}
    (ha : ∀ p, s.nvmOp = .erase p ∨ s.nvmOp = .write p →
      ¬(p * s.par.pageSize ≤ a ∧ a < p * s.par.pageSize + s.par.pageSize)) :
    (flashOverReset d s).read a = s.flash.read a := by
  unfold flashOverReset
  split
  · rfl
  · next p hp =>
    split
    · rw [Memory.read_writeRange h]; exact if_neg (ha p (.inl hp))
    · rfl
  · next p hp =>
    split
    · rw [Memory.read_writeRange h]; exact if_neg (ha p (.inr hp))
    · rfl

/-- What the boot decision can do (70_reset_and_hazards.md R303). -/
theorem bootDecide_cases (s : State) : bootDecide s = windowStart s ∨ bootDecide s = usbInit s := by
  unfold bootDecide
  split
  · cases s.par.bootWindow <;> simp
  · exact .inr rfl

/-- A read of FLASH by boot changes at most the count of draws (20_memory.md R73). -/
theorem flashRead_state (a : Nat) (s : State) : ∃ d, (flashRead a s).2 = { s with draws := d } := by
  unfold flashRead
  split
  · exact ⟨_, rfl⟩
  · exact ⟨s.draws, rfl⟩

/-- What a tick can do: count, or end the window in the application or in USB initialisation
(70_reset_and_hazards.md R305, R306). -/
theorem tick_cases (s : State) :
    tick s = { s with timeoutCounter := s.timeoutCounter + 1 } ∨
      (∃ d, tick s = jumpApp { s with timeoutCounter := s.timeoutCounter + 1, timerRunning := false,
                                      magicKey := 0, draws := d }) ∨
      (∃ d, tick s = usbInit { s with timeoutCounter := s.timeoutCounter + 1, timerRunning := false,
                                      magicKey := 0, draws := d }) := by
  unfold tick
  split
  · obtain ⟨d, hd⟩ := flashRead_state 0
      { s with timeoutCounter := s.timeoutCounter + 1, timerRunning := false, magicKey := 0 }
    unfold windowTimeout bootChoice
    split
    · exact .inr (.inl ⟨d, congrArg jumpApp hd⟩)
    · exact .inr (.inr ⟨d, congrArg usbInit hd⟩)
  · exact .inl rfl

/-- A turn of the idle schedule is a turn of one agent of the block (60_exceptions.md R270 to R274). -/
theorem idleTurn_next {s t : State} (h : idleTurn s = .next t) : ∃ m, m.isHost = false ∧ runMove m s = .next t := by
  unfold idleTurn at h
  split at h
  · exact ⟨.nvm, rfl, h⟩
  · split at h
    · next hb => exact ⟨.busHandler, rfl, by simp only [runMove, busHandlerTurn]; rw [if_pos hb]; exact h⟩
    · split at h
      · next he => exact ⟨.engine, rfl, by simp only [runMove, engineTurn]; rw [if_pos he]; exact h⟩
      · next he =>
        split at h
        · next hb => exact ⟨.boot, rfl, by simp only [runMove, bootTurn]; rw [if_pos hb]; exact h⟩
        · split at h
          · exact absurd h refused_ne_next
          · exact ⟨.engine, rfl, by simp only [runMove, engineTurn]; rw [if_neg he]; exact h⟩

/-- Every step that answers a next state is one move made from a state without a fault: the head of the script, which is
used up, or a turn of an agent of the block if the script is empty. -/
theorem step_next {s t : State} (h : step s = .next t) :
    s.faults = [] ∧ ∃ m, (s.script = m :: s.script.tail ∨ (s.script = [] ∧ m.isHost = false)) ∧
      runMove m { s with script := s.script.tail } = .next t := by
  unfold step takeStep at h
  split at h
  · exact absurd h fault_ne_next
  · next hf =>
    refine ⟨Classical.not_not.1 hf, ?_⟩
    split at h
    · next m rest hs => exact ⟨m, .inl (by rw [hs]; rfl), by rw [hs]; exact h⟩
    · next hs =>
      obtain ⟨m, hi, hm⟩ := idleTurn_next h
      exact ⟨m, .inr ⟨hs, hi⟩, by rw [hs, List.tail_nil, ← hs]; exact hm⟩

/-- A turn of the engine, when it is enabled, is its segment at the value of `fsm` (41_control_transfer.md R139). -/
theorem engineTurn_next {s t : State} (h : engineTurn s = .next t) :
    t = s ∨ (engineEnabled s = true ∧ engineStep s = .next t) := by
  unfold engineTurn at h
  split at h
  · next he => exact .inr ⟨he, h⟩
  · exact .inl (next_inj.1 h).symm

/-- A turn of the bus-reset handler (70_reset_and_hazards.md R311). -/
theorem busHandlerTurn_next {s t : State} (h : busHandlerTurn s = .next t) :
    t = s ∨ (busHandlerEnabled s = true ∧ t = busResetHandler s) := by
  unfold busHandlerTurn at h
  split at h
  · next he => exact .inr ⟨he, (next_inj.1 h).symm⟩
  · exact .inl (next_inj.1 h).symm

/-- A turn of the boot agent (70_reset_and_hazards.md R301, R302, R305). -/
theorem bootTurn_next {s t : State} (h : bootTurn s = .next t) :
    t = s ∨ (bootEnabled s = true ∧ t = bootStep s) := by
  unfold bootTurn at h
  split at h
  · next he => exact .inr ⟨he, (next_inj.1 h).symm⟩
  · exact .inl (next_inj.1 h).symm

/-- What a boot step can do, by `boot_phase`. -/
theorem bootStep_cases {s : State} (h : bootEnabled s = true) :
    (s.bootPhase = .decide ∧ bootStep s = bootCapture s) ∨
      (s.bootPhase = .window ∧ s.timerRunning = true ∧ s.intEn = true ∧ bootStep s = tick s) ∨
      (s.bootPhase = .usb ∧ s.fsm = some .off ∧ bootStep s = deviceReset s.rstcauseReg s) := by
  cases hp : s.bootPhase with
  | decide => exact .inl ⟨rfl, by simp only [bootStep, hp]⟩
  | window =>
    simp only [bootEnabled, hp, Bool.and_eq_true] at h
    exact .inr (.inl ⟨rfl, h.1.1, h.1.2, by simp only [bootStep, hp]⟩)
  | usb =>
    simp only [bootEnabled, hp, beq_iff_eq] at h
    exact .inr (.inr ⟨rfl, h, by simp only [bootStep, hp]⟩)
  | app => simp only [bootEnabled, hp, Bool.false_eq_true] at h

/-- What one token of the host can do (41_control_transfer.md R131 to R135, R153). -/
theorem hostToken_next {tok : Token} {s t : State} (h : hostToken tok s = .next t) :
    (∃ r, (r = .silent ∨ r = .nak) ∧ t = answer tok r s) ∨
      (∃ addr b, tok = .setup addr b ∧ forBlock addr s = true ∧ s.ep0Configured = true ∧ t = hostSetup tok b s) ∨
      (∃ addr b, tok = .out addr 0 b ∧ b.length ≤ 64 ∧ forBlock addr s = true ∧ s.ep0Configured = true ∧
        t = hostOut tok b s) ∨
      (∃ addr, tok = .inp addr 0 ∧ forBlock addr s = true ∧ s.ep0Configured = true ∧ t = hostIn tok s) ∨
      (tok = .busReset ∧ t = hostBusReset s) := by
  cases tok with
  | setup addr b =>
    simp only [hostToken] at h
    split at h
    · next hc =>
      simp only [Bool.and_eq_true] at hc
      exact .inr (.inl ⟨addr, b, rfl, hc.1, hc.2, (next_inj.1 h).symm⟩)
    · exact .inl ⟨.silent, .inl rfl, (next_inj.1 h).symm⟩
  | out addr ep b =>
    simp only [hostToken] at h
    split at h
    · exact absurd h refused_ne_next
    · next hl =>
      split at h
      · next hc =>
        simp only [Bool.and_eq_true, beq_iff_eq] at hc
        obtain ⟨⟨hf, rfl⟩, he⟩ := hc
        exact .inr (.inr (.inl ⟨addr, b, rfl, by omega, hf, he, (next_inj.1 h).symm⟩))
      · exact .inl ⟨.silent, .inl rfl, (next_inj.1 h).symm⟩
  | inp addr ep =>
    simp only [hostToken] at h
    split at h
    · next hc =>
      simp only [Bool.and_eq_true, beq_iff_eq] at hc
      obtain ⟨⟨hf, rfl⟩, he⟩ := hc
      exact .inr (.inr (.inr (.inl ⟨addr, rfl, hf, he, (next_inj.1 h).symm⟩)))
    · split at h
      · refine .inl ⟨ep1In s, ?_, (next_inj.1 h).symm⟩
        unfold ep1In; split <;> simp
      · exact .inl ⟨.silent, .inl rfl, (next_inj.1 h).symm⟩
  | busReset => exact .inr (.inr (.inr (.inr ⟨rfl, (next_inj.1 h).symm⟩)))

end Sys2Proof.Machine
end

