-- ==== Sys2Proof/Laws/Params.lean ====
section
/-! SUPPORT. What a well-formed instance gives (00_scope.md R8), and that the parameters of the machine are one. -/

namespace Sys2Proof

theorem Params.e1_wf : Params.e1.wf = true := by decide

/-- The parameters of the machine are an instance R8 allows. -/
theorem Config.params_wf : Config.params.wf = true := by
  unfold Config.params
  split
  · assumption
  · exact Params.e1_wf

/-- The three parts of what an instance must meet. -/
theorem Params.wf_parts {p : Params} : p.wf = true ↔ p.numbersOk = true ∧ p.hidReportOk = true ∧ p.stringsOk = true := by
  simp only [Params.wf, Bool.and_eq_true, and_assoc]

/-- The page size is a power of two, from 2 up. -/
theorem Params.wf_pageSize {p : Params} (h : p.wf = true) : ∃ k, k < 15 ∧ p.pageSize = 2 ^ (k + 1) := by
  have h := (Params.wf_parts.1 h).1
  simp only [Params.numbersOk, Bool.and_eq_true, List.any_eq_true, List.mem_range, beq_iff_eq] at h
  exact h.1.1.1.1.1.1.1.1

/-- The numbers of a well-formed instance. -/
theorem Params.wf_numbers {p : Params} (h : p.wf = true) :
    p.flashSize % p.pageSize = 0 ∧ p.flashSize < 2 ^ 32 ∧ p.bootStart % p.pageSize = 0 ∧ p.bootStart < p.flashSize ∧
      0 < p.magicKeyValue ∧ p.magicKeyValue < 2 ^ p.magicWidth ∧ 1 ≤ p.bootTimeoutTicks ∧ p.bootTimeoutTicks ≤ 751 := by
  have h := (Params.wf_parts.1 h).1
  simp only [Params.numbersOk, Bool.and_eq_true, beq_iff_eq, decide_eq_true_eq] at h
  tauto

/-- The descriptor parameters of a well-formed instance. -/
theorem Params.wf_descriptors {p : Params} (h : p.wf = true) :
    p.hidReportDesc.length ≤ 255 ∧ ∀ e ∈ p.strings, e.2.length ≤ 126 := by
  obtain ⟨-, h, h'⟩ := Params.wf_parts.1 h
  simp only [Params.hidReportOk, Params.stringsOk, Bool.and_eq_true, decide_eq_true_eq, List.all_eq_true] at h h'
  tauto

/-- The report descriptor of a well-formed instance declares what 40_descriptor_server.md R104 asks for. -/
theorem Params.wf_hidReport {p : Params} (h : p.wf = true) :
    ∃ d, Machine.hidDeclared p.hidReportDesc = some d ∧ d.vendorPage = true ∧ Machine.featureBytes d 1 = 6 ∧
      Machine.featureBytes d 2 = 131 ∧ d.inOrOut = false := by
  obtain ⟨-, h, -⟩ := Params.wf_parts.1 h
  simp only [Params.hidReportOk, Bool.and_eq_true, Machine.reportDescOk] at h
  cases hd : Machine.hidDeclared p.hidReportDesc with
  | none => simp [hd] at h
  | some d => exact ⟨d, rfl, by simpa [hd, and_assoc] using h.2⟩

theorem Params.wf_pageSize_pos {p : Params} (h : p.wf = true) : 2 ≤ p.pageSize ∧ p.pageSize % 2 = 0 := by
  obtain ⟨k, -, hk⟩ := Params.wf_pageSize h
  have : 0 < 2 ^ k := Nat.two_pow_pos k
  rw [hk, Nat.pow_succ]
  omega

end Sys2Proof

namespace Sys2Proof.Machine

/-- An even address has room for a word in its page. -/
theorem offset_lt {p : Params} (h : p.wf = true) {a : Nat} (ha : a % 2 = 0) :
    offsetOf p a + 1 < p.pageSize ∧ offsetOf p a % 2 = 0 := by
  obtain ⟨h2, he⟩ := Params.wf_pageSize_pos h
  have hlt : offsetOf p a < p.pageSize := Nat.mod_lt _ (by omega)
  have hmod : offsetOf p a % 2 = a % 2 := Nat.mod_mod_of_dvd a (Nat.dvd_of_mod_eq_zero he)
  omega

/-- The page of an address below the boot section lies inside FLASH, below the boot section. -/
theorem page_in_flash {p : Params} (h : p.wf = true) {a : Nat} (ha : a < p.bootStart) :
    pageBase p (pageOf p a) + p.pageSize ≤ p.bootStart ∧ pageInFlash p (pageOf p a) = true := by
  obtain ⟨h2, -⟩ := Params.wf_pageSize_pos h
  obtain ⟨-, -, hb, hbf, -⟩ := Params.wf_numbers h
  obtain ⟨q, hq⟩ := Nat.dvd_of_mod_eq_zero hb
  have h1 : a / p.pageSize < q := Nat.div_lt_of_lt_mul (by rw [← hq]; exact ha)
  have h3 : pageBase p (pageOf p a) + p.pageSize ≤ p.bootStart := by
    have : (a / p.pageSize + 1) * p.pageSize ≤ q * p.pageSize := Nat.mul_le_mul_right _ h1
    rw [Nat.add_mul, Nat.one_mul, Nat.mul_comm q, ← hq] at this
    exact this
  exact ⟨h3, by simp only [pageInFlash, decide_eq_true_eq]; omega⟩

/-- An address is its page's base and its offset. -/
theorem base_add_offset (p : Params) (a : Nat) : pageBase p (pageOf p a) + offsetOf p a = a := by
  simp only [pageBase, pageOf, offsetOf]
  rw [Nat.mul_comm]
  exact Nat.div_add_mod a p.pageSize

/-- `ADDR_WIDTH` covers FLASH. -/
theorem flashSize_le_addr {p : Params} (h : p.wf = true) : p.flashSize ≤ 2 ^ addrWidth p := by
  obtain ⟨-, hf, -⟩ := Params.wf_numbers h
  unfold addrWidth
  split <;> omega

end Sys2Proof.Machine
end

