-- ==== Sys2Proof/Laws/PerInstr.lean ====
section
/-! SUPPORT. Statements about every instruction as syntax, one lemma per constructor. -/

namespace Sys2Proof.Laws

/-- What SETUP acceptance latches from the packet of an instruction is its request: the five fields of R80 at their
offsets, each 16-bit field low byte first (30_encoding.md R80, 41_control_transfer.md R141). -/
def Latch.Statement (i : Instr) : Prop := requestOf (encode i) = i.request

theorem Latch.getDescriptorDevice (rt : Byte) (idx len : Word16) :
    Latch.Statement (.getDescriptorDevice rt idx len) := requestOf_packetOf _

theorem Latch.getDescriptorConfiguration (rt : Byte) (idx len : Word16) :
    Latch.Statement (.getDescriptorConfiguration rt idx len) := requestOf_packetOf _

theorem Latch.getDescriptorHidReport (rt : Byte) (idx len : Word16) :
    Latch.Statement (.getDescriptorHidReport rt idx len) := requestOf_packetOf _

theorem Latch.getDescriptorString (rt i : Byte) (idx len : Word16) :
    Latch.Statement (.getDescriptorString rt i idx len) := requestOf_packetOf _

theorem Latch.getDescriptorOther (rt : Byte) (val idx len : Word16) :
    Latch.Statement (.getDescriptorOther rt val idx len) := requestOf_packetOf _

theorem Latch.setAddress (rt : Byte) (val idx len : Word16) :
    Latch.Statement (.setAddress rt val idx len) := requestOf_packetOf _

theorem Latch.setConfiguration (val idx len : Word16) :
    Latch.Statement (.setConfiguration val idx len) := requestOf_packetOf _

theorem Latch.getConfiguration (val idx len : Word16) :
    Latch.Statement (.getConfiguration val idx len) := requestOf_packetOf _

theorem Latch.hidSetIdle (val idx len : Word16) :
    Latch.Statement (.hidSetIdle val idx len) := requestOf_packetOf _

theorem Latch.hidSetReportExit (valHi : Byte) (idx len : Word16) :
    Latch.Statement (.hidSetReportExit valHi idx len) := requestOf_packetOf _

theorem Latch.hidSetReportFlash (valHi : Byte) (idx len : Word16) :
    Latch.Statement (.hidSetReportFlash valHi idx len) := requestOf_packetOf _

theorem Latch.hidSetReportOther (val idx len : Word16) :
    Latch.Statement (.hidSetReportOther val idx len) := requestOf_packetOf _

theorem Latch.hidGetReportDeviceInfo (valHi : Byte) (idx len : Word16) :
    Latch.Statement (.hidGetReportDeviceInfo valHi idx len) := requestOf_packetOf _

theorem Latch.unsupported (rt rq : Byte) (val idx len : Word16) :
    Latch.Statement (.unsupported rt rq val idx len) := requestOf_packetOf _

end Sys2Proof.Laws
end

