-- ==== Sys2Proof/Laws/Program.lean ====
section
/-! SUPPORT. The small laws of what statements about a flash session are made of: word bytes, pages, chunk data, packets
of an OUT data phase, the report buffer. -/

namespace Sys2Proof.Machine

/-- The byte at a word's own address is its low byte. -/
theorem wordByte_even (w : Nat → Word16) {k : Nat} (h : k % 2 = 0) : wordByte w k = lo8 (w (k / 2)) := by
  simp [wordByte, h]

/-- The byte behind it is its high byte. -/
theorem wordByte_odd (w : Nat → Word16) {k : Nat} (h : k % 2 = 0) : wordByte w (k + 1) = hi8 (w (k / 2)) := by
  have h1 : (k + 1) % 2 ≠ 0 := by omega
  have h2 : (k + 1) / 2 = k / 2 := by omega
  simp [wordByte, h1, h2]

/-- The word behind an even address is in the same page, at the next offset, or it begins the next page. -/
theorem page_next {ps a : Nat} (h2 : 2 ≤ ps) (he : ps % 2 = 0) (ha : a % 2 = 0) :
    (a % ps + 2 < ps ∧ (a + 2) % ps = a % ps + 2 ∧ (a + 2) / ps = a / ps) ∨
      (a % ps + 2 = ps ∧ (a + 2) % ps = 0 ∧ (a + 2) / ps = a / ps + 1) := by
  have h3 : a % ps < ps := Nat.mod_lt _ (by omega)
  have h4 : a % ps % 2 = 0 := by rw [Nat.mod_mod_of_dvd a (Nat.dvd_of_mod_eq_zero he)]; exact ha
  have h5 := Nat.div_add_mod a ps
  rcases Nat.lt_or_ge (a % ps + 2) ps with h | h
  · have e : a + 2 = (a % ps + 2) + ps * (a / ps) := by omega
    refine .inl ⟨h, ?_, ?_⟩
    · rw [e, Nat.add_mul_mod_self_left, Nat.mod_eq_of_lt h]
    · rw [e, Nat.add_mul_div_left _ _ (by omega), Nat.div_eq_of_lt h, Nat.zero_add]
  · have e : a + 2 = 0 + ps * (a / ps + 1) := by rw [Nat.mul_add]; omega
    refine .inr ⟨by omega, ?_, ?_⟩
    · rw [e, Nat.add_mul_mod_self_left, Nat.zero_mod]
    · rw [e, Nat.add_mul_div_left _ _ (by omega), Nat.zero_div, Nat.zero_add]

/-- Every word of a session lies below the address the session has come to. -/
theorem sessLast_lt {s : State} {A a : Nat} {w : Nat → Word16} {old : Memory} (h : s.Programmed A a w old) (ha : A ≤ a) :
    ∀ l, s.sessLast = some l → l < a := by
  intro l hl
  have h := h.last
  split at h
  · have := h l hl; omega
  · rw [h] at hl; injection hl; omega

/-- The words of a chunk's data, byte by byte. -/
theorem wordBytes_get (ws : List Word16) (i : Nat) (hi : i < ws.length) :
    (ws.flatMap (fun w => [lo8 w, hi8 w]))[2 * i]? = some (lo8 ws[i]) ∧
      (ws.flatMap (fun w => [lo8 w, hi8 w]))[2 * i + 1]? = some (hi8 ws[i]) := by
  induction ws generalizing i with
  | nil => simp at hi
  | cons w ws ih =>
    cases i with
    | zero => simp
    | succ i =>
      have h := ih i (by simpa using hi)
      simp only [List.flatMap_cons]
      rw [show 2 * (i + 1) = 2 * i + 1 + 1 by omega, show 2 * i + 1 + 1 + 1 = (2 * i + 1) + 1 + 1 by omega]
      simpa using h

theorem length_wordBytes (ws : List Word16) : (ws.flatMap (fun w => [lo8 w, hi8 w])).length = 2 * ws.length := by
  induction ws with
  | nil => rfl
  | cons w ws ih => simp only [List.flatMap_cons, List.length_append, ih, List.length_cons, List.length_nil]; omega

/-- A chunk of `n` words is 4 + 2n bytes. -/
theorem length_chunkData (p : Params) (a : Nat) (ws : List Word16) : (chunkData p a ws).length = 4 + 2 * ws.length := by
  simp only [chunkData, List.length_append, length_wordBytes, List.length_cons, List.length_nil]

theorem outPackets_nil : outPackets [] = [] := rfl

/-- The first packet of an OUT data phase takes the first 64 bytes. -/
theorem outPackets_cons {d : List Byte} (h : 0 < d.length) : outPackets d = d.take 64 :: outPackets (d.drop 64) := by
  unfold outPackets
  have e : (d.length + 63) / 64 = ((d.drop 64).length + 63) / 64 + 1 := by rw [List.length_drop]; omega
  rw [e, List.range_succ_eq_map, List.map_cons, List.map_map]
  congr 1
  apply List.map_congr_left
  intro k _
  simp only [Function.comp_apply, List.drop_drop]
  congr 2
  omega

theorem length_rptStore {r p : List Byte} {k : Nat} (hr : r.length = 132) (hk : k + p.length ≤ 132) :
    (rptStore r k p).length = 132 := by
  simp only [rptStore, List.length_append, List.length_take, List.length_drop]; omega

/-- The bytes received so far, with the packet behind them. -/
theorem take_rptStore {r p : List Byte} {k : Nat} (h : k ≤ r.length) :
    (rptStore r k p).take (k + p.length) = r.take k ++ p := by
  unfold rptStore
  have e : (r.take k ++ p).length = k + p.length := by simp only [List.length_append, List.length_take]; omega
  rw [List.take_append_of_le_length (by omega), List.take_of_length_le (by omega)]

end Sys2Proof.Machine
end

