-- ==== Sys2Proof/Tests/Slice0.lean ====
section
/-! SUPPORT. Tests, each on one step or one decode of a small state, with results from 95_test_vectors.md or the rule
cited; and, for each obligation with hypotheses, a witness that meets them. -/

namespace Sys2Proof.Tests

open Sys2Proof Sys2Proof.Machine

/-! ### Small states -/

/-- S0 of 95_test_vectors.md §0.2 in instance E1: enumerable, idle, with nothing scripted. -/
def s0 : State :=
  { State.reset with
    par := Params.e1
    ep0SetupBuf := ⟨0, 0, 0, 0, 0, 0, 0, 0⟩
    ep0OutBuf := []
    ep0InBuf := []
    rpt := List.replicate 132 0
    rstcauseReg := Causes.none
    resetCause := ⟨true, false, false, false⟩
    magicKey := 0
    wdtEnabled := false
    ivsel := .boot
    usbEnabled := true
    usbAttached := true
    ep0Configured := true
    intEn := true
    fsm := some .idle
    bootPhase := .usb }

/-- S0 at another value of `fsm`, with a latched request. -/
def s0At (f : Fsm) (r : Request) : State := { s0 with fsm := some f, latch := some r }

/-- The parameters of instance E2 (95_test_vectors.md §0.1). -/
def e2 : Params := { Params.e1 with pageSize := 256, flashSize := 131072, bootStart := 0x1E000 }

/-- A SET_REPORT request of a report id and a wLength. -/
def report (id len : Word16) : Request := ⟨0x21, 0x09, 0x0300 + id, 0, len⟩

/-- S0 in FL_WORD at an address with `n` words to go. -/
def s0Chunk (a n : Nat) : State :=
  { s0At .flWord (report 2 132) with rxCnt := some 132, fl := some ⟨a, 0, n⟩, led := true }

/-- S0 with one scripted move. -/
def s0Move (m : Move) : State := { s0 with script := [m] }

/-- The state of an open boot window (70_reset_and_hazards.md R304) after an external reset in E1. -/
def window : State :=
  { s0 with
    fsm := none, bootPhase := .window, usbEnabled := false, usbAttached := false, ep0Configured := false,
    timerRunning := true, magicKey := 0x7777, ivsel := .app, resetCause := ⟨false, true, false, false⟩ }

/-- The state at boot arbitration, with the causes given. -/
def atBoot (c : Causes) : State :=
  { window with bootPhase := .decide, timerRunning := false, intEn := false, magicKey := 0, rstcauseReg := c }

/-! ### WellFormed refuses -/

theorem test_wf_other_device : Instr.wf (.getDescriptorOther 0x80 0x0100 0 18) = false := by decide

theorem test_wf_other_configuration : Instr.wf (.getDescriptorOther 0x80 0x0200 0 9) = false := by decide

theorem test_wf_other_hidReport : Instr.wf (.getDescriptorOther 0x81 0x2200 0 9) = false := by decide

theorem test_wf_other_string : Instr.wf (.getDescriptorOther 0x80 0x03FF 0 9) = false := by decide

theorem test_wf_setReportOther : Instr.wf (.hidSetReportOther 0x0301 0 8) = false ∧
    Instr.wf (.hidSetReportOther 0x0302 0 8) = false := by decide

theorem test_wf_unsupported_anyType : Instr.wf (.unsupported 0x80 0x06 0x0100 0 18) = false ∧
    Instr.wf (.unsupported 0x00 0x05 7 0 0) = false := by decide

theorem test_wf_unsupported_pair : Instr.wf (.unsupported 0x00 0x09 1 0 0) = false ∧
    Instr.wf (.unsupported 0x80 0x08 0 0 1) = false ∧ Instr.wf (.unsupported 0x21 0x0A 0 0 0) = false ∧
    Instr.wf (.unsupported 0x21 0x09 0x0303 0 8) = false := by decide

theorem test_wf_unsupported_info : Instr.wf (.unsupported 0xA1 0x01 0x0301 0 7) = false := by decide

/-! ### An instance that R104 or R105 forbids is refused -/

/-- 93_implementation_defined.md G11: what its 33 bytes declare -/
theorem test_hidDeclared : hidDeclared Params.e1.hidReportDesc = some ⟨true, false, [(1, 48), (2, 1048)]⟩ := by decide

/-- R104: no report descriptor; bytes that end inside an item -/
theorem test_wf_hid_none : Params.wf { Params.e1 with hidReportDesc := [] } = false ∧
    Params.wf { Params.e1 with hidReportDesc := Params.e1.hidReportDesc ++ [0x06, 0x00] } = false := by decide

/-- R104 (a): G11 with usage page 1 -/
theorem test_wf_hid_page : Params.wf { Params.e1 with
    hidReportDesc := [0x05, 0x01] ++ Params.e1.hidReportDesc.drop 3 } = false := by decide

/-- R104 (b), (c): G11 with 7 bytes in report 1, and with 130 bytes in report 2 -/
theorem test_wf_hid_sizes : Params.wf { Params.e1 with hidReportDesc := Params.e1.hidReportDesc.set 17 7 } = false ∧
    Params.wf { Params.e1 with hidReportDesc := Params.e1.hidReportDesc.set 26 130 } = false := by decide

/-- R104 (d): G11 with an input and with an output field behind it -/
theorem test_wf_hid_inOrOut : Params.wf { Params.e1 with hidReportDesc := Params.e1.hidReportDesc ++ [0x81, 0x02] } = false ∧
    Params.wf { Params.e1 with hidReportDesc := Params.e1.hidReportDesc ++ [0x91, 0x02] } = false := by decide

/-- HID 1.11: a report size under Push and Pop, and a Pop with nothing pushed -/
theorem test_hid_pushPop : hidDeclared [0x75, 8, 0x95, 3, 0xA4, 0x75, 1, 0xB1, 0, 0xB4, 0xB1, 0] =
      some ⟨false, false, [(0, 3), (0, 24)]⟩ ∧
    hidDeclared [0xB4] = none := by decide

/-- R105: no string, the device string alone, and the language list with one string -/
theorem test_wf_strings : Params.wf { Params.e1 with strings := [] } = false ∧
    Params.wf { Params.e1 with strings := [(1, [0x0041])] } = false ∧
    Params.wf { Params.e1 with strings := [(0, [0x0409]), (1, [0x0041])] } = false ∧
    Params.wf { Params.e1 with strings := [(0, [0x0409]), (1, [0x0041]), (2, [0x0042])] } = true := by decide

/-- R102: a string index of the device descriptor that the table lacks -/
theorem test_wf_stringRef : Params.wf { Params.e1 with ddIProduct := 4 } = false := by decide

/-! ### Decoding: the words of 95_test_vectors.md V-ENC, byte by byte -/

/-- V-ENC-1 -/
theorem test_decode_device : decode [0x80, 0x06, 0x00, 0x01, 0x00, 0x00, 0x12, 0x00] =
    .ok (.getDescriptorDevice 0x80 0 0x0012) := by rfl

/-- V-ENC-4 -/
theorem test_decode_configuration : decode [0x80, 0x06, 0x00, 0x02, 0x00, 0x00, 0xFF, 0x00] =
    .ok (.getDescriptorConfiguration 0x80 0 0x00FF) := by rfl

/-- V-ENC-5 -/
theorem test_decode_hidReport : decode [0x81, 0x06, 0x00, 0x22, 0x00, 0x00, 0xFF, 0x00] =
    .ok (.getDescriptorHidReport 0x81 0 0x00FF) := by rfl

/-- V-ENC-6: wIndex is 0x0409 -/
theorem test_decode_string : decode [0x80, 0x06, 0x01, 0x03, 0x09, 0x04, 0xFF, 0x00] =
    .ok (.getDescriptorString 0x80 1 0x0409 0x00FF) := by rfl

/-- V-ENC-8 -/
theorem test_decode_otherDescriptor : decode [0x80, 0x06, 0x00, 0x21, 0x00, 0x00, 0x09, 0x00] =
    .ok (.getDescriptorOther 0x80 0x2100 0 9) := by rfl

/-- V-ENC-9 -/
theorem test_decode_setAddress : decode [0x00, 0x05, 0x07, 0x00, 0x00, 0x00, 0x00, 0x00] =
    .ok (.setAddress 0x00 7 0 0) := by rfl

/-- V-ENC-11 -/
theorem test_decode_setConfiguration : decode [0x00, 0x09, 0x01, 0x00, 0x00, 0x00, 0x00, 0x00] =
    .ok (.setConfiguration 1 0 0) := by rfl

/-- V-ENC-13 -/
theorem test_decode_getConfiguration : decode [0x80, 0x08, 0x00, 0x00, 0x00, 0x00, 0x01, 0x00] =
    .ok (.getConfiguration 0 0 1) := by rfl

/-- V-ENC-15 -/
theorem test_decode_setIdle : decode [0x21, 0x0A, 0x00, 0x00, 0x00, 0x00, 0x00, 0x00] =
    .ok (.hidSetIdle 0 0 0) := by rfl

/-- V-ENC-16 -/
theorem test_decode_setReportExit : decode [0x21, 0x09, 0x01, 0x03, 0x00, 0x00, 0x07, 0x00] =
    .ok (.hidSetReportExit 0x03 0 7) := by rfl

/-- V-ENC-18: the report type is not tested -/
theorem test_decode_setReportFlash : decode [0x21, 0x09, 0x02, 0x00, 0x00, 0x00, 0x08, 0x00] =
    .ok (.hidSetReportFlash 0x00 0 8) := by rfl

/-- V-ENC-19 -/
theorem test_decode_setReportOther : decode [0x21, 0x09, 0x03, 0x03, 0x00, 0x00, 0x08, 0x00] =
    .ok (.hidSetReportOther 0x0303 0 8) := by rfl

/-- V-ENC-20 -/
theorem test_decode_getReport : decode [0xA1, 0x01, 0x01, 0x03, 0x00, 0x00, 0x07, 0x00] =
    .ok (.hidGetReportDeviceInfo 0x03 0 7) := by rfl

/-- V-ENC-14, V-ENC-23: GET_CONFIGURATION and GET_REPORT with another bmRequestType -/
theorem test_decode_unsupported :
    decode [0x00, 0x08, 0x00, 0x00, 0x00, 0x00, 0x01, 0x00] = .ok (.unsupported 0x00 0x08 0 0 1) ∧
    decode [0x21, 0x01, 0x01, 0x03, 0x00, 0x00, 0x07, 0x00] = .ok (.unsupported 0x21 0x01 0x0301 0 7) :=
  ⟨rfl, rfl⟩

/-- R88 -/
theorem test_decode_length : decode [0x80, 0x06, 0x00, 0x01, 0x00, 0x00, 0x12] = .error (.notEightBytes 7) ∧
    decode [] = .error (.notEightBytes 0) ∧
    decode [0x80, 0x06, 0x00, 0x01, 0x00, 0x00, 0x12, 0x00, 0x00] = .error (.notEightBytes 9) := ⟨rfl, rfl, rfl⟩

/-- V-ENC-6: the SETUP word of the packet, and back -/
theorem test_setup64 : setup64 ⟨0x80, 0x06, 0x01, 0x03, 0x09, 0x04, 0xFF, 0x00⟩ = 0x00FF040903010680 ∧
    packetOfWord 0x00FF040903010680 = ⟨0x80, 0x06, 0x01, 0x03, 0x09, 0x04, 0xFF, 0x00⟩ := by decide

/-- V-ENC-17 -/
theorem test_encode_setReportFlash :
    (encode (.hidSetReportFlash 0x03 0 0x0084)).bytes = [0x21, 0x09, 0x02, 0x03, 0x00, 0x00, 0x84, 0x00] := by decide

/-- The host's words: bits 7 to 0 are the first byte. -/
theorem test_decodeTableWord : decodeTableWord 64 0x00840000030201A1 = some (.unsupported 0xA1 0x01 0x0302 0 0x0084) ∧
    decodeTableWord 32 0x00000600 = some (.getDescriptorOther 0x00 0 0 0) := by decide

/-- Each row's own match word decodes to that row. -/
theorem test_rows_decode : opcodeRows.map (fun r => (decodeTableWord 64 r.pattern).map Instr.row) =
    (List.range 14).map some := by decide

/-! ### A placed instruction runs from the reset state -/

/-- Each row's match word, placed in the reset state, has a next state. -/
theorem test_rows_run : opcodeRows.all (fun r => (nextState (step (State.reset.withFetchWord 64 r.pattern))).isSome) =
    true := by decide

/-- What a field of the next state is, if there is one. -/
def after {α : Type} (r : Result) (f : State → α) : Option α := (nextState r).map f

theorem test_placed_device : after (step (State.reset.withFetchWord 64 0x0012000001000680)) State.fsm =
    some (some .sendWait) := by decide

theorem test_placed_setAddress : after (step (State.reset.withFetchWord 64 0x0000000000070500)) State.newAddr =
    some (some 7) := by decide

theorem test_placed_setReportFlash : after (step (State.reset.withFetchWord 64 0x0084000003020921)) State.fsm =
    some (some .recvWait) := by decide

theorem test_placed_unsupported : after (step (State.reset.withFetchWord 64 0)) State.ep0Stall = some true := by decide

/-! ### One dispatch segment each -/

/-- R108: `req_len` = 8 sends the first 8 bytes -/
theorem test_device_prefix : after (exec (.getDescriptorDevice 0x80 0 8) s0) State.tx =
    some (some ⟨[0x12, 0x01, 0x10, 0x01, 0, 0, 0, 0x40], 0, 8, 0⟩) := by decide

/-- V-L1-1: configuration, wLength 9 -/
theorem test_configuration_prefix : after (exec (.getDescriptorConfiguration 0x80 0 9) s0) State.tx =
    some (some ⟨[0x09, 0x02, 0x22, 0x00, 0x01, 0, 0, 0, 0], 0, 9, 0⟩) := by decide

/-- V-L1-1: the whole report descriptor for a longer wLength -/
theorem test_hidReport_whole :
    after (exec (.getDescriptorHidReport 0x81 0 255) s0) (fun t => t.tx.map (fun c => (c.data.take 4, c.rem))) =
      some (some ([0x06, 0x00, 0xFF, 0x09], 33)) := by decide

/-- R111: string 1 of T1 -/
theorem test_string_one : after (exec (.getDescriptorString 0x80 1 0x0409 255) s0) State.tx =
    some (some ⟨[0x08, 0x03, 0x41, 0x00, 0x42, 0x00, 0x43, 0x00], 0, 8, 0⟩) := by decide

/-- V-ENC-7: an absent string stalls -/
theorem test_string_absent : after (exec (.getDescriptorString 0x80 4 0x0409 255) s0)
    (fun t => (t.ep0Stall, t.fsm)) = some (true, some .idle) := by decide

/-- R112 -/
theorem test_other_stalls : after (exec (.getDescriptorOther 0x80 0x2100 0 9) s0)
    (fun t => (t.ep0Stall, t.fsm, t.tx)) = some (true, some .idle, none) := by decide

/-- V-ENC-10: bit 7 of the value is dropped -/
theorem test_setAddress_seven_bits : after (exec (.setAddress 0x80 0x0085 0 0) s0)
    (fun t => (t.newAddr, t.devAddr, t.ep0InArmed)) = some (some 5, 0, true) := by decide

/-- V-L1-4: n = 0xFF -/
theorem test_setConfiguration_ff : after (exec (.setConfiguration 0x00FF 0 0) s0)
    (fun t => (t.usbConfiguration, t.ep1Enabled)) = some (0xFF, true) := by decide

/-- R150: `req_val[15:8]` is ignored, and 0 disables EP1 -/
theorem test_setConfiguration_zero : after (exec (.setConfiguration 0x0100 0 0) { s0 with ep1Enabled := true })
    (fun t => (t.usbConfiguration, t.ep1Enabled)) = some (0, false) := by decide

/-- R151: after SET_CONFIGURATION 7 -/
theorem test_getConfiguration : after (exec (.getConfiguration 0 0 1) { s0 with usbConfiguration := 7 }) State.tx =
    some (some ⟨[7], 0, 1, 0⟩) := by decide

/-- R151: `req_len` = 0 sends a ZLP -/
theorem test_getConfiguration_zlp : after (exec (.getConfiguration 0 0 0) s0) State.tx =
    some (some ⟨[], 0, 0, 0⟩) := by decide

/-- R190 -/
theorem test_setIdle : after (exec (.hidSetIdle 0x7D05 0 0) s0) (fun t => (t.ep0InArmed, t.fsm)) =
    some (true, some .idle) := by decide

/-- R196: wLength 0 also exits -/
theorem test_setReportExit_empty : after (exec (.hidSetReportExit 0x03 0 0) s0) (fun t => (t.fsm, t.rxCnt)) =
    some (some .srDone, some 0) := by decide

/-- R192 -/
theorem test_setReportFlash_begin : after (exec (.hidSetReportFlash 0x03 0 132) { s0 with rxCnt := some 9 })
    (fun t => (t.fsm, t.rxCnt, t.ep0InArmed)) = some (some .recvWait, some 0, false) := by decide

/-- R194: in ProcessThenAck mode nothing is armed yet -/
theorem test_setReportOther_lateAck :
    after (exec (.hidSetReportOther 0x0303 0 0) { s0 with par := { Params.e1 with ackOrder := .processThenAck } })
      (fun t => (t.fsm, t.ep0InArmed)) = some (some .srDone, false) := by decide

/-- V-L1-11: INFO of E1 and of E2 -/
theorem test_info : after (exec (.hidGetReportDeviceInfo 0x03 0 7) s0) State.tx =
      some (some ⟨[0x01, 0x80, 0x00, 0x00, 0x80, 0x00, 0x00], 0, 7, 0⟩) ∧
    infoReport e2 = [0x01, 0x00, 0x01, 0x00, 0x00, 0x02, 0x00] := by decide

/-- V-L1-2: GET_STATUS stalls -/
theorem test_unsupported_stalls : after (exec (.unsupported 0x80 0x00 0 0 2) s0)
    (fun t => (t.ep0Stall, t.fsm, t.ep0InArmed)) = some (true, some .idle, false) := by decide

/-! ### One later segment each -/

/-- V-L1-13: the address bytes 00 01 00 are 0x100 in E1 and 0x200 in E2 -/
theorem test_chunk_address : chunkAddr Params.e1 [2, 0x00, 0x01, 0x00] = some 0x100 ∧
    chunkAddr e2 [2, 0x00, 0x01, 0x00] = some 0x200 := by decide

/-- R201: 8 bytes are two words, and an odd byte is dropped -/
theorem test_wordCount : wordCount .fromLength 8 = 2 ∧ wordCount .fromLength 9 = 2 ∧ wordCount .fromLength 3 = 0 ∧
    wordCount .fullBuffer 3 = 64 := by decide

/-- V-L1-7 -/
theorem test_boot_section : after (engineTurn (s0Chunk 0x7800 1)) (fun t => (t.faults, t.nvmOp, t.led)) =
    some ([⟨.bootSectionWrite 0x7800, some .flWord⟩], .idle, true) := by decide

/-- V-L1-9: word 0 of the chunk AA BB CC DD goes to page 0 low byte first -/
theorem test_stage_word :
    after (engineTurn
        { s0Chunk 0 2 with fsm := some .flEraseWait, rpt := [2, 0, 0, 0, 0xAA, 0xBB, 0xCC, 0xDD] })
      (fun t => ((t.pbData.read 0, t.pbData.read 1), t.pbTag, t.sessLast, t.fl)) =
      some ((0xAA, 0xBB), some 0, some 0, some ⟨2, 1, 2⟩) := by decide

/-- R144: a 64-byte blob needs a second, empty packet -/
theorem test_send_full :
    after (engineTurn { s0At .sendWait ⟨0x80, 6, 0x0100, 0, 255⟩ with tx := some ⟨List.replicate 64 1, 0, 64, 0⟩ })
      (fun t => (t.ep0InBuf.length, t.fsm)) = some (64, some .sendWait) := by decide

/-- V-L1-3: the address is set with its enable bit once the packet has been taken -/
theorem test_address_set : after (engineTurn { s0At .addrWait ⟨0, 5, 7, 0, 0⟩ with newAddr := some 7 })
    (fun t => (t.devAddr, t.addrEn, t.fsm)) = some (7, true, some .idle) := by decide

/-- R21, R23: the request is over in IDLE, and its registers hold no value -/
theorem test_request_over : after (exec (.unsupported 0x80 0x00 0 0 2) { s0 with tx := some ⟨[1], 0, 1, 0⟩, rxCnt := some 5 })
    (fun t => (t.latch, t.tx, t.rxCnt)) = some (none, none, none) := by decide

/-- R288: the exit reaches OFF with its cause, which the observation keeps over the device reset -/
theorem test_observe_off : after (step (s0At .exitSettle (report 1 7))) (fun t => t.observe.off) =
      some [⟨false, false, true, false⟩] ∧
    after (step { s0At .off (report 1 7) with offs := [⟨false, false, true, false⟩] })
      (fun t => (t.observe.off, t.bootPhase)) = some ([⟨false, false, true, false⟩], .decide) := by decide

/-- R288: the run has ended at S0, and has not while the host has a move left -/
theorem test_ended : s0.ended ∧ ¬(s0Move (.host .busReset)).ended ∧ (s0Move .engine).ended := by decide

/-- V-L1-10: the 751st tick with flash[0] = 0x0C -/
theorem test_window_app : after (step { window with timeoutCounter := 750, flash := [(0, 0x0C)] })
    (fun t => (t.bootPhase, t.magicKey, t.timerRunning)) = some (.app, 0, false) := by decide

/-- V-L1-10: with flash[0] = 0xFF the block initialises USB -/
theorem test_window_usb : after (step { window with timeoutCounter := 750 })
    (fun t => (t.bootPhase, t.fsm, t.timeoutCounter, t.ivsel)) = some (.usb, some .idle, 751, .boot) := by decide

/-- R307, R288 (c): nothing moves in the application -/
theorem test_app_refuses : step { window with bootPhase := .app } = .refused .applicationRuns := by rfl

/-- R136, U28: no OUT of 65 bytes -/
theorem test_long_out : step (s0Move (.host (.out 0 0 (List.replicate 65 0)))) = .refused .noSuchMove := by rfl

/-! ### Witnesses: the hypotheses of each obligation can be met -/

theorem witness_DecodeOfEncode : Instr.wf (.unsupported 0x80 0x00 0 0 2) = true ∧
    Instr.wf (.getDescriptorOther 0x80 0x0101 0 18) = true ∧ Instr.wf (.hidSetReportOther 0x0300 0 0) = true := by decide

theorem witness_EncodeOfDecode : (0 : Nat) < 2 ^ 64 ∧ 2 ^ 64 - 1 < 2 ^ 64 ∧
    ([0x80, 6, 0, 1, 0, 0, 18, 0] : List Byte).length = 8 ∧ ([0x80] : List Byte).length ≠ 8 := by decide

/-- Rows 1 and 5, rows 10 and 12, rows 1 and 14 match one word. -/
theorem witness_DecoderTakesTheFirst :
    (opcodeRows[0]?.map (·.matches 0x01000600) = some true ∧ opcodeRows[4]?.map (·.matches 0x01000600) = some true ∧
      opcodeRows[13]?.map (·.matches 0x01000600) = some true) ∧
    opcodeRows[9]?.map (·.matches 0x00010921) = some true ∧ opcodeRows[11]?.map (·.matches 0x00010921) = some true := by
  decide

/-- S0 with a SETUP packet in the bank. -/
def s0Ready : State := { s0 with ep0SetupFull := true, ep0SetupBuf := ⟨0x00, 0x09, 1, 0, 0, 0, 0, 0⟩ }

theorem witness_StepRuns : s0Ready.setupReady ∧ s0Ready.script = [] ∧ s0Ready.nvmOp = .idle ∧
    State.setupReady { s0Ready with script := [.engine] } := by decide

theorem witness_StringRead : (stringDesc Params.e1 1).isSome = true ∧ stringDesc Params.e1 4 = none := by decide

theorem witness_Lookup : (0x21 : Byte) ≠ 0x03 ∧
    ¬((0x00 : Byte) = 0x00 ∧ ((0x21 : Byte) = 0x01 ∨ (0x21 : Byte) = 0x02 ∨ (0x21 : Byte) = 0x22)) := by decide

theorem witness_wf : Params.e1.wf = true ∧ e2.wf = true ∧ (lookup Params.e1 3 1).isSome = true := by decide

/-- The two situations in ADDR_WAIT. -/
theorem witness_SetAddress :
    let s : State := { s0At .addrWait ⟨0, 5, 7, 0, 0⟩ with newAddr := some 7 }
    s.fsm = some .addrWait ∧ s.ep0InArmed = false ∧ s.bootPhase = .usb ∧ s.faults = [] ∧ s.newAddr = some 7 ∧
      State.ep0InArmed { s with ep0InArmed := true } = true := by decide

theorem witness_GetConfiguration : (255 : Nat) < 256 ∧ (1 : Word16) ≠ 0 := by decide

/-- S0 in an IN data phase of the bytes `d`. -/
def s0Send (d : List Byte) : State := { s0At .sendWait ⟨0x80, 6, 0x0100, 0, 255⟩ with tx := some ⟨d, 0, d.length, 0⟩ }

theorem witness_SendStep :
    let s := s0Send [1, 2]
    s.faults = [] ∧ s.bootPhase = .usb ∧ s.fsm = some .sendWait ∧ s.tx = some ⟨[1, 2], 0, 2, 0⟩ ∧ s.ep0InArmed = false ∧
      s.ep0OutFull = false ∧ State.ep0InArmed { s with ep0InArmed := true } = true ∧
      State.ep0OutFull { s with ep0OutFull := true } = true := by decide

/-- A blob of 64 bytes, the boundary at which a second packet follows, and an empty one. -/
theorem witness_ControlRead (n : Nat) (_ : n = 0 ∨ n = 64) :
    let d : List Byte := List.replicate n 7
    let s := { s0Send d with script := readScript 0 (d.length / 64 + 1) }
    s.listening ∧ s.bootPhase = .usb ∧ s.fsm = some .sendWait ∧ s.tx = some ⟨d, 0, d.length, 0⟩ ∧ s.ep0Stall = false ∧
      s.ep0OutFull = false ∧ s.ep0InArmed = false ∧ s.script = readScript s.currentAddr (d.length / 64 + 1) :=
  ⟨⟨rfl, rfl, rfl, rfl⟩, rfl, rfl, rfl, rfl, rfl, rfl, rfl⟩

/-- S0 in an OUT data phase with `rx` bytes received, a wLength and a packet of `n` bytes in the bank. -/
def s0Recv (rx : Nat) (len : Word16) (n : Nat) : State :=
  { s0At .recvWait (report 2 len) with rxCnt := some rx, ep0OutFull := true, ep0OutBuf := List.replicate n 0xAA }

/-- One byte past wLength; one byte past the buffer within wLength. -/
theorem witness_ReceiveStepFaults :
    (s0Recv 8 8 1).fsm = some .recvWait ∧ (s0Recv 8 8 1).ep0OutFull = true ∧
    (8 : Word16).toNat < 8 + (s0Recv 8 8 1).ep0OutBuf.length ∧
    128 + (s0Recv 128 200 5).ep0OutBuf.length ≤ (200 : Word16).toNat ∧
    132 < 128 + (s0Recv 128 200 5).ep0OutBuf.length ∧ (s0Recv 128 200 5).latch = some (report 2 200) ∧
    (s0Recv 128 200 5).rxCnt = some 128 ∧ (s0Recv 128 200 5).faults = [] ∧ (s0Recv 128 200 5).bootPhase = .usb := by
  decide

/-- The last 4 bytes of a full report, and a full packet in the middle of it. -/
theorem witness_ReceiveStepStores :
    let s := s0Recv 128 132 4
    let s' := s0Recv 64 132 64
    s.faults = [] ∧ s.bootPhase = .usb ∧ s.fsm = some .recvWait ∧ s.ep0OutFull = true ∧ s.latch = some (report 2 132) ∧
      s.rxCnt = some 128 ∧ s.rpt.length = 132 ∧ 128 + s.ep0OutBuf.length ≤ (report 2 132).len.toNat ∧
      128 + s.ep0OutBuf.length ≤ 132 ∧ 128 + s.ep0OutBuf.length = (report 2 132).len.toNat ∧
      s'.rxCnt = some 64 ∧ 64 + s'.ep0OutBuf.length ≠ (report 2 132).len.toNat ∧ 64 ≤ s'.ep0OutBuf.length ∧
      s.par.ackOrder = .ackThenProcess ∧
      State.par { s with par := { Params.e1 with ackOrder := .processThenAck } } =
        { Params.e1 with ackOrder := .processThenAck } :=
  ⟨rfl, rfl, rfl, rfl, rfl, rfl, rfl, by decide, by decide, by decide, rfl, by decide, by decide, rfl, rfl⟩

theorem witness_ExitReport :
    let s := s0At .srDone (report 1 7)
    s.faults = [] ∧ s.bootPhase = .usb ∧ s.fsm = some .srDone ∧ s.latch = some (report 1 7) ∧
      (report 1 7).val.toNat % 256 = 1 := by decide

/-- The watchdog exit of E1, which keeps the magic key. -/
theorem witness_ExitEnds :
    let s := s0At .exitSettle (report 1 7)
    s.faults = [] ∧ s.bootPhase = .usb ∧ s.script = [] ∧ s.nvmOp = .idle ∧ s.fsm = some .exitSettle ∧
      s.par.exitResetCause.powerOn = false ∧ s.par.exitResetCause.brownOut = false := by decide

theorem witness_FlashReport :
    let s : State := { s0At .srDone (report 2 132) with rxCnt := some 132 }
    s.faults = [] ∧ s.bootPhase = .usb ∧ s.fsm = some .srDone ∧ s.latch = some (report 2 132) ∧
      (report 2 132).val.toNat % 256 = 2 ∧ s.rxCnt = some 132 ∧ s.rpt[1]? = some 0 ∧ s.rpt[2]? = some 0 ∧
      s.rpt[3]? = some 0 := by decide

/-- Report ids 0 and 3, in both acknowledgment orders. -/
theorem witness_OtherReport :
    let s := s0At .srDone (report 3 2)
    s.faults = [] ∧ s.bootPhase = .usb ∧ s.fsm = some .srDone ∧ s.latch = some (report 3 2) ∧
      (report 3 2).val.toNat % 256 ≠ 1 ∧ (report 3 2).val.toNat % 256 ≠ 2 ∧ (report 0 2).val.toNat % 256 ≠ 1 ∧
      (report 0 2).val.toNat % 256 ≠ 2 ∧ s.par.ackOrder = .ackThenProcess ∧
      ({ Params.e1 with ackOrder := .processThenAck } : Params).ackOrder = .processThenAck := by decide

theorem witness_ReportId : (nextState (reportStep (s0At .srDone (report 3 2)))).isSome = true := by decide

/-- One witness per clause, at the edges: an odd address, the first address past FLASH, the session's last address, an
address of another page than the buffer's, and the first address of the boot section. -/
theorem witness_WordHazards :
    (s0Chunk 1 1).fl = some ⟨1, 0, 1⟩ ∧ chunkWord (s0Chunk 1 1).rpt 0 = some 0 ∧ (1 : Nat) % 2 ≠ 0 ∧
    ((32768 : Nat) % 2 = 0 ∧ (s0Chunk 32768 1).par.flashSize ≤ 32768) ∧
    (State.sessLast { s0Chunk 64 1 with sessLast := some 64 } = some 64 ∧ 64 < (s0Chunk 64 1).par.flashSize) ∧
    (State.pbTag { s0Chunk 128 1 with pbTag := some 0 } = some 0 ∧ (s0Chunk 128 1).sessLast = none ∧
      0 ≠ 128 / (s0Chunk 128 1).par.pageSize) ∧
    ((s0Chunk 0x7800 1).par.bootStart ≤ 0x7800 ∧ 0x7800 < (s0Chunk 0x7800 1).par.flashSize ∧
      (s0Chunk 0x7800 1).pbTag = none) := by decide

theorem witness_AlignedWord :
    let s := s0Chunk 128 1
    s.faults = [] ∧ s.bootPhase = .usb ∧ s.fsm = some .flWord ∧ s.fl = some ⟨128, 0, 1⟩ ∧ (0 : Nat) ≠ 1 ∧
      chunkWord s.rpt 0 = some 0 ∧ checkWord s 128 = none ∧ 128 % s.par.pageSize = 0 := by decide

/-- An unaligned word at FL_WORD, and an aligned one after its erase. -/
theorem witness_StagedWord :
    let s := s0Chunk 126 1
    s.faults = [] ∧ s.bootPhase = .usb ∧ s.fl = some ⟨126, 0, 1⟩ ∧ s.pbData.wf = true ∧ chunkWord s.rpt 0 = some 0 ∧
      s.fsm = some .flWord ∧ checkWord s 126 = none ∧ 126 % s.par.pageSize ≠ 0 ∧
      State.fsm { s with fsm := some .flEraseWait } = some .flEraseWait ∧ s.nvmOp = .idle := by decide

/-- The word at 124 is inside its page, the word at 126 ends it; at FL_WORD, and at FL_ERASE_WAIT for pages of one word;
the page erased, and with one byte that is not. -/
theorem witness_PageIsCommitted :
    let s := s0Chunk 126 1
    let e : State := { s0Chunk 128 1 with fsm := some .flEraseWait }
    s.faults = [] ∧ s.bootPhase = .usb ∧ s.fl = some ⟨126, 0, 1⟩ ∧ chunkWord s.rpt 0 = some 0 ∧ s.fsm = some .flWord ∧
    checkWord s 126 = none ∧ 126 % s.par.pageSize ≠ 0 ∧ e.fl = some ⟨128, 0, 1⟩ ∧ e.nvmOp = .idle ∧
    (124 + 2) % 2 ^ addrWidth s.par % s.par.pageSize ≠ 0 ∧ (126 + 2) % 2 ^ addrWidth s.par % s.par.pageSize = 0 ∧
    (128 + 2) % 2 ^ addrWidth ({ Params.e1 with pageSize := 2 } : Params) % 2 = 0 ∧
    (∀ k, k < s.par.pageSize → s.flash.read (126 / s.par.pageSize * s.par.pageSize + k) = 0xFF) ∧
    (∃ k, k < s.par.pageSize ∧ Memory.read [(127, 0)] (126 / s.par.pageSize * s.par.pageSize + k) ≠ 0xFF) ∧
    (s0At .flWriteWait (report 2 132)).fsm = some .flWriteWait ∧ s0.nvmOp = .idle ∧
    State.nvmOp { s0 with nvmOp := .write 0 } ≠ .idle :=
  ⟨rfl, rfl, rfl, by decide, rfl, by decide, by decide, rfl, rfl, by decide, by decide, by decide, fun _ _ => rfl,
    ⟨127, by decide, by decide⟩, rfl, rfl, by decide⟩

theorem witness_ChunkEnds :
    let s := s0Chunk 128 0
    s.faults = [] ∧ s.bootPhase = .usb ∧ s.fsm = some .flWord ∧ s.fl = some ⟨128, 0, 0⟩ := by decide

/-- The last page of FLASH. -/
theorem witness_Completion :
    State.nvmOp { s0 with nvmOp := .erase 255 } = .erase 255 ∧ State.nvmOp { s0 with nvmOp := .write 255 } = .write 255 ∧
    pageInFlash s0.par 255 = true ∧ pageInFlash s0.par 256 = false ∧ s0.flash.wf = true := by decide

/-- A step while a page write is in progress, and one while none is. -/
theorem witness_OnlyTheNvmOperation :
    (nextState (step { s0 with nvmOp := .write 1 })).isSome = true ∧ s0.flash.wf = true ∧
    (nextState (step s0)).isSome = true ∧ s0.nvmOp = .idle := by decide

/-- A write completion takes the tag off; a FILL changes the buffer and leaves a tag. -/
theorem witness_PageBuffer :
    after (step { s0 with nvmOp := .write 0, pbTag := some 0, pbData := [(0, 1)] }) State.pbTag = some none ∧
    after (step (s0Chunk 126 1)) (fun t => (t.pbTag, t.pbData)) = some (some 0, [(126, 0), (127, 0)]) ∧
    (s0Chunk 126 1).pbData = [] := by decide

/-- Two words that end the last page below the boot section, whose first 62 words are staged: a chunk that goes on in a
page. -/
theorem witness_Chunk :
    let w : Nat → Word16 := fun _ => 0
    let s : State :=
      { s0Chunk 0x77FC 2 with
        pbTag := some 0xEF, pbData := (List.range 124).map (fun k => (k, 0)), sessLast := some 0x77FA }
    s.par.wf = true ∧ s.faults = [] ∧ s.script = [] ∧ s.bootPhase = .usb ∧ s.nvmOp = .idle ∧ s.fsm = some .flWord ∧
      s.fl = some ⟨0x77FC, 0, 2⟩ ∧ (0 : Nat) ≤ 2 ∧ 0x7780 % s.par.pageSize = 0 ∧ (0x7780 : Nat) ≤ 0x77FC ∧
      (0x77FC : Nat) % 2 = 0 ∧ 0x77FC + 2 * (2 - 0) ≤ s.par.bootStart ∧ s.Programmed 0x7780 0x77FC w [] ∧
      (∀ j, j < 2 - 0 → chunkWord s.rpt (0 + j) = some (w ((0x77FC - 0x7780) / 2 + j))) := by
  refine ⟨by decide, rfl, rfl, rfl, rfl, rfl, rfl, by decide, by decide, by decide, by decide, by decide, ?_, by decide⟩
  constructor
  · rfl
  · decide
  · intro x
    rw [if_neg (by rintro ⟨h, h'⟩; exact absurd (Nat.lt_of_lt_of_eq h' (by decide : _ = 0x7780)) (by omega))]
    exact (ite_self _).symm
  · intro k
    by_cases hk : k < 124
    · exact (by decide : ∀ k, k < 124 →
        Memory.read ((List.range 124).map (fun k => (k, (0 : Byte)))) k =
          if k < 0x77FC % Params.e1.pageSize then
            wordByte (fun _ => 0) (0x77FC - 0x77FC % Params.e1.pageSize - 0x7780 + k) else 0xFF) k hk
    · rw [if_neg (by show ¬k < 124; exact hk)]
      exact Memory.read_of_below (n := 124) (by decide) (by omega)
  · intro h; exact absurd h (by decide)
  · decide
  · decide

/-- Three chunks of 40, 40 and 48 words over the first two pages of E1: the second goes on in a page. -/
def threeChunks : List (List Word16) := [List.replicate 40 1, List.replicate 40 2, List.replicate 48 3]

theorem length_threeChunks : threeChunks.flatten.length = 128 := by
  simp [threeChunks]

theorem witness_Chunks :
    s0.par.wf = true ∧ s0.listening ∧ s0.quiescentReady ∧ s0.script = [] ∧ s0.intEn = true ∧ s0.rpt.length = 132 ∧
      s0.flash.wf = true ∧ s0.pbData = [] ∧ s0.pbTag = none ∧ (∀ l, s0.sessLast = some l → l < 0) ∧
      0 % s0.par.pageSize = 0 ∧ (2 * threeChunks.flatten.length) % s0.par.pageSize = 0 ∧
      0 + 2 * threeChunks.flatten.length ≤ s0.par.bootStart ∧
      0 + 2 * threeChunks.flatten.length ≤ 2 ^ 24 * addrScale s0.par ∧
      (∀ ws ∈ threeChunks, 1 ≤ ws.length ∧ ws.length ≤ 64 ∧ (s0.par.chunkMode = .fullBuffer → ws.length = 64)) := by
  rw [length_threeChunks]
  exact ⟨by decide, by decide, by decide, rfl, rfl, rfl, rfl, rfl, rfl, nofun, by decide, by decide, by decide, by decide,
    by simp [threeChunks, s0, Params.e1]⟩

/-- A step that records a fault, and a state with one. -/
theorem witness_Faults : after (step (s0Chunk 1 1)) State.faults = some [⟨.misaligned 1, some .flWord⟩] ∧
    State.faults { s0 with faults := [⟨.misaligned 1, some .flWord⟩] } ≠ [] := by decide

theorem witness_RunningHandler : handlerRunning (s0Chunk 1 1).fsm = true ∧
    State.bootPhase { s0Chunk 1 1 with bootPhase := .window } = .window ∧
    (nextState (step (s0Chunk 2 1))).isSome = true := by decide

theorem witness_BusResetFirst :
    let s : State := { s0Ready with busresetPending := true }
    s.faults = [] ∧ s.script = [] ∧ s.nvmOp = .idle ∧ s.fsm = some .idle ∧ s.bootPhase = .usb ∧ s.intEn = true ∧
      s.busresetPending = true := by decide

/-- A token at another address, at endpoint 2, and on an unconfigured EP0, one per kind. -/
theorem witness_ForeignTokens :
    forBlock 5 s0 = false ∧ forBlock 0 s0 = true ∧ (2 : Nat) ≤ 2 ∧ (1 : Nat) ≠ 0 ∧
    State.ep0Configured { s0 with ep0Configured := false } = false ∧ s0.faults = [] ∧
    (s0Move (.host (.setup 5 ⟨0, 0, 0, 0, 0, 0, 0, 0⟩))).script = .host (.setup 5 ⟨0, 0, 0, 0, 0, 0, 0, 0⟩) :: [] ∧
    (s0Move (.host (.out 0 1 (List.replicate 64 0)))).script = .host (.out 0 1 (List.replicate 64 0)) :: [] ∧
    (s0Move (.host (.inp 0 2))).script = .host (.inp 0 2) :: [] := by decide

/-- An idle engine with an empty bank; a full bank; each transfer wait. -/
theorem witness_SetupToken :
    let s := s0Move (.host (.setup 0 ⟨0, 9, 1, 0, 0, 0, 0, 0⟩))
    s.listening ∧ s.script = .host (.setup s.currentAddr ⟨0, 9, 1, 0, 0, 0, 0, 0⟩) :: [] ∧ s.ep0SetupFull = false ∧
      s.fsm ≠ some .sendWait ∧ s.fsm ≠ some .addrWait ∧ s.fsm ≠ some .recvWait ∧ s0Ready.ep0SetupFull = true ∧
      (s0Send []).fsm = some .sendWait ∧ (s0Recv 0 8 8).fsm = some .recvWait := by decide

theorem witness_OutToken :
    let s := s0Move (.host (.out 0 0 (List.replicate 64 0)))
    s.listening ∧ (List.replicate 64 (0 : Byte)).length ≤ 64 ∧
      s.script = .host (.out s.currentAddr 0 (List.replicate 64 0)) :: [] := by decide

theorem witness_InToken :
    let s : State := { s0Move (.host (.inp 5 0)) with addrEn := true, devAddr := 5 }
    s.listening ∧ s.script = .host (.inp s.currentAddr 0) :: [] := by decide

/-- USB off; a transfer wait; and neither. -/
theorem witness_BusReset :
    (s0Move (.host .busReset)).script = .host .busReset :: [] ∧ s0.faults = [] ∧ window.usbEnabled = false ∧
    s0.usbEnabled = true ∧ (s0Send []).fsm = some .sendWait ∧ s0.fsm ≠ some .sendWait ∧ s0.fsm ≠ some .addrWait ∧
    s0.fsm ≠ some .recvWait := by decide

theorem witness_Ep1 :
    let s := s0Move (.host (.inp 0 1))
    s.faults = [] ∧ s.usbEnabled = true ∧ s.usbAttached = true ∧ s.script = .host (.inp s.currentAddr 1) :: [] ∧
      State.ep0Configured { s with ep0Configured := false } = false := by decide

/-- A SETUP clears the stall. -/
theorem witness_Stall :
    let s : State := { s0Move (.host (.setup 0 ⟨0, 9, 1, 0, 0, 0, 0, 0⟩)) with ep0Stall := true }
    s.ep0Stall = true ∧ after (step s) State.ep0Stall = some false := by decide

/-- One witness per cause. -/
theorem witness_PhysicalReset : s0.faults = [] ∧ s0.flash.wf = true ∧
    (s0Move (.physReset .external)).script = .physReset .external :: [] ∧
    (s0Move (.physReset .powerOn)).script = .physReset .powerOn :: [] ∧
    (s0Move (.physReset .brownOut)).script = .physReset .brownOut :: [] ∧
    PhysCause.external.causes.powerOn = false ∧ PhysCause.external.causes.brownOut = false ∧
    PhysCause.powerOn.causes.powerOn = true ∧ PhysCause.brownOut.causes.brownOut = true := by decide

/-- An external reset with no magic key, and a power-on. -/
theorem witness_BootStep :
    let s := atBoot ⟨false, true, false, false⟩
    s.faults = [] ∧ s.script = [] ∧ s.nvmOp = .idle ∧ s.bootPhase = .decide ∧ s.rstcauseReg.external = true ∧
      s.magicKey ≠ s.par.magicKeyValue ∧ s.par.bootWindow = .present ∧
      (atBoot ⟨true, false, false, false⟩).rstcauseReg.external = false := by decide

theorem witness_BootWindow :
    let s := window
    s.par.wf = true ∧ s.faults = [] ∧ s.script = [] ∧ s.nvmOp = .idle ∧ s.bootPhase = .window ∧ s.fsm = none ∧
      s.timerRunning = true ∧ s.intEn = true ∧ s.rwwEnabled = true ∧ s.timeoutCounter = 0 ∧ s.flash.read 0 = 0xFF ∧
      Memory.read [(0, 0x0C)] 0 ≠ 0xFF ∧ 750 < s.par.bootTimeoutTicks := by decide

/-- The invariant holds at FL_ERASE_WAIT with an erase pending, a state far from reset. -/
theorem witness_Invariant : State.Inv { s0Chunk 128 2 with fsm := some .flEraseWait, nvmOp := .erase 1 } where
  data :=
    { par := by decide, flash := rfl, flashIn := rfl, pb := rfl, pbIn := rfl, pbClear := fun _ => rfl, rpt := rfl,
      outBuf := by decide, inBuf := by decide, magic := by decide, tx := nofun,
      rxCnt := by rintro n ⟨⟩; decide, fl := by rintro f ⟨⟩; decide }
  engine :=
    { idle := nofun, unset := nofun, sendWait := nofun, addrWait := nofun, recvWait := nofun, srDone := nofun,
      flWord := nofun, eraseWait := fun _ _ => ⟨_, rfl, by decide⟩, writeWait := nofun,
      erasing := by rintro p ⟨⟩; decide, writing := nofun, led := fun _ => .inr (.inl rfl) }
  usb :=
    { phase := by decide, bootOff := by decide, ep1 := by decide, setupFull := by decide, outFull := by decide,
      inArmed := by decide }

/-- That state has a next state: the erase completes. -/
theorem witness_InvariantStep :
    after (step { s0Chunk 128 2 with fsm := some .flEraseWait, nvmOp := .erase 1 }) State.nvmOp = some .idle := by decide

theorem witness_MemoriesStayCanonical :
    let s : State := { s0Chunk 126 1 with flash := [(3, 0)] }
    s.flash.wf = true ∧ s.pbData.wf = true ∧ (nextState (step s)).isSome = true := by decide

/-- A SET_CONFIGURATION, a bus-reset handler, a USB initialisation, a physical reset and the reset after OFF that change
it. -/
theorem witness_ConfigurationWriter : after (step s0Ready) State.usbConfiguration = some 1 ∧
    s0Ready.usbConfiguration = 0 ∧
    after (step { s0 with usbConfiguration := 1, busresetPending := true }) State.usbConfiguration = some 0 ∧
    after (step { atBoot ⟨true, false, false, false⟩ with usbConfiguration := 1 }) State.usbConfiguration = some 0 ∧
    after (step { s0Move (.physReset .external) with usbConfiguration := 1 }) State.usbConfiguration = some 0 ∧
    after (step { s0At .off (report 1 7) with usbConfiguration := 1 }) State.usbConfiguration = some 0 := by decide

theorem witness_AddressTakesEffect :
    let s : State := { s0At .addrWait ⟨0, 5, 7, 0, 0⟩ with newAddr := some 7 }
    after (step s) (fun t => (t.addrEn, t.devAddr)) = some (true, 7) ∧ s.addrEn = false := by decide

end Sys2Proof.Tests
end

section
/-! SUPPORT. No operation, segment, turn or step changes the parameters (00_scope.md R8, 20_memory.md R62); derived
from the laws of Sys2Proof/Laws/Ops.lean. -/

namespace Sys2Proof.Machine

/-! ### The operations that branch -/

@[simp] theorem fillAndAdvance_par (f : FlCtx) (w : Word16) (s : State) : (fillAndAdvance f w s).par = s.par := by
  rcases fillAndAdvance_cases f w s with h | h | h <;> simp [h]

@[simp] theorem writeWord_par (f : FlCtx) (w : Word16) (s : State) : (writeWord f w s).par = s.par := by
  rcases writeWord_cases f w s with ⟨_, _, h⟩ | ⟨_, _, h⟩ | ⟨_, _, h⟩ <;> simp [h]

@[simp] theorem receiveComplete_par (s : State) : (receiveComplete s).par = s.par := by
  rcases receiveComplete_cases s with h | h <;> simp [h]

@[simp] theorem setReportBegin_par (len : Word16) (s : State) : (setReportBegin len s).par = s.par := by
  rcases setReportBegin_cases len s with h | h | h <;> simp [h]

@[simp] theorem lateAck_par (s : State) : (lateAck s).par = s.par := by
  rcases lateAck_cases s with h | h <;> simp [h]

@[simp] theorem exitReport_par (s : State) : (exitReport s).par = s.par := rfl

@[simp] theorem otherReport_par (s : State) : (otherReport s).par = s.par := lateAck_par s

@[simp] theorem chunkDone_par (s : State) : (chunkDone s).par = s.par := lateAck_par { s with led := false }

@[simp] theorem flWriteStep_par (s : State) : (flWriteStep s).par = s.par := rfl

@[simp] theorem deviceReset_par (c : Causes) (s : State) : (deviceReset c s).par = s.par := rfl

@[simp] theorem jumpApp_par (s : State) : (jumpApp s).par = s.par := rfl

@[simp] theorem bootDecide_par (s : State) : (bootDecide s).par = s.par := by
  rcases bootDecide_cases s with h | h <;> simp [h]

@[simp] theorem bootCapture_par (s : State) : (bootCapture s).par = s.par := bootDecide_par _

@[simp] theorem tick_par (s : State) : (tick s).par = s.par := by
  rcases tick_cases s with h | ⟨_, h⟩ | ⟨_, h⟩ <;> simp [h]

@[simp] theorem hostSetup_par (tok : Token) (b : SetupPacket) (s : State) : (hostSetup tok b s).par = s.par := by
  unfold hostSetup
  split <;> simp

@[simp] theorem hostOut_par (tok : Token) (b : List Byte) (s : State) : (hostOut tok b s).par = s.par := by
  unfold hostOut
  split
  · simp
  · split <;> simp

@[simp] theorem hostIn_par (tok : Token) (s : State) : (hostIn tok s).par = s.par := by
  unfold hostIn
  split
  · simp
  · split <;> simp

@[simp] theorem hostBusReset_par (s : State) : (hostBusReset s).par = s.par := by
  unfold hostBusReset
  split
  · rfl
  · split <;> simp

/-! ### The segments of the engine -/

theorem exec_par {i : Instr} {s t : State} (h : exec i s = .next t) : t.par = s.par := by
  rcases exec_next h with rfl | ⟨_, _, rfl⟩ | ⟨_, _, _, _, _, rfl⟩ | ⟨_, _, _, _, rfl⟩ | rfl | ⟨_, rfl⟩ <;> simp

theorem sendStep_par {s t : State} (h : sendStep s = .next t) : t.par = s.par := by
  rcases sendStep_next h with ⟨_, rfl⟩ | ⟨_, _, _, ⟨_, rfl⟩ | ⟨_, rfl⟩⟩ <;> simp

theorem addrStep_par {s t : State} (h : addrStep s = .next t) : t.par = s.par := by
  obtain ⟨_, _, rfl⟩ := addrStep_next h
  simp

theorem receiveStep_par {s t : State} (h : receiveStep s = .next t) : t.par = s.par := by
  obtain ⟨_, _, _, _, ⟨_, rfl⟩ | ⟨_, rfl⟩ | ⟨_, _, ⟨_, rfl⟩ | rfl⟩⟩ := receiveStep_next h <;> simp

theorem reportStep_par {s t : State} (h : reportStep s = .next t) : t.par = s.par := by
  obtain ⟨_, _, ⟨_, rfl⟩ | ⟨_, hfl⟩ | ⟨_, _, rfl⟩⟩ := reportStep_next h
  · simp
  · obtain ⟨_, _, _, _, rfl⟩ := flashReport_next hfl
    simp
  · simp

theorem flWordStep_par {s t : State} (h : flWordStep s = .next t) : t.par = s.par := by
  obtain ⟨_, _, ⟨_, rfl⟩ | ⟨_, _, _, rfl⟩⟩ := flWordStep_next h <;> simp

theorem flEraseStep_par {s t : State} (h : flEraseStep s = .next t) : t.par = s.par := by
  obtain ⟨_, _, _, _, rfl⟩ := flEraseStep_next h
  simp

/-- The engine keeps the parameters in whichever segment its `fsm` selects (41_control_transfer.md R138). -/
theorem engineStep_par {s t : State} (h : engineStep s = .next t) : t.par = s.par := by
  rcases engineStep_next h with ⟨_, rfl⟩ | ⟨_, h⟩ | ⟨_, h⟩ | ⟨_, h⟩ | ⟨_, h⟩ | ⟨_, h⟩ | ⟨_, h⟩ | ⟨_, h⟩ |
    ⟨_, rfl⟩ | ⟨_, rfl⟩
  · rfl
  · exact (exec_par h).trans (acceptSetup_par s)
  · exact sendStep_par h
  · exact addrStep_par h
  · exact receiveStep_par h
  · exact reportStep_par h
  · exact flWordStep_par h
  · exact flEraseStep_par h
  · simp
  · simp

/-! ### The turns of the agents -/

theorem hostToken_par {tok : Token} {s t : State} (h : hostToken tok s = .next t) : t.par = s.par := by
  rcases hostToken_next h with ⟨_, _, rfl⟩ | ⟨_, _, _, _, _, rfl⟩ | ⟨_, _, _, _, _, _, rfl⟩ | ⟨_, _, _, _, rfl⟩ |
    ⟨_, rfl⟩ <;> simp

theorem nvmStep_par {s t : State} (h : nvmStep s = .next t) : t.par = s.par := by
  rcases nvmStep_next h with ⟨_, rfl⟩ | ⟨_, _, _, rfl⟩ | ⟨_, _, _, rfl⟩ <;> simp

theorem busHandlerTurn_par {s t : State} (h : busHandlerTurn s = .next t) : t.par = s.par := by
  rcases busHandlerTurn_next h with rfl | ⟨_, rfl⟩ <;> simp

theorem engineTurn_par {s t : State} (h : engineTurn s = .next t) : t.par = s.par := by
  rcases engineTurn_next h with rfl | ⟨_, h⟩
  · rfl
  · exact engineStep_par h

theorem bootTurn_par {s t : State} (h : bootTurn s = .next t) : t.par = s.par := by
  rcases bootTurn_next h with rfl | ⟨he, rfl⟩
  · rfl
  · rcases bootStep_cases he with ⟨_, hb⟩ | ⟨_, _, _, hb⟩ | ⟨_, _, hb⟩ <;> simp [hb]

theorem runMove_par {m : Move} {s t : State} (h : runMove m s = .next t) : t.par = s.par := by
  cases m with
  | host tok => exact hostToken_par h
  | physReset c => rw [← next_inj.1 h, deviceReset_par]
  | nvm => exact nvmStep_par h
  | busHandler => exact busHandlerTurn_par h
  | engine => exact engineTurn_par h
  | boot => exact bootTurn_par h

/-- Settles O58: a step is one move made after the script is advanced, and no move of any agent writes `par`. -/
theorem noStepChangesTheInstance : Obligations.NoStepChangesTheInstance := by
  intro s t h
  obtain ⟨_, m, _, hm⟩ := step_next h
  exact (runMove_par hm).trans rfl

end Sys2Proof.Machine
end

section
/-! SUPPORT. The writers of FLASH (10_state.md R30, 20_memory.md R67) and of the configuration byte (10_state.md R26): every
move keeps both, but for the NVM agent, SET_CONFIGURATION, the bus-reset handler, USB initialisation and a device reset. -/

namespace Sys2Proof.Machine

/-- FLASH and the configuration byte, the two stores that outlive a request, are the same in both states. -/
structure SameStores (s t : State) : Prop where
  flash            : t.flash = s.flash
  usbConfiguration : t.usbConfiguration = s.usbConfiguration

/-! ### The operations that branch -/

theorem fillAndAdvance_sameStores (f : FlCtx) (w : Word16) (s : State) : SameStores s (fillAndAdvance f w s) := by
  rcases fillAndAdvance_cases f w s with h | h | h <;> rw [h] <;> exact ⟨rfl, rfl⟩

theorem writeWord_sameStores (f : FlCtx) (w : Word16) (s : State) : SameStores s (writeWord f w s) := by
  rcases writeWord_cases f w s with ⟨c, -, h⟩ | ⟨-, -, h⟩ | ⟨-, -, h⟩ <;> rw [h]
  · exact ⟨rfl, rfl⟩
  · exact ⟨rfl, rfl⟩
  · exact fillAndAdvance_sameStores f w s

theorem receiveComplete_sameStores (s : State) : SameStores s (receiveComplete s) := by
  rcases receiveComplete_cases s with h | h <;> rw [h] <;> exact ⟨rfl, rfl⟩

theorem setReportBegin_sameStores (len : Word16) (s : State) : SameStores s (setReportBegin len s) := by
  rcases setReportBegin_cases len s with h | h | h <;> rw [h] <;> exact ⟨rfl, rfl⟩

theorem lateAck_sameStores (s : State) : SameStores s (lateAck s) := by
  rcases lateAck_cases s with h | h <;> rw [h] <;> exact ⟨rfl, rfl⟩

theorem hostSetup_sameStores (tok : Token) (b : SetupPacket) (s : State) : SameStores s (hostSetup tok b s) := by
  unfold hostSetup
  split <;> exact ⟨rfl, rfl⟩

theorem hostOut_sameStores (tok : Token) (b : List Byte) (s : State) : SameStores s (hostOut tok b s) := by
  unfold hostOut
  split
  · exact ⟨rfl, rfl⟩
  · split <;> exact ⟨rfl, rfl⟩

theorem hostIn_sameStores (tok : Token) (s : State) : SameStores s (hostIn tok s) := by
  unfold hostIn
  split
  · exact ⟨rfl, rfl⟩
  · split <;> exact ⟨rfl, rfl⟩

theorem hostBusReset_sameStores (s : State) : SameStores s (hostBusReset s) := by
  unfold hostBusReset
  split
  · exact ⟨rfl, rfl⟩
  · split <;> exact ⟨rfl, rfl⟩

/-! ### The segments and the turns -/

/-- A dispatch segment writes no FLASH, and of the 14 requests SET_CONFIGURATION alone writes the configuration byte
(41_control_transfer.md R150). -/
theorem exec_stores {i : Instr} {s t : State} (h : exec i s = .next t) :
    SameStores s t ∨
      (t.flash = s.flash ∧ ∃ v x l, i = .setConfiguration v x l ∧ t.usbConfiguration = lo8 v) := by
  rcases exec_next h with rfl | ⟨_, -, rfl⟩ | ⟨_, _, _, _, -, rfl⟩ | ⟨v, x, l, hi, rfl⟩ | rfl | ⟨_, rfl⟩
  · exact .inl ⟨rfl, rfl⟩
  · exact .inl ⟨rfl, rfl⟩
  · exact .inl ⟨rfl, rfl⟩
  · exact .inr ⟨rfl, v, x, l, hi, rfl⟩
  · exact .inl ⟨rfl, rfl⟩
  · exact .inl (setReportBegin_sameStores _ s)

theorem sendStep_sameStores {s t : State} (h : sendStep s = .next t) : SameStores s t := by
  rcases sendStep_next h with ⟨-, rfl⟩ | ⟨_, -, -, ⟨-, rfl⟩ | ⟨-, rfl⟩⟩ <;> exact ⟨rfl, rfl⟩

theorem addrStep_sameStores {s t : State} (h : addrStep s = .next t) : SameStores s t := by
  obtain ⟨_, -, rfl⟩ := addrStep_next h
  exact ⟨rfl, rfl⟩

theorem receiveStep_sameStores {s t : State} (h : receiveStep s = .next t) : SameStores s t := by
  obtain ⟨_, rx, -, -, ⟨-, rfl⟩ | ⟨-, rfl⟩ | ⟨-, -, ⟨-, rfl⟩ | rfl⟩⟩ := receiveStep_next h
  · exact ⟨rfl, rfl⟩
  · exact ⟨rfl, rfl⟩
  · obtain ⟨hf, hc⟩ := receiveComplete_sameStores (storePacket rx s)
    exact ⟨hf, hc⟩
  · exact ⟨rfl, rfl⟩

theorem reportStep_sameStores {s t : State} (h : reportStep s = .next t) : SameStores s t := by
  obtain ⟨_, -, ⟨-, rfl⟩ | ⟨-, hfl⟩ | ⟨-, -, rfl⟩⟩ := reportStep_next h
  · exact ⟨rfl, rfl⟩
  · obtain ⟨_, _, -, -, rfl⟩ := flashReport_next hfl
    exact ⟨rfl, rfl⟩
  · obtain ⟨hf, hc⟩ := lateAck_sameStores s
    exact ⟨hf, hc⟩

theorem flWordStep_sameStores {s t : State} (h : flWordStep s = .next t) : SameStores s t := by
  obtain ⟨f, -, ⟨-, rfl⟩ | ⟨-, w, -, rfl⟩⟩ := flWordStep_next h
  · obtain ⟨hf, hc⟩ := lateAck_sameStores { s with led := false }
    exact ⟨hf, hc⟩
  · exact writeWord_sameStores f w s

theorem flEraseStep_sameStores {s t : State} (h : flEraseStep s = .next t) : SameStores s t := by
  obtain ⟨f, w, -, -, rfl⟩ := flEraseStep_next h
  exact fillAndAdvance_sameStores f w s

/-- The engine writes no FLASH, and the configuration byte only as it accepts a SET_CONFIGURATION in `IDLE`
(41_control_transfer.md R138, R150). -/
theorem engineStep_stores {s t : State} (h : engineStep s = .next t) :
    SameStores s t ∨
      (t.flash = s.flash ∧ s.fsm = some .idle ∧ ∃ v x l,
        decodeSetup s.ep0SetupBuf = .setConfiguration v x l ∧ t.usbConfiguration = lo8 v) := by
  rcases engineStep_next h with ⟨-, rfl⟩ | ⟨hi, h⟩ | ⟨-, h⟩ | ⟨-, h⟩ | ⟨-, h⟩ | ⟨-, h⟩ | ⟨-, h⟩ | ⟨-, h⟩ |
    ⟨-, rfl⟩ | ⟨-, rfl⟩
  · exact .inl ⟨rfl, rfl⟩
  · rcases exec_stores h with ⟨hf, hc⟩ | ⟨hf, hc⟩
    · exact .inl ⟨hf, hc⟩
    · exact .inr ⟨hf, hi, hc⟩
  · exact .inl (sendStep_sameStores h)
  · exact .inl (addrStep_sameStores h)
  · exact .inl (receiveStep_sameStores h)
  · exact .inl (reportStep_sameStores h)
  · exact .inl (flWordStep_sameStores h)
  · exact .inl (flEraseStep_sameStores h)
  · exact .inl ⟨rfl, rfl⟩
  · exact .inl ⟨rfl, rfl⟩

theorem engineTurn_flash {s t : State} (h : engineTurn s = .next t) : t.flash = s.flash := by
  rcases engineTurn_next h with rfl | ⟨-, h⟩
  · rfl
  · rcases engineStep_stores h with hs | ⟨hf, -⟩
    · exact hs.flash
    · exact hf

theorem hostToken_sameStores {tok : Token} {s t : State} (h : hostToken tok s = .next t) : SameStores s t := by
  rcases hostToken_next h with ⟨_, -, rfl⟩ | ⟨_, _, -, -, -, rfl⟩ | ⟨_, _, -, -, -, -, rfl⟩ | ⟨_, -, -, -, rfl⟩ |
    ⟨-, rfl⟩
  · exact ⟨rfl, rfl⟩
  · exact hostSetup_sameStores _ _ s
  · exact hostOut_sameStores _ _ s
  · exact hostIn_sameStores _ s
  · exact hostBusReset_sameStores s

theorem busHandlerTurn_flash {s t : State} (h : busHandlerTurn s = .next t) : t.flash = s.flash := by
  rcases busHandlerTurn_next h with rfl | ⟨-, rfl⟩ <;> rfl

theorem nvmStep_usbConfiguration {s t : State} (h : nvmStep s = .next t) : t.usbConfiguration = s.usbConfiguration := by
  rcases nvmStep_next h with ⟨-, rfl⟩ | ⟨_, -, -, rfl⟩ | ⟨_, -, -, rfl⟩ <;> rfl

/-- The boot decision keeps FLASH; it keeps the configuration byte too, unless it initialises USB
(70_reset_and_hazards.md R303, R310). -/
theorem bootCapture_stores (s : State) :
    SameStores s (bootCapture s) ∨
      ∃ u : State, u.flash = s.flash ∧ bootCapture s = usbInit u := by
  rcases bootDecide_cases { s with resetCause := s.rstcauseReg, rstcauseReg := Causes.none, wdtEnabled := false } with
    h | h
  · left; rw [bootCapture, h]; exact ⟨rfl, rfl⟩
  · refine .inr ⟨_, ?_, h⟩
    rfl

/-- A tick keeps FLASH; it keeps the configuration byte too, unless the window ends in USB initialisation
(70_reset_and_hazards.md R305, R306, R310). -/
theorem tick_stores (s : State) :
    SameStores s (tick s) ∨ ∃ u : State, u.flash = s.flash ∧ tick s = usbInit u := by
  rcases tick_cases s with h | ⟨_, h⟩ | ⟨_, h⟩
  · left; rw [h]; exact ⟨rfl, rfl⟩
  · left; rw [h]; exact ⟨rfl, rfl⟩
  · refine .inr ⟨_, ?_, h⟩
    rfl

/-- What a turn of the boot agent does to the two stores: nothing; USB initialisation; or the device reset after OFF. -/
theorem bootTurn_stores {s t : State} (h : bootTurn s = .next t) :
    SameStores s t ∨
      ((s.bootPhase = .decide ∨ s.bootPhase = .window) ∧ ∃ u : State, u.flash = s.flash ∧ t = usbInit u) ∨
      (s.bootPhase = .usb ∧ s.fsm = some .off ∧ t = deviceReset s.rstcauseReg s) := by
  rcases bootTurn_next h with rfl | ⟨he, rfl⟩
  · exact .inl ⟨rfl, rfl⟩
  · rcases bootStep_cases he with ⟨hp, hb⟩ | ⟨hp, -, -, hb⟩ | ⟨hp, hf, hb⟩ <;> rw [hb]
    · exact (bootCapture_stores s).imp id fun hu => .inl ⟨.inl hp, hu⟩
    · exact (tick_stores s).imp id fun hu => .inl ⟨.inr hp, hu⟩
    · exact .inr (.inr ⟨hp, hf, rfl⟩)

/-! ### FLASH -/

/-- The address lies in the page of an erase or a write in progress (43_flash_engine.md R231). -/
def State.inBusyPage (s : State) (a : Nat) : Prop :=
  ∃ p, (s.nvmOp = .erase p ∨ s.nvmOp = .write p) ∧ p * s.par.pageSize ≤ a ∧ a < p * s.par.pageSize + s.par.pageSize

theorem State.not_inBusyPage {s : State} {a : Nat} (h : ¬s.inBusyPage a) (p : Nat)
    (hp : s.nvmOp = .erase p ∨ s.nvmOp = .write p) :
    ¬(p * s.par.pageSize ≤ a ∧ a < p * s.par.pageSize + s.par.pageSize) :=
  fun ha => h ⟨p, hp, ha⟩

/-- The NVM agent writes its page only (43_flash_engine.md R236, R240). -/
theorem read_nvmStep {s t : State} (hw : s.flash.wf = true) (h : nvmStep s = .next t) {a : Nat}
    (ha : ¬s.inBusyPage a) : t.flash.read a = s.flash.read a := by
  rcases nvmStep_next h with ⟨-, rfl⟩ | ⟨p, hp, -, rfl⟩ | ⟨p, hp, -, rfl⟩
  · rfl
  · exact (Memory.read_eraseRange ..).trans (if_neg (State.not_inBusyPage ha p (.inl hp)))
  · exact (Memory.read_writeRange hw ..).trans (if_neg (State.not_inBusyPage ha p (.inr hp)))

/-- No move changes a byte outside the page of an operation in progress: the NVM agent writes that page, a device reset
makes its bytes a draw (70_reset_and_hazards.md R300), and no other agent writes FLASH. -/
theorem read_runMove {m : Move} {s t : State} (hw : s.flash.wf = true) (h : runMove m s = .next t) {a : Nat}
    (ha : ¬s.inBusyPage a) : t.flash.read a = s.flash.read a := by
  cases m with
  | host tok => rw [(hostToken_sameStores h).flash]
  | physReset c =>
    rw [← next_inj.1 h]
    exact read_flashOverReset hw _ (State.not_inBusyPage ha)
  | nvm => exact read_nvmStep hw h ha
  | busHandler => rw [busHandlerTurn_flash h]
  | engine => rw [engineTurn_flash h]
  | boot =>
    rcases bootTurn_stores h with hs | ⟨-, u, hu, rfl⟩ | ⟨-, -, rfl⟩
    · rw [hs.flash]
    · rw [usbInit_flash, hu]
    · exact read_flashOverReset hw _ (State.not_inBusyPage ha)

/-- Settles O36: a step is one move, no move writes outside the busy page, and there is none while `nvm_op` is idle. -/
theorem onlyTheNvmOperationChangesFlash : Obligations.OnlyTheNvmOperationChangesFlash := by
  intro s t hw h
  obtain ⟨-, m, -, hm⟩ := step_next h
  have frame : ∀ a, ¬s.inBusyPage a → t.flash.read a = s.flash.read a := fun a ha =>
    read_runMove (s := { s with script := s.script.tail }) hw hm ha
  refine ⟨fun hn a => frame a ?_, fun p hp a ha => frame a ?_⟩
  · rintro ⟨p, hp, -⟩
    simp [hn] at hp
  · rintro ⟨q, hq, hqa⟩
    have hqp : q = p := by rcases hp with hp | hp <;> rw [hp] at hq <;> simpa [eq_comm] using hq
    exact ha (hqp ▸ hqa)

/-! ### The configuration byte -/

/-- An enabled engine in `IDLE` has a SETUP packet to accept (41_control_transfer.md R139). -/
theorem setupReady_of_engineEnabled {s : State} (h : engineEnabled s = true) (hi : s.fsm = some .idle) :
    s.setupReady := by
  simp only [engineEnabled, fsmEnabled, hi, Bool.and_eq_true, beq_iff_eq, List.isEmpty_iff, Bool.not_eq_true'] at h
  obtain ⟨⟨hp, hf⟩, ⟨⟨hs, hc⟩, hint⟩, hb⟩ := h
  exact ⟨hf, hp, hi, hs, hc, hint, hb⟩

/-- The bus-reset handler's step is enabled in phase USB, with the engine idle (70_reset_and_hazards.md R311). -/
theorem busHandlerEnabled_iff {s : State} :
    busHandlerEnabled s = true ↔
      s.busresetPending = true ∧ s.intEn = true ∧ s.fsm = some .idle ∧ s.bootPhase = .usb := by
  simp [busHandlerEnabled, and_assoc]

/-- The low byte of a 16-bit value (30_encoding.md R82). -/
theorem toNat_lo8 (v : Word16) : (lo8 v).toNat = v.toNat % 256 := BitVec.toNat_ofNat ..

/-- Settles O59: the move of the step is none of a token or the NVM agent, and each of the others writes the byte only
at its one writer. -/
theorem configurationHasOnlyItsWriters : Obligations.ConfigurationHasOnlyItsWriters := by
  intro s t h hne
  obtain ⟨-, m, hm, h⟩ := step_next h
  cases m with
  | host tok => exact absurd (hostToken_sameStores h).usbConfiguration hne
  | physReset c =>
    rw [← next_inj.1 h]
    refine .inr (.inr (.inl ⟨.inl ⟨c, s.script.tail, ?_⟩, rfl, rfl, rfl⟩))
    exact hm.resolve_right fun ⟨_, hh⟩ => nomatch hh
  | nvm => exact absurd (nvmStep_usbConfiguration h) hne
  | busHandler =>
    rcases busHandlerTurn_next h with rfl | ⟨he, rfl⟩
    · exact absurd rfl hne
    · obtain ⟨hp, hint, hi, hb⟩ := busHandlerEnabled_iff.1 he
      exact .inl ⟨hp, hint, hi, hb, rfl, rfl⟩
  | engine =>
    rcases engineTurn_next h with rfl | ⟨he, h⟩
    · exact absurd rfl hne
    · rcases engineStep_stores h with hs | ⟨-, hi, v, x, l, hd, hv⟩
      · exact absurd hs.usbConfiguration hne
      · exact .inr (.inr (.inr ⟨setupReady_of_engineEnabled he hi, v, x, l, hd, hv ▸ toNat_lo8 v⟩))
  | boot =>
    rcases bootTurn_stores h with hs | ⟨hp, u, -, rfl⟩ | ⟨hp, ho, rfl⟩
    · exact absurd hs.usbConfiguration hne
    · exact .inr (.inl ⟨hp, rfl, rfl, rfl⟩)
    · exact .inr (.inr (.inl ⟨.inr ⟨hp, ho⟩, rfl, rfl, rfl⟩))

end Sys2Proof.Machine
end

section
/-! SUPPORT. The machine's invariant (Sys2Proof/Safety.lean) holds at reset and over every move. `State.RegsAt` is the part
of `State.EngineInv` that the engine's state selects, `State.Live` the part of `State.Inv` that does not depend on it. -/

namespace Sys2Proof.Machine

/-! ### What the engine's state asks for -/

/-- What the invariant says of the registers while the engine is at `f` (10_state.md R21 to R23). -/
def State.RegsAt (s : State) : Option Fsm → Prop
  | none => s.noRequest
  | some .idle => s.noRequest
  | some .sendWait => s.tx ≠ none
  | some .addrWait => s.newAddr ≠ none
  | some .recvWait => s.latch ≠ none ∧ s.rxCnt ≠ none
  | some .srDone => s.latch ≠ none ∧ s.rxCnt ≠ none
  | some .flWord => s.fl ≠ none
  | some .flEraseWait => s.faults = [] →
    ∃ f, s.fl = some f ∧ f.i < f.n ∧ f.addr % 2 = 0 ∧ f.addr < s.par.bootStart ∧ offsetOf s.par f.addr = 0
  | some .flWriteWait => s.fl ≠ none
  | some .exitSettle => True
  | some .off => True

/-- The engine is at a word of a report-2 chunk or waits for an erase or a write of one. -/
def State.inChunk (s : State) : Prop :=
  s.fsm = some .flWord ∨ s.fsm = some .flEraseWait ∨ s.fsm = some .flWriteWait

/-- The registers that the engine's state asks for, the operation in progress and the LED are the whole of `EngineInv`. -/
theorem State.EngineInv.of_regsAt {s : State} (hr : s.RegsAt s.fsm)
    (he : ∀ p, s.nvmOp = .erase p → pageInFlash s.par p = true ∧ s.fsm = some .flEraseWait)
    (hw : ∀ p, s.nvmOp = .write p → pageInFlash s.par p = true ∧ s.fsm = some .flWriteWait)
    (hl : s.led = true → s.inChunk) : s.EngineInv where
  idle hf := by rw [hf] at hr; exact hr
  unset hf := by rw [hf] at hr; exact hr
  sendWait hf := by rw [hf] at hr; exact hr
  addrWait hf := by rw [hf] at hr; exact hr
  recvWait hf := by rw [hf] at hr; exact hr
  srDone hf := by rw [hf] at hr; exact hr
  flWord hf := by rw [hf] at hr; exact hr
  eraseWait hs hf := by rw [hf] at hr; exact hr hs
  writeWait hf := by rw [hf] at hr; exact hr
  erasing := he
  writing := hw
  led := hl

theorem State.EngineInv.of_nvmIdle {s : State} (hr : s.RegsAt s.fsm) (hn : s.nvmOp = .idle)
    (hl : s.led = true → s.inChunk) : s.EngineInv :=
  .of_regsAt hr (fun p hp => by simp [hn] at hp) (fun p hp => by simp [hn] at hp) hl

/-- No operation is in progress while the engine waits for none (43_flash_engine.md R233, R238). -/
theorem State.EngineInv.nvmIdle {s : State} (h : s.EngineInv) (he : s.fsm ≠ some .flEraseWait)
    (hw : s.fsm ≠ some .flWriteWait) : s.nvmOp = .idle := by
  cases hn : s.nvmOp with
  | idle => rfl
  | erase p => exact absurd (h.erasing p hn).2 he
  | write p => exact absurd (h.writing p hn).2 hw

/-! ### Phase USB, whatever the engine's state -/

/-- What the invariant says in phase USB beside `EngineInv`. -/
structure State.Live (s : State) : Prop where
  data      : s.DataInv
  phase     : s.bootPhase = .usb
  ep1       : s.ep1Enabled = true → s.usbConfiguration ≠ 0
  setupFull : s.ep0SetupFull = true → s.ep0Configured = true
  outFull   : s.ep0OutFull = true → s.ep0Configured = true
  inArmed   : s.ep0InArmed = true → s.ep0Configured = true

theorem State.Inv.live {s : State} (h : s.Inv) (hp : s.bootPhase = .usb) : s.Live :=
  { h.usb with data := h.data, phase := hp }

/-- In phase USB the engine state holds a value (41_control_transfer.md R139); the rest of the invariant is `EngineInv`. -/
theorem State.Live.inv {s : State} (h : s.Live) (hf : s.fsm ≠ none) (he : s.EngineInv) : s.Inv where
  data := h.data
  engine := he
  usb := { h with phase := ⟨fun hn => absurd hn hf, fun hp => absurd h.phase hp⟩,
                  bootOff := fun hp => absurd h.phase hp }

/-- Outside a chunk no flash operation is in progress and the LED is off. -/
structure State.Quiet (s : State) : Prop where
  live : s.Live
  nvm  : s.nvmOp = .idle
  led  : s.led = false

theorem State.Inv.quiet {s : State} (h : s.Inv) (hp : s.bootPhase = .usb) (hc : ¬s.inChunk) : s.Quiet where
  live := h.live hp
  nvm := h.engine.nvmIdle (fun he => hc (.inr (.inl he))) (fun hw => hc (.inr (.inr hw)))
  led := Bool.eq_false_iff.2 fun hl => hc (h.engine.led hl)

/-- Outside a chunk the invariant asks for the registers of the state the engine goes to. -/
theorem State.Quiet.goto {s : State} (h : s.Quiet) {f : Fsm} (hr : s.RegsAt (some f)) : (goto f s).Inv := by
  have hl : (Machine.goto f s).Live := { h.live with data := { h.live.data with } }
  exact hl.inv nofun (.of_nvmIdle hr h.nvm fun hl => absurd (h.led.symm.trans hl) nofun)

/-- The return to `IDLE` ends the request (60_exceptions.md R276), and asks for nothing. -/
theorem State.Quiet.toIdle {s : State} (h : s.Quiet) : (toIdle s).Inv := by
  have hq : (endRequest s).Quiet :=
    { h with live := { h.live with data := { h.live.data with tx := nofun, rxCnt := nofun, fl := nofun } } }
  exact hq.goto (f := .idle) ⟨rfl, rfl, rfl, rfl, rfl⟩

/-- Inside a chunk, between its flash operations, the invariant asks for the registers of the engine's state. -/
theorem State.Live.inv_of_inChunk {s : State} (h : s.Live) (hn : s.nvmOp = .idle) (hc : s.inChunk) (hr : s.RegsAt s.fsm) :
    s.Inv := by
  refine h.inv ?_ (.of_nvmIdle hr hn fun _ => hc)
  rcases hc with hf | hf | hf <;> simp [hf]

/-! ### The operations keep the parts of the invariant -/

theorem State.DataInv.fifoArm {s : State} (h : s.DataInv) {d : List Byte} (hd : d.length ≤ 64) : (fifoArm d s).DataInv :=
  { h with inBuf := by rw [fifoArm_ep0InBuf]; split <;> [exact hd; exact h.inBuf] }

theorem State.Live.fifoArm {s : State} (h : s.Live) {d : List Byte} (hd : d.length ≤ 64) : (fifoArm d s).Live :=
  { h with
    data := h.data.fifoArm hd
    inArmed := fun ha => by
      rw [fifoArm_ep0InArmed, Bool.or_eq_true] at ha
      exact ha.elim id h.inArmed }

theorem State.Quiet.ack {s : State} (h : s.Quiet) : (ack s).Quiet :=
  { h with live := h.live.fifoArm (Nat.zero_le 64) }

theorem State.Quiet.acceptSetup {s : State} (h : s.Quiet) : (acceptSetup s).Quiet :=
  { h with
    live := { h.live with
      data := { h.live.data with
        tx := nofun, rxCnt := nofun, fl := nofun, outBuf := Nat.zero_le 64, inBuf := Nat.zero_le 64 }
      setupFull := nofun, outFull := nofun, inArmed := nofun } }

theorem State.Quiet.withRxCnt {s : State} (h : s.Quiet) : ({ s with rxCnt := some 0 } : State).Quiet :=
  { h with live := { h.live with data := { h.live.data with rxCnt := by rintro n ⟨⟩; exact Nat.zero_le 132 } } }

theorem State.Quiet.withNewAddr {s : State} (h : s.Quiet) (a : DevAddr) : ({ s with newAddr := some a } : State).Quiet :=
  { h with live := { h.live with data := { h.live.data with } } }

theorem State.Quiet.withDevAddr {s : State} (h : s.Quiet) (a : DevAddr) :
    ({ s with devAddr := a, addrEn := true } : State).Quiet :=
  { h with live := { h.live with data := { h.live.data with } } }

theorem State.Quiet.withStall {s : State} (h : s.Quiet) : ({ s with ep0Stall := true } : State).Quiet :=
  { h with live := { h.live with data := { h.live.data with } } }

/-- EP1 is enabled by a configuration other than 0 only (41_control_transfer.md R150). -/
theorem State.Quiet.withConfiguration {s : State} (h : s.Quiet) (v : Byte) :
    ({ s with usbConfiguration := v, ep1Enabled := v != 0 } : State).Quiet :=
  { h with live := { h.live with data := { h.live.data with }, ep1 := fun hv => by simpa using hv } }

theorem State.Quiet.receiveComplete {s : State} (h : s.Quiet) (hl : s.latch ≠ none) (hr : s.rxCnt ≠ none) :
    (receiveComplete s).Inv := by
  rcases receiveComplete_cases s with he | he <;> rw [he]
  · exact h.ack.goto ⟨hl, hr⟩
  · exact h.goto ⟨hl, hr⟩

theorem State.Quiet.setReportBegin {s : State} (h : s.Quiet) (hl : s.latch ≠ none) (len : Word16) :
    (setReportBegin len s).Inv := by
  rcases setReportBegin_cases len s with he | he | he <;> rw [he]
  · exact h.withRxCnt.ack.goto ⟨hl, nofun⟩
  · exact h.withRxCnt.goto ⟨hl, nofun⟩
  · exact h.withRxCnt.goto ⟨hl, nofun⟩

theorem State.Quiet.lateAck {s : State} (h : s.Quiet) : (lateAck s).Quiet := by
  rcases lateAck_cases s with he | he <;> rw [he]
  · exact h
  · exact h.ack

/-- A fault is recorded at whatever state the engine is in (60_exceptions.md R279, R280). -/
theorem State.Inv.raise {s : State} (h : s.Inv) (c : FaultCause) : (raise c s).Inv where
  data := { h.data with }
  engine := { h.engine with eraseWait := fun hs => absurd hs (by simp) }
  usb := { h.usb with }

theorem State.Inv.answer {s : State} (h : s.Inv) (tok : Token) (r : Response) : (answer tok r s).Inv where
  data := { h.data with }
  engine := { h.engine with }
  usb := { h.usb with }

theorem State.Inv.withScript {s : State} (h : s.Inv) (l : List Move) : ({ s with script := l } : State).Inv where
  data := { h.data with }
  engine := { h.engine with }
  usb := { h.usb with }

/-! ### The segments of the engine -/

/-- A dispatch segment runs behind SETUP acceptance, which has filled the latch (41_control_transfer.md R141, R142). -/
theorem State.Quiet.exec {i : Instr} {s t : State} (h : s.Quiet) (hl : s.latch ≠ none) (he : exec i s = .next t) :
    t.Inv := by
  rcases exec_next he with rfl | ⟨d, hd, rfl⟩ | ⟨_, v, _, _, -, rfl⟩ | ⟨v, _, _, -, rfl⟩ | rfl | ⟨len, rfl⟩
  · exact h.withStall.toIdle
  · have hq : ({ s with tx := some ⟨d, 0, d.length, 0⟩ } : State).Quiet :=
      { h with live := { h.live with
          data := { h.live.data with
            tx := by rintro c ⟨⟩; exact ⟨hd, Nat.zero_add _, Nat.zero_le 64⟩ } } }
    exact hq.goto (f := .sendWait) nofun
  · exact (h.withNewAddr _).ack.goto nofun
  · exact (h.ack.withConfiguration (lo8 v)).toIdle
  · exact h.ack.toIdle
  · exact h.setReportBegin hl len

/-- One packet of an IN data phase takes its bytes off the rest (41_control_transfer.md R144). -/
theorem State.Quiet.armNext {s : State} (h : s.Quiet) {c : TxCtx} (hc : s.tx = some c) : (armNext c s).Quiet := by
  obtain ⟨hlen, hsum, -⟩ := h.live.data.tx c hc
  have hl := h.live.fifoArm (d := (c.data.drop c.off).take (min c.rem 64)) (by rw [List.length_take]; omega)
  exact { h with
    live := { hl with
      data := { hl.data with
        tx := by
          rintro _ ⟨⟩
          refine ⟨hlen, ?_, Nat.min_le_right ..⟩
          show c.off + min c.rem 64 + (c.rem - min c.rem 64) = c.data.length
          omega } } }

theorem State.Quiet.sendStep {s t : State} (h : s.Quiet) (he : sendStep s = .next t) : t.Inv := by
  rcases sendStep_next he with ⟨-, rfl⟩ | ⟨c, -, hc, ⟨-, rfl⟩ | ⟨-, rfl⟩⟩
  · exact h.toIdle
  · exact (h.armNext hc).goto nofun
  · exact (h.armNext hc).toIdle

theorem State.Quiet.addrStep {s t : State} (h : s.Quiet) (he : addrStep s = .next t) : t.Inv := by
  obtain ⟨a, -, rfl⟩ := addrStep_next he
  exact (h.withDevAddr a).toIdle

/-- RPT keeps its 132 bytes when a packet that fits is stored (42_hid_feature_reports.md R193). -/
theorem State.Quiet.storePacket {s : State} (h : s.Quiet) {rx : Nat} (hr : rx + s.ep0OutBuf.length ≤ 132) :
    (storePacket rx s).Quiet :=
  { h with live := { h.live with
      data := { h.live.data with
        rpt := length_rptStore h.live.data.rpt hr
        outBuf := Nat.zero_le 64
        rxCnt := by rintro _ ⟨⟩; exact hr }
      outFull := nofun } }

theorem State.Inv.receiveStep {s t : State} (h : s.Inv) (hq : s.Quiet) (he : receiveStep s = .next t) : t.Inv := by
  obtain ⟨r, rx, hl, -, ⟨-, rfl⟩ | ⟨-, rfl⟩ | ⟨-, hr, ⟨-, rfl⟩ | rfl⟩⟩ := receiveStep_next he
  · exact h.raise _
  · exact h.raise _
  · exact (hq.storePacket hr).receiveComplete (by simp [hl]) nofun
  · exact (hq.storePacket hr).goto ⟨by simp [hl], nofun⟩

/-- The exit report turns all of USB off and clears the page buffer (42_hid_feature_reports.md R197). -/
theorem State.Quiet.exitReport {s : State} (h : s.Quiet) : (exitReport s).Inv := by
  have hq : ({ rwwEnable (usbOff s) with ivsel := .app } : State).Quiet :=
    { h with live := { h.live with
        data := { h.live.data with pb := rfl, pbIn := rfl, pbClear := fun _ => rfl }
        ep1 := nofun, setupFull := nofun, outFull := nofun, inArmed := nofun } }
  exact hq.goto (f := .exitSettle) trivial

/-- A chunk has at most 64 words (42_hid_feature_reports.md R201). -/
theorem wordCount_le (mode : ChunkMode) {rx : Nat} (h : rx ≤ 132) : wordCount mode rx ≤ 64 := by
  unfold wordCount
  split
  · split <;> omega
  · exact Nat.le_refl 64

/-- The address of a chunk has ADDR_WIDTH bits (42_hid_feature_reports.md R200). -/
theorem chunkAddr_lt {p : Params} {rpt : List Byte} {a : Nat} (h : chunkAddr p rpt = some a) : a < 2 ^ addrWidth p := by
  unfold chunkAddr at h
  split at h
  · injection h with h
    exact h ▸ Nat.mod_lt _ (Nat.two_pow_pos _)
  · cases h

theorem State.Quiet.flashReport {s t : State} (h : s.Quiet) (he : flashReport s = .next t) : t.Inv := by
  obtain ⟨rx, a, hr, ha, rfl⟩ := flashReport_next he
  have hl : (Machine.goto .flWord
      { s with fl := some ⟨a, 0, wordCount s.par.chunkMode rx⟩, led := true }).Live :=
    { h.live with
      data := { h.live.data with
        fl := by
          rintro _ ⟨⟩
          exact ⟨chunkAddr_lt ha, Nat.zero_le _, wordCount_le _ (h.live.data.rxCnt rx hr)⟩ } }
  exact hl.inv_of_inChunk h.nvm (.inl rfl) nofun

theorem State.Quiet.reportStep {s t : State} (h : s.Quiet) (he : reportStep s = .next t) : t.Inv := by
  obtain ⟨r, -, ⟨-, rfl⟩ | ⟨-, he⟩ | ⟨-, -, rfl⟩⟩ := reportStep_next he
  · exact h.exitReport
  · exact h.flashReport he
  · exact h.lateAck.toIdle

/-! ### The segments of a flash chunk -/

/-- The staged word goes inside the page buffer, and the chunk's address and index stay in bounds
(43_flash_engine.md R233, R237). -/
theorem State.Live.fillAdvance {s : State} (h : s.Live) {f : FlCtx} (hf : s.fl = some f) (hi : f.i < f.n)
    (he : f.addr % 2 = 0) (w : Word16) : (fillAdvance f w s).Live := by
  obtain ⟨ho, -⟩ := offset_lt h.data.par he
  obtain ⟨-, -, hn⟩ := h.data.fl f hf
  exact { h with
    data := { h.data with
      pb := Memory.wf_write (Memory.wf_write h.data.pb _ _) _ _
      pbIn := Memory.below_write (Memory.below_write h.data.pbIn (by omega) _) ho _
      pbClear := nofun
      fl := by rintro _ ⟨⟩; exact ⟨Nat.mod_lt _ (Nat.two_pow_pos _), hi, hn⟩ } }

/-- A staged word below the boot section: the chunk goes on, or its page, which lies inside FLASH, is written, or F05 is
raised at whichever of its two states the engine is in (43_flash_engine.md R233, R238, R239). -/
theorem State.Live.fillAndAdvance {s : State} (h : s.Live) (hn : s.nvmOp = .idle)
    (hc : s.fsm = some .flWord ∨ s.fsm = some .flEraseWait) {f : FlCtx} (hf : s.fl = some f) (hi : f.i < f.n)
    (he : f.addr % 2 = 0) (hb : f.addr < s.par.bootStart) (w : Word16) : (fillAndAdvance f w s).Inv := by
  have hl := h.fillAdvance hf hi he w
  rcases fillAndAdvance_cases f w s with hr | hr | hr <;> rw [hr]
  · have hg : (Machine.goto .flWord (Machine.fillAdvance f w s)).Live := { hl with data := { hl.data with } }
    exact hg.inv_of_inChunk hn (.inl rfl) nofun
  · have hg : (Machine.goto .flWriteWait (startWrite (pageOf s.par f.addr) (Machine.fillAdvance f w s))).Live :=
      { hl with data := { hl.data with } }
    refine hg.inv nofun (.of_regsAt nofun nofun ?_ fun _ => .inr (.inr rfl))
    rintro _ ⟨⟩
    exact ⟨(page_in_flash h.data.par hb).2, rfl⟩
  · have hg : (Machine.raise (.writeUnerased (pageOf s.par f.addr)) (Machine.fillAdvance f w s)).Live :=
      { hl with data := { hl.data with } }
    rcases hc with hc | hc
    · exact hg.inv_of_inChunk hn (.inl hc) (by rw [raise_fsm, fillAdvance_fsm, hc]; nofun)
    · refine hg.inv_of_inChunk hn (.inr (.inl hc)) ?_
      rw [raise_fsm, fillAdvance_fsm, hc]
      exact fun hs => absurd hs (by simp)

/-- A word that passes CheckWord is even and below the boot section, so the erase of its page may start
(43_flash_engine.md R233, R234). -/
theorem State.Inv.writeWord {s : State} (h : s.Inv) (hp : s.bootPhase = .usb) (hc : s.fsm = some .flWord) {f : FlCtx}
    (hf : s.fl = some f) (hi : f.i < f.n) (w : Word16) : (writeWord f w s).Inv := by
  have hl := h.live hp
  have hn : s.nvmOp = .idle := h.engine.nvmIdle (by simp [hc]) (by simp [hc])
  rcases writeWord_cases f w s with ⟨c, -, hr⟩ | ⟨hw, ho, hr⟩ | ⟨hw, -, hr⟩ <;> rw [hr]
  · exact h.raise c
  · obtain ⟨he, -, -, -, hb⟩ := checkWord_none.1 hw
    have hg : (Machine.goto .flEraseWait (startErase (pageOf s.par f.addr) s)).Live := { hl with data := { hl.data with } }
    refine hg.inv nofun (.of_regsAt (fun _ => ⟨f, hf, hi, he, hb, ho⟩) ?_ nofun fun _ => .inr (.inl rfl))
    rintro _ ⟨⟩
    exact ⟨(page_in_flash h.data.par hb).2, rfl⟩
  · obtain ⟨he, -, -, -, hb⟩ := checkWord_none.1 hw
    exact hl.fillAndAdvance hn (.inl hc) hf hi he hb w

theorem State.Inv.flWordStep {s t : State} (h : s.Inv) (hp : s.bootPhase = .usb) (hc : s.fsm = some .flWord)
    (he : flWordStep s = .next t) : t.Inv := by
  obtain ⟨f, hf, ⟨-, rfl⟩ | ⟨hne, w, -, rfl⟩⟩ := flWordStep_next he
  · have hl := h.live hp
    have hq : ({ s with led := false } : State).Quiet :=
      { live := { hl with data := { hl.data with } }
        nvm := h.engine.nvmIdle (by simp [hc]) (by simp [hc])
        led := rfl }
    exact hq.lateAck.toIdle
  · obtain ⟨-, hi, -⟩ := h.data.fl f hf
    exact h.writeWord hp hc hf (Nat.lt_of_le_of_ne hi hne) w

/-- The engine leaves FL_ERASE_WAIT once the erase has completed (43_flash_engine.md R233). -/
theorem State.Inv.flEraseStep {s t : State} (h : s.Inv) (hs : s.faults = []) (hp : s.bootPhase = .usb)
    (hn : s.nvmOp = .idle) (hc : s.fsm = some .flEraseWait) (he : flEraseStep s = .next t) : t.Inv := by
  obtain ⟨f, w, hf, -, rfl⟩ := flEraseStep_next he
  obtain ⟨g, hg, hi, ha, hb, -⟩ := h.engine.eraseWait hs hc
  obtain rfl : f = g := Option.some.inj (hf.symm.trans hg)
  exact (h.live hp).fillAndAdvance hn (.inr hc) hf hi ha hb w

/-- The engine leaves FL_WRITE_WAIT once the write has completed (43_flash_engine.md R242). -/
theorem State.Inv.flWriteStep {s : State} (h : s.Inv) (hp : s.bootPhase = .usb) (hn : s.nvmOp = .idle)
    (hc : s.fsm = some .flWriteWait) : (flWriteStep s).Inv := by
  have hl : (Machine.flWriteStep s).Live := { h.live hp with data := { h.data with } }
  exact hl.inv_of_inChunk hn (.inl rfl) (h.engine.writeWait hc)

/-- What an enabled engine has behind it: phase USB, no fault, and its wait over (41_control_transfer.md R139). -/
theorem engineEnabled_iff {s : State} :
    engineEnabled s = true ↔ s.bootPhase = .usb ∧ s.faults = [] ∧ fsmEnabled s = true := by
  simp [engineEnabled, and_assoc]

/-- A wait for a flash operation is over when none is in progress (41_control_transfer.md R139). -/
theorem nvmIdle_of_fsmEnabled {s : State} (h : fsmEnabled s = true)
    (hc : s.fsm = some .flEraseWait ∨ s.fsm = some .flWriteWait) : s.nvmOp = .idle := by
  rcases hc with hc | hc <;> simpa [fsmEnabled, hc] using h

theorem State.not_inChunk {s : State} {f : Fsm} (hf : s.fsm = some f)
    (hc : f ≠ .flWord ∧ f ≠ .flEraseWait ∧ f ≠ .flWriteWait) : ¬s.inChunk := by
  obtain ⟨h1, h2, h3⟩ := hc
  simp [State.inChunk, hf, h1, h2, h3]

/-- The engine keeps the invariant in whichever segment its `fsm` selects (41_control_transfer.md R138). -/
theorem State.Inv.engineStep {s t : State} (h : s.Inv) (hen : engineEnabled s = true) (he : engineStep s = .next t) :
    t.Inv := by
  obtain ⟨hp, hs, hw⟩ := engineEnabled_iff.1 hen
  have quiet : ∀ {f}, s.fsm = some f → (f ≠ .flWord ∧ f ≠ .flEraseWait ∧ f ≠ .flWriteWait) → s.Quiet :=
    fun hf hc => h.quiet hp (State.not_inChunk hf hc)
  rcases engineStep_next he with ⟨-, rfl⟩ | ⟨hf, he⟩ | ⟨hf, he⟩ | ⟨hf, he⟩ | ⟨hf, he⟩ | ⟨hf, he⟩ | ⟨hf, he⟩ |
    ⟨hf, he⟩ | ⟨hf, rfl⟩ | ⟨hf, rfl⟩
  · exact h
  · exact (quiet hf (by decide)).acceptSetup.exec nofun he
  · exact (quiet hf (by decide)).sendStep he
  · exact (quiet hf (by decide)).addrStep he
  · exact h.receiveStep (quiet hf (by decide)) he
  · exact (quiet hf (by decide)).reportStep he
  · exact h.flWordStep hp hf he
  · exact h.flEraseStep hs hp (nvmIdle_of_fsmEnabled hw (.inl hf)) hf he
  · exact h.flWriteStep hp (nvmIdle_of_fsmEnabled hw (.inr hf)) hf
  · have hq := quiet hf (by decide)
    have hq : ({ s with rstcauseReg := s.par.exitResetCause, offs := s.offs ++ [s.par.exitResetCause] } : State).Quiet :=
      { hq with live := { hq.live with data := { hq.live.data with } } }
    exact hq.goto (f := .off) trivial

/-! ### The host's tokens -/

theorem State.Inv.hostSetup {s : State} (h : s.Inv) (hc : s.ep0Configured = true) (tok : Token) (b : SetupPacket) :
    (hostSetup tok b s).Inv := by
  unfold Machine.hostSetup
  split
  · exact h.raise _
  · have hs : ({ s with ep0SetupBuf := b, ep0SetupFull := true, ep0Stall := false } : State).Inv :=
      ⟨{ h.data with }, { h.engine with }, { h.usb with setupFull := fun _ => hc }⟩
    exact hs.answer tok .ack

theorem State.Inv.hostOut {s : State} (h : s.Inv) (hc : s.ep0Configured = true) (tok : Token) {b : List Byte}
    (hb : b.length ≤ 64) : (hostOut tok b s).Inv := by
  unfold Machine.hostOut
  split
  · exact h.answer tok .stall
  · split
    · exact h.answer tok .nak
    · have hs : ({ s with ep0OutBuf := b, ep0OutFull := true } : State).Inv :=
        ⟨{ h.data with outBuf := hb }, { h.engine with }, { h.usb with outFull := fun _ => hc }⟩
      exact hs.answer tok .ack

theorem State.Inv.hostIn {s : State} (h : s.Inv) (tok : Token) : (hostIn tok s).Inv := by
  unfold Machine.hostIn
  split
  · exact h.answer tok .stall
  · split
    · exact h.answer tok .nak
    · have hs : ({ s with ep0InArmed := false, ep0InBuf := [] } : State).Inv :=
        ⟨{ h.data with inBuf := Nat.zero_le 64 }, { h.engine with }, { h.usb with inArmed := nofun }⟩
      exact hs.answer tok _

theorem State.Inv.hostBusReset {s : State} (h : s.Inv) : (hostBusReset s).Inv := by
  unfold Machine.hostBusReset
  split
  · exact h
  · split
    · exact h.raise _
    · exact ⟨{ h.data with }, { h.engine with },
        { h.usb with bootOff := fun hp => ⟨(h.usb.bootOff hp).1, rfl, rfl⟩,
                     ep1 := nofun, setupFull := nofun, outFull := nofun, inArmed := nofun }⟩

theorem State.Inv.hostToken {tok : Token} {s t : State} (h : s.Inv) (ht : hostToken tok s = .next t) : t.Inv := by
  rcases hostToken_next ht with ⟨r, -, rfl⟩ | ⟨_, b, -, -, hc, rfl⟩ | ⟨_, b, -, hb, -, hc, rfl⟩ | ⟨_, -, -, -, rfl⟩ |
    ⟨-, rfl⟩
  · exact h.answer tok r
  · exact h.hostSetup hc tok b
  · exact h.hostOut hc tok hb
  · exact h.hostIn tok
  · exact h.hostBusReset

/-! ### The NVM agent, the bus-reset handler and boot -/

theorem State.Inv.nvmStep {s t : State} (h : s.Inv) (hn : nvmStep s = .next t) : t.Inv := by
  rcases nvmStep_next hn with ⟨-, rfl⟩ | ⟨p, -, -, rfl⟩ | ⟨p, -, hp, rfl⟩
  · exact h
  · exact
      { data := { h.data with flash := Memory.wf_eraseRange h.data.flash _ _
                              flashIn := Memory.below_eraseRange h.data.flashIn _ _ }
        engine := { h.engine with erasing := nofun, writing := nofun }
        usb := { h.usb with } }
  · exact
      { data := { h.data with flash := Memory.wf_writeRange h.data.flash _ _ _
                              flashIn := Memory.below_writeRange h.data.flashIn (of_decide_eq_true hp) _
                              pb := rfl, pbIn := rfl, pbClear := fun _ => rfl }
        engine := { h.engine with erasing := nofun, writing := nofun }
        usb := { h.usb with } }

theorem State.Inv.busHandlerTurn {s t : State} (h : s.Inv) (ht : busHandlerTurn s = .next t) : t.Inv := by
  rcases busHandlerTurn_next ht with rfl | ⟨he, rfl⟩
  · exact h
  · obtain ⟨-, -, -, hb⟩ := busHandlerEnabled_iff.1 he
    exact
      { data := { h.data with }
        engine := { h.engine with }
        usb := { h.usb with bootOff := fun hp => absurd hb hp
                            ep1 := nofun, setupFull := nofun, outFull := nofun, inArmed := nofun } }

@[simp] theorem length_drawBytes (d n : Nat) : (drawBytes d n).length = n := by simp [drawBytes]

/-- A drawn packet has at most 64 bytes. -/
theorem length_drawPacket_le (d : Nat) : (drawPacket d).length ≤ 64 := by
  rw [drawPacket, length_drawBytes]
  omega

theorem wf_flashOverReset {s : State} (h : s.flash.wf = true) (d : Nat) : (flashOverReset d s).wf = true := by
  unfold flashOverReset
  split
  · exact h
  · split <;> [exact Memory.wf_writeRange h _ _ _; exact h]
  · split <;> [exact Memory.wf_writeRange h _ _ _; exact h]

theorem below_flashOverReset {s : State} (h : s.flash.below s.par.flashSize = true) (d : Nat) :
    (flashOverReset d s).below s.par.flashSize = true := by
  unfold flashOverReset
  split
  · exact h
  · split
    · next hp => exact Memory.below_writeRange h (of_decide_eq_true hp) _
    · exact h
  · split
    · next hp => exact Memory.below_writeRange h (of_decide_eq_true hp) _
    · exact h

theorem magicOverReset_lt {s : State} (h : s.magicKey < 2 ^ s.par.magicWidth) (c : Causes) :
    magicOverReset c s < 2 ^ s.par.magicWidth := by
  unfold magicOverReset
  split <;> [exact Nat.mod_lt _ (Nat.two_pow_pos _); exact h]

/-- A device reset establishes the **dev** column of R312, with FLASH and the magic key inside their bounds. -/
theorem State.Inv.deviceReset {s : State} (h : s.Inv) (c : Causes) : (deviceReset c s).Inv where
  data :=
    { par := h.data.par
      flash := wf_flashOverReset h.data.flash _
      flashIn := below_flashOverReset h.data.flashIn _
      pb := rfl
      pbIn := rfl
      pbClear := fun _ => rfl
      rpt := length_drawBytes _ _
      outBuf := length_drawPacket_le _
      inBuf := length_drawPacket_le _
      magic := magicOverReset_lt h.data.magic c
      tx := nofun
      rxCnt := nofun
      fl := nofun }
  engine := .of_nvmIdle ⟨rfl, rfl, rfl, rfl, rfl⟩ rfl nofun
  usb :=
    { phase := ⟨fun _ => nofun, fun _ => rfl⟩, bootOff := fun _ => ⟨rfl, rfl, rfl⟩, ep1 := nofun, setupFull := nofun,
      outFull := nofun, inArmed := nofun }

/-- USB initialisation comes at the end of boot, where no request, no bank and no endpoint is left
(70_reset_and_hazards.md R310). -/
theorem State.Inv.usbInit {s : State} (h : s.Inv) (hp : s.bootPhase ≠ .usb) : (usbInit s).Inv := by
  have hf := h.usb.phase.2 hp
  obtain ⟨-, hc, he⟩ := h.usb.bootOff hp
  have hl : (Machine.usbInit s).Live :=
    { data := { h.data with rpt := List.length_replicate }
      phase := rfl
      ep1 := fun ht => absurd (he.symm.trans ht) nofun
      setupFull := fun hs => absurd (hc.symm.trans (h.usb.setupFull hs)) nofun
      outFull := fun hs => absurd (hc.symm.trans (h.usb.outFull hs)) nofun
      inArmed := fun hs => absurd (hc.symm.trans (h.usb.inArmed hs)) nofun }
  refine hl.inv nofun (.of_nvmIdle (h.engine.unset hf) (h.engine.nvmIdle ?_ ?_) fun ht => ?_)
  · simp [hf]
  · simp [hf]
  · rcases h.engine.led ht with h | h | h <;> simp [hf] at h

/-- Another phase of boot leaves the engine and the USB module as they are. -/
theorem State.Inv.withPhase {s : State} (h : s.Inv) (hp : s.bootPhase ≠ .usb) {b : BootPhase} (hb : b ≠ .usb) :
    ({ s with bootPhase := b } : State).Inv where
  data := { h.data with }
  engine := { h.engine with }
  usb := { h.usb with phase := ⟨fun _ => hb, fun _ => h.usb.phase.2 hp⟩, bootOff := fun _ => h.usb.bootOff hp }

/-- Of what boot counts and keeps, the invariant bounds the magic key only (10_state.md R37). -/
theorem State.Inv.withTimer {s : State} (h : s.Inv) {k : Nat} (hk : k < 2 ^ s.par.magicWidth) (n : BitVec 16)
    (r i : Bool) (d : Nat) :
    ({ s with magicKey := k, timeoutCounter := n, timerRunning := r, intEn := i, draws := d } : State).Inv where
  data := { h.data with magic := hk }
  engine := { h.engine with }
  usb := { h.usb with }

theorem State.Inv.bootDecide {s : State} (h : s.Inv) (hp : s.bootPhase ≠ .usb) : (bootDecide s).Inv := by
  rcases bootDecide_cases s with he | he <;> rw [he]
  · obtain ⟨-, -, -, -, -, hk, -⟩ := Params.wf_numbers h.data.par
    exact (h.withTimer hk 0 true true s.draws).withPhase hp nofun
  · exact h.usbInit hp

theorem State.Inv.bootCapture {s : State} (h : s.Inv) (hp : s.bootPhase ≠ .usb) : (bootCapture s).Inv := by
  have hc : ({ s with resetCause := s.rstcauseReg, rstcauseReg := Causes.none, wdtEnabled := false } : State).Inv :=
    ⟨{ h.data with }, { h.engine with }, { h.usb with }⟩
  exact hc.bootDecide hp

theorem State.Inv.tick {s : State} (h : s.Inv) (hp : s.bootPhase ≠ .usb) : (tick s).Inv := by
  have hz : 0 < 2 ^ s.par.magicWidth := Nat.two_pow_pos _
  rcases tick_cases s with he | ⟨d, he⟩ | ⟨d, he⟩ <;> rw [he]
  · exact h.withTimer h.data.magic _ s.timerRunning s.intEn s.draws
  · exact (h.withTimer hz _ false s.intEn d).withPhase hp nofun
  · exact (h.withTimer hz _ false s.intEn d).usbInit hp

theorem State.Inv.bootTurn {s t : State} (h : s.Inv) (ht : bootTurn s = .next t) : t.Inv := by
  rcases bootTurn_next ht with rfl | ⟨he, rfl⟩
  · exact h
  · rcases bootStep_cases he with ⟨hp, hb⟩ | ⟨hp, -, -, hb⟩ | ⟨-, -, hb⟩ <;> rw [hb]
    · exact h.bootCapture (by simp [hp])
    · exact h.tick (by simp [hp])
    · exact h.deviceReset _

/-! ### The whole machine -/

theorem State.Inv.runMove {m : Move} {s t : State} (h : s.Inv) (hm : runMove m s = .next t) : t.Inv := by
  cases m with
  | host tok => exact h.hostToken hm
  | physReset c => exact next_inj.1 hm ▸ h.deviceReset c.causes
  | nvm => exact h.nvmStep hm
  | busHandler => exact h.busHandlerTurn hm
  | engine =>
    rcases engineTurn_next hm with rfl | ⟨hen, he⟩
    · exact h
    · exact h.engineStep hen he
  | boot => exact h.bootTurn hm

/-- Settles O55: a step is one move made after the script is advanced, and every move keeps the invariant. -/
theorem everyStepKeepsTheInvariant : Obligations.EveryStepKeepsTheInvariant := by
  intro s t h hst
  obtain ⟨-, m, -, hm⟩ := step_next hst
  exact (h.withScript s.script.tail).runMove hm

/-- Settles O54: the parameters are ones R8 allows, the draws have their sizes, and every other field the invariant
reads is at its **dev** value (70_reset_and_hazards.md R312). -/
theorem invariantHoldsAtReset : Obligations.InvariantHoldsAtReset where
  data :=
    { par := Config.params_wf
      flash := rfl
      flashIn := rfl
      pb := rfl
      pbIn := rfl
      pbClear := fun _ => rfl
      rpt := length_drawBytes _ _
      outBuf := length_drawPacket_le _
      inBuf := length_drawPacket_le _
      magic := Nat.mod_lt _ (Nat.two_pow_pos _)
      tx := nofun
      rxCnt := nofun
      fl := nofun }
  engine := .of_nvmIdle ⟨rfl, rfl, rfl, rfl, rfl⟩ rfl nofun
  usb :=
    { phase := ⟨fun _ => nofun, fun _ => rfl⟩, bootOff := fun _ => ⟨rfl, rfl, rfl⟩, ep1 := nofun, setupFull := nofun,
      outFull := nofun, inArmed := nofun }

/-! ### Every segment answers in a state with the invariant -/

/-- Every instruction answers a next state from every state. -/
theorem exec_total (i : Instr) (s : State) : ∃ t, exec i s = .next t := by
  cases i <;> exact ⟨_, rfl⟩

/-- RPT has a byte at each offset of a chunk's word (42_hid_feature_reports.md R202). -/
theorem chunkWord_total {rpt : List Byte} (h : rpt.length = 132) {i : Nat} (hi : i < 64) :
    ∃ w, chunkWord rpt i = some w := by
  have hlo : 4 + 2 * i < rpt.length := by omega
  have hhi : 5 + 2 * i < rpt.length := by omega
  simp only [chunkWord, List.getElem?_eq_getElem hlo, List.getElem?_eq_getElem hhi]
  exact ⟨_, rfl⟩

/-- RPT has the three bytes of a chunk's address (42_hid_feature_reports.md R200). -/
theorem chunkAddr_total {rpt : List Byte} (h : rpt.length = 132) (p : Params) : ∃ a, chunkAddr p rpt = some a := by
  have h1 : 1 < rpt.length := by omega
  have h2 : 2 < rpt.length := by omega
  have h3 : 3 < rpt.length := by omega
  simp only [chunkAddr, List.getElem?_eq_getElem h1, List.getElem?_eq_getElem h2, List.getElem?_eq_getElem h3]
  exact ⟨_, rfl⟩

/-- An operation in progress is on a page inside FLASH, so its completion has a meaning. -/
theorem State.Inv.nvmStep_total {s : State} (h : s.Inv) : ∃ t, Machine.nvmStep s = .next t := by
  unfold Machine.nvmStep
  split
  · exact ⟨_, rfl⟩
  · next p hp => exact ⟨_, if_pos (h.engine.erasing p hp).1⟩
  · next p hp => exact ⟨_, if_pos (h.engine.writing p hp).1⟩

theorem sendStep_total {s : State} (h : s.tx ≠ none) : ∃ t, sendStep s = .next t := by
  obtain ⟨c, hc⟩ := Option.ne_none_iff_exists'.1 h
  unfold sendStep
  rw [hc]
  split
  · exact ⟨_, rfl⟩
  · dsimp only
    split <;> exact ⟨_, rfl⟩

theorem addrStep_total {s : State} (h : s.newAddr ≠ none) : ∃ t, addrStep s = .next t := by
  obtain ⟨a, ha⟩ := Option.ne_none_iff_exists'.1 h
  exact ⟨_, by unfold addrStep; rw [ha]⟩

theorem receiveStep_total {s : State} (hl : s.latch ≠ none) (hr : s.rxCnt ≠ none) : ∃ t, receiveStep s = .next t := by
  obtain ⟨r, hl⟩ := Option.ne_none_iff_exists'.1 hl
  obtain ⟨rx, hr⟩ := Option.ne_none_iff_exists'.1 hr
  unfold receiveStep
  rw [hl, hr]
  dsimp only
  split
  · exact ⟨_, rfl⟩
  · split
    · exact ⟨_, rfl⟩
    · split <;> exact ⟨_, rfl⟩

theorem flashReport_total {s : State} (hr : s.rxCnt ≠ none) (hrpt : s.rpt.length = 132) :
    ∃ t, flashReport s = .next t := by
  obtain ⟨rx, hr⟩ := Option.ne_none_iff_exists'.1 hr
  obtain ⟨a, ha⟩ := chunkAddr_total hrpt s.par
  exact ⟨_, by unfold flashReport; rw [hr, ha]⟩

theorem reportStep_total {s : State} (hl : s.latch ≠ none) (hr : s.rxCnt ≠ none) (hrpt : s.rpt.length = 132) :
    ∃ t, reportStep s = .next t := by
  obtain ⟨r, hl⟩ := Option.ne_none_iff_exists'.1 hl
  unfold reportStep
  rw [hl]
  dsimp only
  split
  · exact ⟨_, rfl⟩
  · split
    · exact flashReport_total hr hrpt
    · exact ⟨_, rfl⟩

/-- Before its end a chunk has a word, at an index below 64. -/
theorem State.Inv.flWordStep_total {s : State} (h : s.Inv) (hf : s.fl ≠ none) : ∃ t, Machine.flWordStep s = .next t := by
  obtain ⟨f, hf⟩ := Option.ne_none_iff_exists'.1 hf
  obtain ⟨-, hi, hn⟩ := h.data.fl f hf
  unfold Machine.flWordStep
  rw [hf]
  dsimp only
  split
  · exact ⟨_, rfl⟩
  · next hne =>
    obtain ⟨w, hw⟩ := chunkWord_total h.data.rpt (i := f.i) (by omega)
    exact ⟨_, by rw [hw]⟩

theorem State.Inv.flEraseStep_total {s : State} (h : s.Inv) (hs : s.faults = []) (hc : s.fsm = some .flEraseWait) :
    ∃ t, Machine.flEraseStep s = .next t := by
  obtain ⟨f, hf, hi, -⟩ := h.engine.eraseWait hs hc
  obtain ⟨-, -, hn⟩ := h.data.fl f hf
  obtain ⟨w, hw⟩ := chunkWord_total h.data.rpt (i := f.i) (by omega)
  exact ⟨_, by unfold Machine.flEraseStep; rw [hf]; dsimp only; rw [hw]⟩

/-- The segment of each `fsm` reads registers that hold a value there (10_state.md R21, R40). -/
theorem State.Inv.engineStep_total {s : State} (h : s.Inv) (hs : s.faults = []) : ∃ t, Machine.engineStep s = .next t := by
  unfold Machine.engineStep
  split <;> rename_i hf
  · exact ⟨_, rfl⟩
  · exact exec_total _ _
  · exact sendStep_total (h.engine.sendWait hf)
  · exact addrStep_total (h.engine.addrWait hf)
  · exact receiveStep_total (h.engine.recvWait hf).1 (h.engine.recvWait hf).2
  · exact reportStep_total (h.engine.srDone hf).1 (h.engine.srDone hf).2 h.data.rpt
  · exact h.flWordStep_total (h.engine.flWord hf)
  · exact h.flEraseStep_total hs hf
  · exact ⟨_, rfl⟩
  · exact ⟨_, rfl⟩
  · exact ⟨_, rfl⟩

/-- The host has every move but an OUT of more than 64 bytes (41_control_transfer.md R136). -/
theorem hostToken_total (tok : Token) (s : State) :
    (∃ t, hostToken tok s = .next t) ∨
      (hostToken tok s = .refused .noSuchMove ∧ ∃ addr ep b, tok = .out addr ep b ∧ 64 < b.length) := by
  cases tok with
  | setup addr b =>
    left
    simp only [hostToken]
    split <;> exact ⟨_, rfl⟩
  | out addr ep b =>
    simp only [hostToken]
    split
    · next hb => exact .inr ⟨rfl, addr, ep, b, rfl, hb⟩
    · left
      split <;> exact ⟨_, rfl⟩
  | inp addr ep =>
    left
    simp only [hostToken]
    split
    · exact ⟨_, rfl⟩
    · split <;> exact ⟨_, rfl⟩
  | busReset => exact .inl ⟨_, rfl⟩

theorem State.Inv.runMove_total {s : State} (h : s.Inv) (hs : s.faults = []) (m : Move) :
    (∃ t, Machine.runMove m s = .next t) ∨
      (Machine.runMove m s = .refused .noSuchMove ∧ ∃ addr ep b, m = .host (.out addr ep b) ∧ 64 < b.length) := by
  cases m with
  | host tok =>
    refine (hostToken_total tok s).imp id ?_
    rintro ⟨he, addr, ep, b, rfl, hb⟩
    exact ⟨he, addr, ep, b, rfl, hb⟩
  | physReset c => exact .inl ⟨_, rfl⟩
  | nvm => exact .inl h.nvmStep_total
  | busHandler =>
    left
    simp only [Machine.runMove, Machine.busHandlerTurn]
    split <;> exact ⟨_, rfl⟩
  | engine =>
    left
    simp only [Machine.runMove, engineTurn]
    split
    · exact h.engineStep_total hs
    · exact ⟨_, rfl⟩
  | boot =>
    left
    simp only [Machine.runMove, Machine.bootTurn]
    split <;> exact ⟨_, rfl⟩

/-- The unscripted block has a turn unless the application has control (70_reset_and_hazards.md R307). -/
theorem State.Inv.idleTurn_total {s : State} (h : s.Inv) (hs : s.faults = []) :
    (∃ t, idleTurn s = .next t) ∨ (idleTurn s = .refused .applicationRuns ∧ s.bootPhase = .app) := by
  unfold idleTurn
  split
  · exact .inl h.nvmStep_total
  · split
    · exact .inl ⟨_, rfl⟩
    · split
      · exact .inl (h.engineStep_total hs)
      · split
        · exact .inl ⟨_, rfl⟩
        · split
          · next hp => exact .inr ⟨rfl, hp⟩
          · exact .inl ⟨_, rfl⟩

/-- Settles O56: the next scripted move answers unless it is a too long OUT, and the unscripted block answers unless the
application has control. -/
theorem invariantExcludesModelErrors : Obligations.InvariantExcludesModelErrors := by
  intro s h hs
  cases hc : s.script with
  | nil =>
    rw [step_unscripted hs hc]
    exact (h.idleTurn_total hs).imp id fun ⟨he, hp⟩ => .inr ⟨he, rfl, hp⟩
  | cons m rest =>
    rw [step_scripted hs hc]
    refine ((h.withScript rest).runMove_total hs m).imp id ?_
    rintro ⟨he, addr, ep, b, rfl, hb⟩
    exact .inl ⟨he, addr, ep, b, rest, rfl, hb⟩

end Sys2Proof.Machine
end

section
/-! SUPPORT. The writers of the page buffer (10_state.md R31, 43_flash_engine.md R232, R237), and from them and from the
writers of FLASH that both memories stay in canonical form. -/

namespace Sys2Proof.Machine

/-- The page buffer, its bytes and its tag, is the same in both states. -/
structure SameBuffer (s t : State) : Prop where
  data : t.pbData = s.pbData
  tag  : t.pbTag = s.pbTag

theorem SameBuffer.trans {s t u : State} (h : SameBuffer s t) (h' : SameBuffer t u) : SameBuffer s u :=
  ⟨h'.data.trans h.data, h'.tag.trans h.tag⟩

/-- What a move can do to the page buffer: keep it, clear it (43_flash_engine.md R232), or stage one word in it
(43_flash_engine.md R237). -/
inductive BufferStep (s t : State) : Prop
  | kept (h : SameBuffer s t)
  | cleared (h : SameBuffer (clearPageBuffer s) t)
  | filled (a : Nat) (w : Word16) (h : SameBuffer (fill a w s) t)

/-! ### The operations that branch -/

theorem fillAndAdvance_buffer (f : FlCtx) (w : Word16) (s : State) :
    SameBuffer (fill f.addr w s) (fillAndAdvance f w s) := by
  rcases fillAndAdvance_cases f w s with h | h | h <;> rw [h] <;> exact ⟨rfl, rfl⟩

/-- A word of a chunk is staged, unless it raises a fault or starts an erase (43_flash_engine.md R233). -/
theorem writeWord_buffer (f : FlCtx) (w : Word16) (s : State) :
    SameBuffer s (writeWord f w s) ∨ SameBuffer (fill f.addr w s) (writeWord f w s) := by
  rcases writeWord_cases f w s with ⟨c, -, h⟩ | ⟨-, -, h⟩ | ⟨-, -, h⟩ <;> rw [h]
  · exact .inl ⟨rfl, rfl⟩
  · exact .inl ⟨rfl, rfl⟩
  · exact .inr (fillAndAdvance_buffer f w s)

theorem receiveComplete_sameBuffer (s : State) : SameBuffer s (receiveComplete s) := by
  rcases receiveComplete_cases s with h | h <;> rw [h] <;> exact ⟨rfl, rfl⟩

theorem setReportBegin_sameBuffer (len : Word16) (s : State) : SameBuffer s (setReportBegin len s) := by
  rcases setReportBegin_cases len s with h | h | h <;> rw [h] <;> exact ⟨rfl, rfl⟩

theorem lateAck_sameBuffer (s : State) : SameBuffer s (lateAck s) := by
  rcases lateAck_cases s with h | h <;> rw [h] <;> exact ⟨rfl, rfl⟩

theorem chunkDone_sameBuffer (s : State) : SameBuffer s (chunkDone s) :=
  have hack : SameBuffer { s with led := false } (lateAck { s with led := false }) := lateAck_sameBuffer _
  ⟨hack.data, hack.tag⟩

theorem otherReport_sameBuffer (s : State) : SameBuffer s (otherReport s) :=
  (lateAck_sameBuffer s).trans ⟨rfl, rfl⟩

theorem hostSetup_sameBuffer (tok : Token) (b : SetupPacket) (s : State) : SameBuffer s (hostSetup tok b s) := by
  unfold hostSetup
  split <;> exact ⟨rfl, rfl⟩

theorem hostOut_sameBuffer (tok : Token) (b : List Byte) (s : State) : SameBuffer s (hostOut tok b s) := by
  unfold hostOut
  split
  · exact ⟨rfl, rfl⟩
  · split <;> exact ⟨rfl, rfl⟩

theorem hostIn_sameBuffer (tok : Token) (s : State) : SameBuffer s (hostIn tok s) := by
  unfold hostIn
  split
  · exact ⟨rfl, rfl⟩
  · split <;> exact ⟨rfl, rfl⟩

theorem hostBusReset_sameBuffer (s : State) : SameBuffer s (hostBusReset s) := by
  unfold hostBusReset
  split
  · exact ⟨rfl, rfl⟩
  · split <;> exact ⟨rfl, rfl⟩

theorem bootCapture_sameBuffer (s : State) : SameBuffer s (bootCapture s) := by
  rcases bootDecide_cases { s with resetCause := s.rstcauseReg, rstcauseReg := Causes.none, wdtEnabled := false } with
    h | h <;> rw [bootCapture, h] <;> exact ⟨rfl, rfl⟩

theorem tick_sameBuffer (s : State) : SameBuffer s (tick s) := by
  rcases tick_cases s with h | ⟨_, h⟩ | ⟨_, h⟩ <;> rw [h] <;> exact ⟨rfl, rfl⟩

/-! ### The segments and the turns -/

theorem exec_sameBuffer {i : Instr} {s t : State} (h : exec i s = .next t) : SameBuffer s t := by
  rcases exec_next h with rfl | ⟨_, -, rfl⟩ | ⟨_, _, _, _, -, rfl⟩ | ⟨_, _, _, -, rfl⟩ | rfl | ⟨l, rfl⟩
  · exact ⟨rfl, rfl⟩
  · exact ⟨rfl, rfl⟩
  · exact ⟨rfl, rfl⟩
  · exact ⟨rfl, rfl⟩
  · exact ⟨rfl, rfl⟩
  · exact setReportBegin_sameBuffer l s

theorem sendStep_sameBuffer {s t : State} (h : sendStep s = .next t) : SameBuffer s t := by
  rcases sendStep_next h with ⟨-, rfl⟩ | ⟨_, -, -, ⟨-, rfl⟩ | ⟨-, rfl⟩⟩ <;> exact ⟨rfl, rfl⟩

theorem addrStep_sameBuffer {s t : State} (h : addrStep s = .next t) : SameBuffer s t := by
  obtain ⟨_, -, rfl⟩ := addrStep_next h
  exact ⟨rfl, rfl⟩

theorem receiveStep_sameBuffer {s t : State} (h : receiveStep s = .next t) : SameBuffer s t := by
  obtain ⟨_, rx, -, -, ⟨-, rfl⟩ | ⟨-, rfl⟩ | ⟨-, -, ⟨-, rfl⟩ | rfl⟩⟩ := receiveStep_next h
  · exact ⟨rfl, rfl⟩
  · exact ⟨rfl, rfl⟩
  · have hstore : SameBuffer s (storePacket rx s) := ⟨rfl, rfl⟩
    exact hstore.trans (receiveComplete_sameBuffer _)
  · exact ⟨rfl, rfl⟩

/-- Of the feature reports the exit report alone touches the page buffer: it clears it (42_hid_feature_reports.md R197,
43_flash_engine.md R241). -/
theorem reportStep_buffer {s t : State} (h : reportStep s = .next t) :
    t = exitReport s ∨ SameBuffer s t := by
  obtain ⟨_, -, ⟨-, rfl⟩ | ⟨-, hfl⟩ | ⟨-, -, rfl⟩⟩ := reportStep_next h
  · exact .inl rfl
  · obtain ⟨_, _, -, -, rfl⟩ := flashReport_next hfl
    exact .inr ⟨rfl, rfl⟩
  · exact .inr (otherReport_sameBuffer s)

theorem flWordStep_buffer {s t : State} (h : flWordStep s = .next t) :
    SameBuffer s t ∨ ∃ a w, SameBuffer (fill a w s) t := by
  obtain ⟨f, -, ⟨-, rfl⟩ | ⟨-, w, -, rfl⟩⟩ := flWordStep_next h
  · exact .inl (chunkDone_sameBuffer s)
  · exact (writeWord_buffer f w s).imp id fun hw => ⟨f.addr, w, hw⟩

theorem flEraseStep_buffer {s t : State} (h : flEraseStep s = .next t) : ∃ a w, SameBuffer (fill a w s) t := by
  obtain ⟨f, w, -, -, rfl⟩ := flEraseStep_next h
  exact ⟨f.addr, w, fillAndAdvance_buffer f w s⟩

/-- The engine clears the page buffer in the exit report and stages words at `FL_WORD` and `FL_ERASE_WAIT`
(41_control_transfer.md R138). -/
theorem engineStep_buffer {s t : State} (h : engineStep s = .next t) : BufferStep s t := by
  rcases engineStep_next h with ⟨-, rfl⟩ | ⟨-, h⟩ | ⟨-, h⟩ | ⟨-, h⟩ | ⟨-, h⟩ | ⟨-, h⟩ | ⟨-, h⟩ | ⟨-, h⟩ |
    ⟨-, rfl⟩ | ⟨-, rfl⟩
  · exact .kept ⟨rfl, rfl⟩
  · have haccept : SameBuffer s (acceptSetup s) := ⟨rfl, rfl⟩
    exact .kept (haccept.trans (exec_sameBuffer h))
  · exact .kept (sendStep_sameBuffer h)
  · exact .kept (addrStep_sameBuffer h)
  · exact .kept (receiveStep_sameBuffer h)
  · rcases reportStep_buffer h with rfl | hs
    · exact .cleared ⟨rfl, rfl⟩
    · exact .kept hs
  · rcases flWordStep_buffer h with hs | ⟨a, w, hw⟩
    · exact .kept hs
    · exact .filled a w hw
  · obtain ⟨a, w, hw⟩ := flEraseStep_buffer h
    exact .filled a w hw
  · exact .kept ⟨rfl, rfl⟩
  · exact .kept ⟨rfl, rfl⟩

theorem hostToken_sameBuffer {tok : Token} {s t : State} (h : hostToken tok s = .next t) : SameBuffer s t := by
  rcases hostToken_next h with ⟨_, -, rfl⟩ | ⟨_, _, -, -, -, rfl⟩ | ⟨_, _, -, -, -, -, rfl⟩ | ⟨_, -, -, -, rfl⟩ |
    ⟨-, rfl⟩
  · exact ⟨rfl, rfl⟩
  · exact hostSetup_sameBuffer _ _ s
  · exact hostOut_sameBuffer _ _ s
  · exact hostIn_sameBuffer _ s
  · exact hostBusReset_sameBuffer s

/-- The NVM agent clears the page buffer at the completion of a page write only (43_flash_engine.md R236, R240). -/
theorem nvmStep_buffer {s t : State} (h : nvmStep s = .next t) : BufferStep s t := by
  rcases nvmStep_next h with ⟨-, rfl⟩ | ⟨_, -, -, rfl⟩ | ⟨_, -, -, rfl⟩
  · exact .kept ⟨rfl, rfl⟩
  · exact .kept ⟨rfl, rfl⟩
  · exact .cleared ⟨rfl, rfl⟩

/-- The boot agent clears the page buffer in the device reset after OFF only (70_reset_and_hazards.md R300). -/
theorem bootTurn_buffer {s t : State} (h : bootTurn s = .next t) : BufferStep s t := by
  rcases bootTurn_next h with rfl | ⟨he, rfl⟩
  · exact .kept ⟨rfl, rfl⟩
  · rcases bootStep_cases he with ⟨-, hb⟩ | ⟨-, -, -, hb⟩ | ⟨-, -, hb⟩ <;> rw [hb]
    · exact .kept (bootCapture_sameBuffer s)
    · exact .kept (tick_sameBuffer s)
    · exact .cleared ⟨rfl, rfl⟩

theorem runMove_buffer {m : Move} {s t : State} (h : runMove m s = .next t) : BufferStep s t := by
  cases m with
  | host tok => exact .kept (hostToken_sameBuffer h)
  | physReset c =>
    rw [← next_inj.1 h]
    exact .cleared ⟨rfl, rfl⟩
  | nvm => exact nvmStep_buffer h
  | busHandler => rcases busHandlerTurn_next h with rfl | ⟨-, rfl⟩ <;> exact .kept ⟨rfl, rfl⟩
  | engine =>
    rcases engineTurn_next h with rfl | ⟨-, h⟩
    · exact .kept ⟨rfl, rfl⟩
    · exact engineStep_buffer h
  | boot => exact bootTurn_buffer h

/-! ### The canonical form -/

/-- Staging a word is two byte writes, each of which keeps the canonical form; the cleared buffer lists nothing. -/
theorem BufferStep.wf {s t : State} (h : BufferStep s t) (hw : s.pbData.wf = true) : t.pbData.wf = true := by
  cases h with
  | kept h => rw [h.data]; exact hw
  | cleared h => rw [h.data]; exact Memory.wf_nil
  | filled a w h =>
    rw [h.data, fill_pbData]
    exact Memory.wf_write (Memory.wf_write hw _ _) _ _

/-- The NVM agent erases or writes one page of FLASH (43_flash_engine.md R236, R240). -/
theorem wf_flash_nvmStep {s t : State} (hw : s.flash.wf = true) (h : nvmStep s = .next t) : t.flash.wf = true := by
  rcases nvmStep_next h with ⟨-, rfl⟩ | ⟨_, -, -, rfl⟩ | ⟨_, -, -, rfl⟩
  · exact hw
  · exact Memory.wf_eraseRange hw _ _
  · exact Memory.wf_writeRange hw _ _ _

/-- FLASH stays canonical over every move: the NVM agent and a device reset write it by the memory's own operations, and no
other agent writes it (10_state.md R30, 70_reset_and_hazards.md R300). -/
theorem wf_flash_runMove {m : Move} {s t : State} (hw : s.flash.wf = true) (h : runMove m s = .next t) :
    t.flash.wf = true := by
  cases m with
  | host tok => rw [(hostToken_sameStores h).flash]; exact hw
  | physReset c =>
    rw [← next_inj.1 h]
    exact wf_flashOverReset hw _
  | nvm => exact wf_flash_nvmStep hw h
  | busHandler => rw [busHandlerTurn_flash h]; exact hw
  | engine => rw [engineTurn_flash h]; exact hw
  | boot =>
    rcases bootTurn_stores h with hs | ⟨-, u, hu, rfl⟩ | ⟨-, -, rfl⟩
    · rw [hs.flash]; exact hw
    · rw [usbInit_flash, hu]; exact hw
    · exact wf_flashOverReset hw _

/-- Settles O57: a step is one move made after the script is advanced; every move keeps FLASH canonical, and keeps, clears
or fills the page buffer. -/
theorem memoriesStayCanonical : Obligations.MemoriesStayCanonical := by
  intro s t hf hb h
  obtain ⟨-, m, -, hm⟩ := step_next h
  exact ⟨wf_flash_runMove (s := { s with script := s.script.tail }) hf hm, (runMove_buffer hm).wf hb⟩

end Sys2Proof.Machine
end

section
/-! SUPPORT. The decoder and the encoder of SETUP packets (30_encoding.md R80 to R88): they are inverse to each other on
well-formed requests, a packet and its SETUP word are one thing, and the decoder is the opcode table read in its order. -/

namespace Sys2Proof

/-! ### The packets a row keeps from an earlier one -/

/-- GET_DESCRIPTOR.OTHER keeps the wValues that none of rows 1 to 4 takes. -/
theorem wf_getDescriptorOther_iff (rt : Byte) (val idx len : Word16) :
    (Instr.getDescriptorOther rt val idx len).wf = true ↔
      ¬(hi8 val = 0x01 ∧ lo8 val = 0x00) ∧ ¬(hi8 val = 0x02 ∧ lo8 val = 0x00) ∧
        ¬(hi8 val = 0x22 ∧ lo8 val = 0x00) ∧ hi8 val ≠ 0x03 := by
  have key (a b : Byte) : val = le16 a b ↔ hi8 val = b ∧ lo8 val = a := by
    rw [eq_comm, le16_eq_iff, eq_comm, and_comm, eq_comm (a := b)]
  simp only [Instr.wf, servedKey, ← le16_device, ← le16_configuration, ← le16_hidReport, Bool.not_eq_true',
    Bool.or_eq_false_iff, beq_eq_false_iff_ne, ne_eq, key, hi8_eq_iff val 0x03, and_assoc]
  rfl

/-- HID_SET_REPORT.OTHER keeps the wValues that neither row 10 nor row 11 takes. -/
theorem wf_hidSetReportOther_iff (val idx len : Word16) :
    (Instr.hidSetReportOther val idx len).wf = true ↔ lo8 val ≠ 0x01 ∧ lo8 val ≠ 0x02 := by
  simp [Instr.wf, lo8_eq_iff]

/-- UNSUPPORTED keeps the packets that none of rows 5 to 9, 12 and 13 takes: rows 1 to 4 lie within row 5, rows 10 and 11
within row 12. -/
theorem wf_unsupported_iff (rt rq : Byte) (val idx len : Word16) :
    (Instr.unsupported rt rq val idx len).wf = true ↔
      rq ≠ 0x06 ∧ rq ≠ 0x05 ∧ ¬(rt = 0x00 ∧ rq = 0x09) ∧ ¬(rt = 0x80 ∧ rq = 0x08) ∧ ¬(rt = 0x21 ∧ rq = 0x0A) ∧
        ¬(rt = 0x21 ∧ rq = 0x09) ∧ ¬(rt = 0xA1 ∧ rq = 0x01 ∧ lo8 val = 0x01) := by
  simp only [Instr.wf, servedPair, servedInfo, lo8_eq_iff, Bool.not_eq_true', ← Bool.not_eq_true, Bool.or_eq_true,
    Bool.and_eq_true, beq_iff_eq, ne_eq, not_or, and_assoc]
  rfl

/-! ### Decode and encode -/

/-- Each row's condition fixes exactly the bytes that its constructor leaves out. -/
theorem request_decodeSetup (p : SetupPacket) : (decodeSetup p).request = requestOf p := by
  fun_cases decodeSetup p <;> simp +zetaDelta [requestOf, Instr.request, le16, *]

theorem encode_decodeSetup (p : SetupPacket) : encode (decodeSetup p) = p := by
  rw [encode, request_decodeSetup, packetOf_requestOf]

/-- Only rows 5, 12 and 14 ask anything of their operands: that the rows before them did not match. -/
theorem wf_decodeSetup (p : SetupPacket) : (decodeSetup p).wf = true := by
  fun_cases decodeSetup p
  case case5 => simp_all +zetaDelta [wf_getDescriptorOther_iff]
  case case12 => simp_all +zetaDelta [wf_hidSetReportOther_iff]
  case case14 => simp_all +zetaDelta [wf_unsupported_iff]
  all_goals rfl

/-- Settles O1: the packet of a well-formed request fails the condition of every row before its own; in rows 5, 12 and 14
that is what well-formedness says of the operands. -/
theorem decodeOfEncodeIsTheInstruction : Obligations.DecodeOfEncodeIsTheInstruction := by
  intro i h
  cases i with
  | getDescriptorDevice | getDescriptorConfiguration | getDescriptorHidReport =>
    simp only [encode, Instr.request, packetOf, ← le16_device, ← le16_configuration, ← le16_hidReport, lo8_le16,
      hi8_le16]
    simp [decodeSetup]
  | getDescriptorOther rt val idx len =>
    obtain ⟨hdev, hcfg, hrpt, hstr⟩ := (wf_getDescriptorOther_iff ..).1 h
    simp only [encode, Instr.request, packetOf, decodeSetup, le16_lo8_hi8, true_and, hdev, hcfg, hrpt, hstr, if_false,
      if_true]
  | hidSetReportOther val idx len =>
    obtain ⟨hexit, hflash⟩ := (wf_hidSetReportOther_iff ..).1 h
    simp_all [encode, Instr.request, packetOf, decodeSetup]
  | unsupported rt rq val idx len =>
    obtain ⟨hdesc, haddr, hset, hget, hidle, hrpt, hinfo⟩ := (wf_unsupported_iff ..).1 h
    have hid (c : Byte) : ¬(rt = 0x21 ∧ rq = 0x09 ∧ lo8 val = c) := fun ⟨h0, h1, _⟩ => hrpt ⟨h0, h1⟩
    simp only [encode, Instr.request, packetOf, decodeSetup, le16_lo8_hi8, hdesc, haddr, hset, hget, hidle, hrpt, hinfo,
      hid, false_and, if_false]
  | _ => simp [encode, Instr.request, packetOf, decodeSetup]

/-! ### The packet and its SETUP word -/

theorem setup64_lt (p : SetupPacket) : setup64 p < 2 ^ 64 := by
  unfold setup64
  omega

@[simp] theorem packetOfWord_setup64 (p : SetupPacket) : packetOfWord (setup64 p) = p := by
  cases p
  simp only [packetOfWord, SetupPacket.mk.injEq]
  refine ⟨?_, ?_, ?_, ?_, ?_, ?_, ?_, ?_⟩ <;>
    (apply BitVec.eq_of_toNat_eq; simp only [byteOf, setup64, BitVec.toNat_ofNat]; omega)

theorem setup64_packetOfWord {w : Nat} (h : w < 2 ^ 64) : setup64 (packetOfWord w) = w := by
  simp only [packetOfWord, byteOf, setup64, BitVec.toNat_ofNat]
  omega

/-! ### Bytes -/

@[simp] theorem decode_bytes (p : SetupPacket) : decode p.bytes = .ok (decodeSetup p) := rfl

theorem exists_bytes_eq {l : List Byte} (h : l.length = 8) : ∃ p : SetupPacket, p.bytes = l := by
  match l, h with
  | [b0, b1, b2, b3, b4, b5, b6, b7], _ => exact ⟨⟨b0, b1, b2, b3, b4, b5, b6, b7⟩, rfl⟩

theorem decode_of_length_ne {l : List Byte} (h : l.length ≠ 8) : decode l = .error (.notEightBytes l.length) := by
  fun_cases decode l
  · exact absurd rfl h
  · rfl

/-- Settles O2: the decoder keeps all five fields of the request, the SETUP word all 8 bytes. -/
theorem encodeOfDecodeIsThePacket : Obligations.EncodeOfDecodeIsThePacket := by
  refine ⟨fun p => ⟨encode_decodeSetup p, wf_decodeSetup p, setup64_lt p, packetOfWord_setup64 p⟩,
    fun w => setup64_packetOfWord, fun l => ⟨fun h => ?_, decode_of_length_ne⟩⟩
  obtain ⟨p, rfl⟩ := exists_bytes_eq h
  exact ⟨p, rfl, decode_bytes p⟩

/-! ### The opcode table -/

/-- A mask acts on each byte by itself. -/
theorem byteOf_and (w m k : Nat) : byteOf (w &&& m) k = byteOf w k &&& byteOf m k := by
  have e : 256 ^ k = 2 ^ (8 * k) := by rw [Nat.pow_mul]
  simp only [byteOf, e, ← Nat.shiftRight_eq_div_pow, Nat.shiftRight_and_distrib, BitVec.ofNat_and]

theorem packetOfWord_setup64_and (p : SetupPacket) (m : Nat) : packetOfWord (setup64 p &&& m) =
    ⟨p.b0 &&& byteOf m 0, p.b1 &&& byteOf m 1, p.b2 &&& byteOf m 2, p.b3 &&& byteOf m 3,
     p.b4 &&& byteOf m 4, p.b5 &&& byteOf m 5, p.b6 &&& byteOf m 6, p.b7 &&& byteOf m 7⟩ := by
  have h := packetOfWord_setup64 p
  rw [packetOfWord] at h
  conv_rhs => rw [← h]
  simp only [packetOfWord, byteOf_and]

/-- The test of a row, byte by byte. -/
theorem matches_setup64_iff {r : OpcodeRow} (hm : r.mask < 2 ^ 64) (hp : r.pattern < 2 ^ 64) (p : SetupPacket) :
    r.matches (setup64 p) = true ↔ packetOfWord (setup64 p &&& r.mask) = packetOfWord r.pattern := by
  have hw : setup64 p &&& r.mask < 2 ^ 64 := Nat.and_lt_two_pow _ hm
  rw [OpcodeRow.matches, beq_iff_eq]
  refine ⟨congrArg packetOfWord, fun h => ?_⟩
  rw [← setup64_packetOfWord hw, h, setup64_packetOfWord hp]

theorem opcodeRows_lt : ∀ r ∈ opcodeRows, r.mask < 2 ^ 64 ∧ r.pattern < 2 ^ 64 := by decide

/-- The mask tests of the table's rows are the conditions of the dispatch map (R86), row by row. -/
theorem map_matches_opcodeRows (p : SetupPacket) :
    opcodeRows.map (·.matches (setup64 p)) =
      [decide (p.b1 = 0x06 ∧ p.b3 = 0x01 ∧ p.b2 = 0x00),
       decide (p.b1 = 0x06 ∧ p.b3 = 0x02 ∧ p.b2 = 0x00),
       decide (p.b1 = 0x06 ∧ p.b3 = 0x22 ∧ p.b2 = 0x00),
       decide (p.b1 = 0x06 ∧ p.b3 = 0x03),
       decide (p.b1 = 0x06),
       decide (p.b1 = 0x05),
       decide (p.b0 = 0x00 ∧ p.b1 = 0x09),
       decide (p.b0 = 0x80 ∧ p.b1 = 0x08),
       decide (p.b0 = 0x21 ∧ p.b1 = 0x0A),
       decide (p.b0 = 0x21 ∧ p.b1 = 0x09 ∧ p.b2 = 0x01),
       decide (p.b0 = 0x21 ∧ p.b1 = 0x09 ∧ p.b2 = 0x02),
       decide (p.b0 = 0x21 ∧ p.b1 = 0x09),
       decide (p.b0 = 0xA1 ∧ p.b1 = 0x01 ∧ p.b2 = 0x01),
       true] := by
  have full (b : Byte) : b &&& 255#8 = b := BitVec.and_allOnes
  have tests : opcodeRows.map (·.matches (setup64 p)) =
      opcodeRows.map (fun r => decide (packetOfWord (setup64 p &&& r.mask) = packetOfWord r.pattern)) :=
    List.map_congr_left fun r hr => by
      obtain ⟨hm, hp⟩ := opcodeRows_lt r hr
      rw [Bool.eq_iff_iff, matches_setup64_iff hm hp, decide_eq_true_iff]
  rw [tests]
  simp only [packetOfWord_setup64_and]
  simp [opcodeRows, packetOfWord, byteOf, full, Bool.and_comm]

theorem row_decodeSetup (p : SetupPacket) :
    (decodeSetup p).row = (opcodeRows.map (·.matches (setup64 p))).findIdx id := by
  rw [map_matches_opcodeRows]
  fun_cases decodeSetup p <;>
    simp_all only [List.findIdx_cons, Instr.row, id, decide_false, decide_true, cond_false, cond_true, true_and,
      false_and]

/-- Where two rows match one word, their patterns agree on the bits that both masks test. -/
theorem patterns_agree_of_matches {r q : OpcodeRow} {w : Nat} (hr : r.matches w = true) (hq : q.matches w = true) :
    r.pattern &&& q.mask = q.pattern &&& r.mask := by
  rw [OpcodeRow.matches, beq_iff_eq] at hr hq
  rw [← hr, ← hq, Nat.and_assoc, Nat.and_assoc, Nat.and_comm q.mask]

/-- The pairs of rows of the table whose patterns agree. -/
theorem opcodeRows_overlap : ∀ i j : Fin opcodeRows.length, i < j →
    opcodeRows[i].pattern &&& opcodeRows[j].mask = opcodeRows[j].pattern &&& opcodeRows[i].mask →
    j.val ≤ 4 ∨ (9 ≤ i.val ∧ j.val ≤ 11) ∨ j.val = 13 := by decide

/-- Settles O3: the row is the first whose test holds; the tests read bytes 0 to 3 only; and rows whose patterns disagree on
a bit that both test match no common word. -/
theorem decoderTakesTheFirstMatchingRow : Obligations.DecoderTakesTheFirstMatchingRow := by
  refine ⟨fun p => ?_, fun p b4 b5 b6 b7 => ?_, fun w i j ri rj hij hi hj hri hrj => ?_⟩
  · rw [row_decodeSetup, List.findIdx_map]
    rfl
  · simp only [row_decodeSetup, map_matches_opcodeRows]
  · obtain ⟨hilt, rfl⟩ := List.getElem?_eq_some_iff.1 hi
    obtain ⟨hjlt, rfl⟩ := List.getElem?_eq_some_iff.1 hj
    exact opcodeRows_overlap ⟨i, hilt⟩ ⟨j, hjlt⟩ hij (patterns_agree_of_matches hri hrj)

/-- Settles O4: the decoder evaluates each of the seven packets to its request. -/
theorem samplePacketsDecode : Obligations.SamplePacketsDecode := by
  unfold Obligations.SamplePacketsDecode
  decide

end Sys2Proof
end

section
/-! SUPPORT. The descriptor server (40_descriptor_server.md): which blob the lookup serves, how each blob is framed, and what
the GET_DESCRIPTOR rows do with it. -/

namespace Sys2Proof.Machine

/-! ### Little-endian bytes of a number -/

theorem toNat_byteOf (w k : Nat) : (byteOf w k).toNat = w / 256 ^ k % 256 := by
  rw [byteOf, BitVec.toNat_ofNat]

/-- A number below 2^16 is the LE16 of its bytes 0 and 1. -/
theorem toNat_le16_byteOf {w : Nat} (h : w < 65536) : (le16 (byteOf w 0) (byteOf w 1)).toNat = w := by
  simp only [le16, BitVec.toNat_ofNat, toNat_byteOf]
  omega

/-! ### The lookup (R100) -/

/-- A key that the lookup serves is one of the three fixed ones, or a string's. -/
theorem lookup_eq_some {p : Params} {type index : Byte} {d : List Byte} (h : lookup p type index = some d) :
    d = deviceDesc p ∨ d = configDesc p ∨ d = p.hidReportDesc ∨ stringDesc p index = some d := by
  unfold lookup at h
  split_ifs at h
  · exact .inl (Option.some.inj h).symm
  · exact .inr (.inl (Option.some.inj h).symm)
  · exact .inr (.inr (.inl (Option.some.inj h).symm))
  · exact .inr (.inr (.inr h))

theorem lookup_eq_none {p : Params} {type index : Byte} (hs : type ≠ 0x03)
    (hf : ¬(index = 0x00 ∧ (type = 0x01 ∨ type = 0x02 ∨ type = 0x22))) : lookup p type index = none := by
  unfold lookup
  rw [if_neg fun ⟨ht, hi⟩ => hf ⟨hi, .inl ht⟩, if_neg fun ⟨ht, hi⟩ => hf ⟨hi, .inr (.inl ht)⟩,
    if_neg fun ⟨ht, hi⟩ => hf ⟨hi, .inr (.inr ht)⟩, if_neg hs]

/-- Settles O11: each served key takes its own branch of the lookup, every other key the last one. -/
theorem lookupServesExactlyItsTable : Obligations.LookupServesExactlyItsTable :=
  fun _ _ _ => ⟨rfl, rfl, rfl, rfl, lookup_eq_none⟩

/-! ### The blobs (R101 to R106) -/

theorem length_deviceDesc (p : Params) : (deviceDesc p).length = 18 := rfl

theorem length_configDesc (p : Params) : (configDesc p).length = 34 := rfl

theorem length_stringBlob (units : List Word16) : (stringBlob units).length = 2 + 2 * units.length := by
  rw [stringBlob, List.length_append, length_wordBytes]
  rfl

/-- A string that the table has is the blob of the text of one of its entries. -/
theorem stringDesc_eq_some {p : Params} {i : Byte} {d : List Byte} (h : stringDesc p i = some d) :
    ∃ e ∈ p.strings, e.1 = i ∧ stringBlob e.2 = d := by
  obtain ⟨e, he, hd⟩ := Option.map_eq_some_iff.1 h
  exact ⟨e, List.mem_of_find?_eq_some he, by simpa using List.find?_some he, hd⟩

/-- A string descriptor starts with its own length, which fits one byte since R105 bounds the text, and with its type. -/
theorem stringDesc_frame {p : Params} (hp : p.wf = true) {i : Byte} {d : List Byte} (h : stringDesc p i = some d) :
    d[0]? = some (BitVec.ofNat 8 d.length) ∧ d[1]? = some 3 ∧ d.length % 2 = 0 ∧ d.length ≤ 254 := by
  obtain ⟨e, he, -, rfl⟩ := stringDesc_eq_some h
  have hk : e.2.length ≤ 126 := (Params.wf_descriptors hp).2 e he
  rw [length_stringBlob]
  exact ⟨rfl, rfl, by omega, by omega⟩

theorem length_lookup_le {p : Params} (hp : p.wf = true) {type index : Byte} {d : List Byte}
    (h : lookup p type index = some d) : d.length ≤ 255 := by
  obtain rfl | rfl | rfl | hs := lookup_eq_some h
  · rw [length_deviceDesc]; omega
  · rw [length_configDesc]; omega
  · exact (Params.wf_descriptors hp).1
  · obtain ⟨-, -, -, hle⟩ := stringDesc_frame hp hs
    omega

/-- wDescriptorLength is the length of the HID report descriptor (R103), since that fits 16 bits. -/
theorem configDesc_wDescriptorLength {p : Params} (hp : p.wf = true) :
    ∃ lo hi, (configDesc p)[25]? = some lo ∧ (configDesc p)[26]? = some hi ∧
      (le16 lo hi).toNat = p.hidReportDesc.length := by
  have hl : p.hidReportDesc.length ≤ 255 := (Params.wf_descriptors hp).1
  exact ⟨_, _, rfl, rfl, toNat_le16_byteOf (by omega)⟩

/-- Settles O12: the sizes come from the lookup's table and the framing of strings; the other bytes are fixed by R102 and
R103, whatever the parameters are. -/
theorem descriptorsAreFramedAndFit : Obligations.DescriptorsAreFramedAndFit := fun p hp =>
  ⟨fun _ _ _ => length_lookup_le hp,
    length_deviceDesc p, rfl, rfl, rfl,
    fun _ _ => stringDesc_frame hp,
    length_configDesc p, rfl, rfl, rfl, rfl, rfl, rfl, rfl, rfl,
    ⟨_, _, rfl, rfl, rfl⟩,
    configDesc_wDescriptorLength hp⟩

theorem pageSize_lt {p : Params} (hp : p.wf = true) : p.pageSize < 65536 := by
  obtain ⟨k, hk, he⟩ := Params.wf_pageSize hp
  rw [he]
  exact Nat.pow_lt_pow_right (m := k + 1) (n := 16) (by decide) (by omega)

/-- Settles O13: the page size fits two bytes and the flash size four. -/
theorem infoReportHoldsTheSizes : Obligations.InfoReportHoldsTheSizes := by
  intro p hp
  have hpage : p.pageSize < 65536 := pageSize_lt hp
  obtain ⟨-, hflash, -⟩ := Params.wf_numbers hp
  refine ⟨_, _, _, _, _, _, rfl, ?_, ?_⟩
  · simp only [toNat_byteOf]; omega
  · simp only [toNat_byteOf]; omega

/-! ### The GET_DESCRIPTOR rows (R107 to R112) -/

/-- A row whose segment is `send` of a clamped blob holds its first min(wLength, |d|, 255) bytes for the IN data phase. -/
theorem exec_send_clamp {i : Instr} {s : State} {len : Word16} {d : List Byte}
    (h : exec i s = .next (send (clamp len d) s)) :
    ∃ t, exec i s = .next t ∧ t.fsm = some .sendWait ∧ t.ep0Stall = s.ep0Stall ∧
      t.tx = some ⟨d.take (min len.toNat (min d.length 255)), 0, min len.toNat (min d.length 255), 0⟩ :=
  ⟨_, h, send_fsm .., send_ep0Stall .., by rw [send_tx, length_clamp]; rfl⟩

/-- A stall sets the stall bit, ends the request and writes nothing else (41_control_transfer.md R147; log 8). -/
theorem stall_eq_idled (s : State) : stall s = { s.idled with ep0Stall := true } := rfl

theorem exec_getDescriptorDevice (rt : Byte) (idx len : Word16) (s : State) :
    exec (.getDescriptorDevice rt idx len) s = .next (send (clamp len (deviceDesc s.par)) s) :=
  congrArg Host.Outcome.next (getDescriptor_device len s)

theorem exec_getDescriptorConfiguration (rt : Byte) (idx len : Word16) (s : State) :
    exec (.getDescriptorConfiguration rt idx len) s = .next (send (clamp len (configDesc s.par)) s) :=
  congrArg Host.Outcome.next (getDescriptor_configuration len s)

theorem exec_getDescriptorHidReport (rt : Byte) (idx len : Word16) (s : State) :
    exec (.getDescriptorHidReport rt idx len) s = .next (send (clamp len s.par.hidReportDesc) s) :=
  congrArg Host.Outcome.next (getDescriptor_hidReport len s)

theorem exec_getDescriptorString_of_some {s : State} {ix : Byte} {d : List Byte} (h : stringDesc s.par ix = some d)
    (rt : Byte) (idx len : Word16) :
    exec (.getDescriptorString rt ix idx len) s = .next (send (clamp len d) s) := by
  refine congrArg Host.Outcome.next ?_
  rw [getDescriptor_string, h]

theorem exec_getDescriptorString_of_none {s : State} {ix : Byte} (h : stringDesc s.par ix = none)
    (rt : Byte) (idx len : Word16) : exec (.getDescriptorString rt ix idx len) s = .next (stall s) := by
  refine congrArg Host.Outcome.next ?_
  rw [getDescriptor_string, h]

/-- Settles O8: rows 1 to 3 always find their blob and send it clamped. -/
theorem descriptorReadsStartASend : Obligations.DescriptorReadsStartASend := by
  rintro s rt idx len i d (⟨rfl, rfl⟩ | ⟨rfl, rfl⟩ | ⟨rfl, rfl⟩)
  · exact exec_send_clamp (exec_getDescriptorDevice rt idx len s)
  · exact exec_send_clamp (exec_getDescriptorConfiguration rt idx len s)
  · exact exec_send_clamp (exec_getDescriptorHidReport rt idx len s)

/-- Settles O9: row 4 sends the string that the table has, and stalls without one. -/
theorem stringReadSendsOrStalls : Obligations.StringReadSendsOrStalls := fun s rt _ idx len =>
  ⟨fun _ h => exec_send_clamp (exec_getDescriptorString_of_some h rt idx len),
    fun h => (exec_getDescriptorString_of_none h rt idx len).trans (congrArg Host.Outcome.next (stall_eq_idled s))⟩

/-- Settles O10: the segment of rows 5 and 14 is `stall`. -/
theorem catchAllRowsOnlyStall : Obligations.CatchAllRowsOnlyStall := fun s _ _ _ _ _ =>
  ⟨congrArg Host.Outcome.next (stall_eq_idled s), congrArg Host.Outcome.next (stall_eq_idled s)⟩

end Sys2Proof.Machine
end

section
/-! SUPPORT. The peripheral's answer to each token of the host (41_control_transfer.md §1, R153): one equation per token and
per condition that selects its answer, and the step that makes the scripted token. -/

namespace Sys2Proof.Machine

/-- A scripted token is answered on the state with the move used up. -/
theorem step_hostToken {s : State} {tok : Token} {rest : List Move} (hf : s.faults = [])
    (hs : s.script = .host tok :: rest) : step s = hostToken tok { s with script := rest } :=
  step_scripted hf hs

/-- The first fault of a run is its only record (60_exceptions.md R279, R280). -/
theorem raise_of_faults_nil {s : State} (h : s.faults = []) (c : FaultCause) :
    raise c s = { s with faults := [⟨c, s.fsm⟩] } := by
  rw [raise, h, List.nil_append]

/-! ### A token that is not for the block -/

/-- The address filter (R131, D35). -/
theorem forBlock_iff (addr : DevAddr) (s : State) :
    forBlock addr s = true ↔
      s.usbEnabled = true ∧ s.usbAttached = true ∧ (s.addrEn = true → addr = s.devAddr) ∧
        (s.addrEn = false → addr = 0) := by
  cases he : s.addrEn <;> simp [forBlock, he, and_assoc]

theorem hostToken_setup_silent {addr : DevAddr} {b : SetupPacket} {s : State}
    (h : forBlock addr s = false ∨ s.ep0Configured = false) :
    hostToken (.setup addr b) s = .next (answer (.setup addr b) .silent s) := by
  rcases h with h | h <;> simp [hostToken, h]

theorem hostToken_out_silent {addr : DevAddr} {ep : Nat} {b : List Byte} {s : State} (hl : b.length ≤ 64)
    (h : forBlock addr s = false ∨ ep ≠ 0 ∨ s.ep0Configured = false) :
    hostToken (.out addr ep b) s = .next (answer (.out addr ep b) .silent s) := by
  rcases h with h | h | h <;> simp [hostToken, Nat.not_lt.2 hl, h]

theorem hostToken_in_silent {addr : DevAddr} {ep : Nat} {s : State}
    (h : forBlock addr s = false ∨ 2 ≤ ep ∨ (ep = 0 ∧ s.ep0Configured = false)) :
    hostToken (.inp addr ep) s = .next (answer (.inp addr ep) .silent s) := by
  rcases h with h | h | ⟨rfl, h⟩
  · simp [hostToken, h]
  · have h0 : ep ≠ 0 := by omega
    have h1 : ep ≠ 1 := by omega
    simp [hostToken, h0, h1]
  · simp [hostToken, h]

/-- Settles O43: the filter is its definition read out, and each of the three tokens fails the tests of its own arm. -/
theorem foreignTokensChangeNothing : Obligations.ForeignTokensChangeNothing := by
  refine ⟨fun s addr => forBlock_iff addr s, ?_⟩
  rintro s rest tok addr hf hs (⟨b, rfl, h⟩ | ⟨ep, b, rfl, hl, h⟩ | ⟨ep, rfl, h⟩) <;> rw [step_hostToken hf hs]
  · exact hostToken_setup_silent h
  · exact hostToken_out_silent hl h
  · exact hostToken_in_silent h

/-! ### SETUP (R132) -/

theorem hostSetup_of_ready {s : State} (hw : transferWait s.fsm = false) (hs : s.ep0SetupFull = false) (tok : Token)
    (b : SetupPacket) :
    hostSetup tok b s = answer tok .ack { s with ep0SetupBuf := b, ep0SetupFull := true, ep0Stall := false } := by
  simp [hostSetup, hw, hs]

theorem hostSetup_of_busy {s : State} (hf : s.faults = []) (h : transferWait s.fsm = true ∨ s.ep0SetupFull = true)
    (tok : Token) (b : SetupPacket) :
    hostSetup tok b s = { s with faults := [⟨.setupDuringTransfer s.fsm, s.fsm⟩] } :=
  (if_pos h).trans (raise_of_faults_nil hf _)

theorem transferWait_eq_false_iff (f : Option Fsm) :
    transferWait f = false ↔ f ≠ some .sendWait ∧ f ≠ some .addrWait ∧ f ≠ some .recvWait := by
  rw [← Bool.not_eq_true, transferWait_iff, not_or, not_or]

/-- Settles O44: the SETUP passes the filter, and F09 is raised exactly in a transfer wait or with a full bank. -/
theorem setupTokenFillsTheBank : Obligations.SetupTokenFillsTheBank := by
  rintro s rest p ⟨hf, he, ha, hc⟩ hs
  have hstep : step s = .next (hostSetup (.setup s.currentAddr p) p { s with script := rest }) :=
    (step_hostToken hf hs).trans (hostToken_setup (forBlock_currentAddr he ha rest) hc)
  rw [hstep]
  refine ⟨fun hfull h1 h2 h3 => ?_, fun hbusy => ?_⟩
  · have hw := (transferWait_eq_false_iff s.fsm).2 ⟨h1, h2, h3⟩
    exact congrArg _ (hostSetup_of_ready (s := { s with script := rest }) hw hfull _ p)
  · have hb := hbusy.symm.imp (transferWait_iff s.fsm).2 id
    exact congrArg _ (hostSetup_of_busy (s := { s with script := rest }) hf hb _ p)

/-! ### OUT and IN on endpoint 0 (R133, R134), IN on endpoint 1 (R153) -/

/-- Settles O45: the OUT passes the filter, and what it finds is `hostOut`'s own case distinction. -/
theorem outTokenFillsTheBank : Obligations.OutTokenFillsTheBank := by
  rintro s rest b ⟨hf, he, ha, hc⟩ hl hs
  rw [step_hostToken hf hs, hostToken_out hl (forBlock_currentAddr he ha rest) hc]
  rfl

/-- Settles O46: the IN passes the filter, and what it finds is `hostIn`'s own case distinction. -/
theorem inTokenTakesTheArmedPacket : Obligations.InTokenTakesTheArmedPacket := by
  rintro s rest ⟨hf, he, ha, hc⟩ hs
  rw [step_hostToken hf hs, hostToken_in (forBlock_currentAddr he ha rest) hc]
  simp only [hostIn, Bool.not_eq_true']
  rfl

/-- Settles O48: EP1 answers an IN that passes the filter, whatever EP0 is. -/
theorem ep1InIsNakedWhenEnabled : Obligations.Ep1InIsNakedWhenEnabled := by
  intro s rest hf he ha hs
  rw [step_hostToken hf hs, hostToken_ep1 (forBlock_currentAddr he ha rest)]
  rfl

/-! ### The bus reset (R135) -/

theorem hostBusReset_of_off {s : State} (h : s.usbEnabled = false) : hostBusReset s = s := by
  simp [hostBusReset, h]

theorem hostBusReset_of_wait {s : State} (hf : s.faults = []) (h : s.usbEnabled = true)
    (hw : transferWait s.fsm = true) :
    hostBusReset s = { s with faults := [⟨.busResetDuringWait s.fsm, s.fsm⟩] } := by
  simp [hostBusReset, h, hw, raise_of_faults_nil hf]

theorem hostBusReset_of_ready {s : State} (h : s.usbEnabled = true) (hw : transferWait s.fsm = false) :
    hostBusReset s = { s with
      devAddr := 0, addrEn := false, ep0SetupFull := false, ep0OutFull := false, ep0InArmed := false,
      ep0Stall := false, ep0Configured := false, ep1Enabled := false, busresetPending := true } := by
  simp [hostBusReset, h, hw]

/-- Settles O47: the three cases of `hostBusReset`. -/
theorem busResetTokenActsAtOnce : Obligations.BusResetTokenActsAtOnce := by
  intro s rest hf hs
  have hstep : step s = .next (hostBusReset { s with script := rest }) := step_hostToken hf hs
  rw [hstep]
  refine ⟨fun hu => ?_, fun hu hw => ?_, fun hu h1 h2 h3 => ?_⟩
  · exact congrArg _ (hostBusReset_of_off hu)
  · have hw := (transferWait_iff s.fsm).2 hw
    exact congrArg _ (hostBusReset_of_wait (s := { s with script := rest }) hf hu hw)
  · have hw := (transferWait_eq_false_iff s.fsm).2 ⟨h1, h2, h3⟩
    exact congrArg _ (hostBusReset_of_ready (s := { s with script := rest }) hu hw)

end Sys2Proof.Machine
end

section
/-! SUPPORT. SETUP acceptance and the dispatch segments (41_control_transfer.md R139 to R142 and §5): the step that accepts a
packet, and once, for every instruction, what its segment does. -/

namespace Sys2Proof.Machine

/-! ### The segment that the engine's state selects, and when there is none (R138, R139) -/

theorem engineStep_idle {s : State} (h : s.fsm = some .idle) :
    engineStep s = exec (decodeSetup s.ep0SetupBuf) (acceptSetup s) := by
  rw [engineStep, h]
  rfl

theorem engineStep_sendWait {s : State} (h : s.fsm = some .sendWait) : engineStep s = sendStep s := by
  rw [engineStep, h]

theorem engineStep_addrWait {s : State} (h : s.fsm = some .addrWait) : engineStep s = addrStep s := by
  rw [engineStep, h]

/-- A turn of an engine whose wait is not over does nothing. -/
theorem engineTurn_waiting {s : State} (h : fsmEnabled s = false) : engineTurn s = .next s := by
  simp [engineTurn, engineEnabled, h]

/-! ### SETUP acceptance (R140 to R142) -/

/-- An idle engine with a packet to accept is enabled (R139, row IDLE). -/
theorem fsmEnabled_of_setupReady {s : State} (h : s.setupReady) : fsmEnabled s = true := by
  obtain ⟨-, -, hi, hs, hc, hint, hb⟩ := h
  simp [fsmEnabled, hi, hs, hc, hint, hb]

/-- A scripted turn of the engine accepts the packet. -/
theorem step_accept_scripted {s : State} {rest : List Move} (h : s.setupReady) (hs : s.script = .engine :: rest) :
    step s = exec (decodeSetup s.ep0SetupBuf) (acceptSetup { s with script := rest }) := by
  have he : fsmEnabled { s with script := rest } = true := fsmEnabled_of_setupReady h
  obtain ⟨hf, hp, hi, -⟩ := h
  calc step s
    _ = engineTurn { s with script := rest } := step_scripted hf hs
    _ = engineStep { s with script := rest } := engineTurn_enabled hf hp he
    _ = _ := engineStep_idle hi

/-- With nothing scripted, the engine accepts the packet if neither the NVM agent nor the bus-reset handler has a step. -/
theorem step_accept_unscripted {s : State} (h : s.setupReady) (hs : s.script = []) (hn : s.nvmOp = .idle) :
    step s = exec (decodeSetup s.ep0SetupBuf) (acceptSetup s) := by
  have he := fsmEnabled_of_setupReady h
  obtain ⟨hf, hp, hi, -, -, -, hb⟩ := h
  have hbus : busHandlerEnabled s = false := by simp [busHandlerEnabled, hb]
  rw [step_unscripted hf hs, idleTurn_engine hn hbus (engineEnabled_iff.2 ⟨hp, hf, he⟩), engineStep_idle hi]

/-- Settles O5: both turns run the segment of `IDLE`, which is `exec` of the decoded packet on the accepted state. -/
theorem stepRunsTheDecodedInstruction : Obligations.StepRunsTheDecodedInstruction := by
  rintro s rest h (hs | ⟨hs, rfl, hn⟩)
  · exact step_accept_scripted h hs
  · rw [step_accept_unscripted h hs hn, ← hs]
    rfl

theorem decodeTableWord_eq (nbits w : Nat) :
    decodeTableWord nbits w = some (decodeSetup (packetOfWord (w % 2 ^ nbits))) := by
  rw [decodeTableWord, decode_bytes]

/-- Settles O6: the placed packet is accepted by the scripted turn of the engine in front of it. -/
theorem placedWordIsTheNextInstruction : Obligations.PlacedWordIsTheNextInstruction := by
  intro s nbits w
  have hr : (s.withFetchWord nbits w).setupReady := ⟨rfl, rfl, rfl, rfl, rfl, rfl, rfl⟩
  exact ⟨_, decodeTableWord_eq nbits w, step_accept_scripted hr rfl⟩

/-! ### What a dispatch segment does (R142) -/

/-- What the dispatch segment of `i` makes of `s`, with the rows of the dispatch map that can do so
(30_encoding.md R86): `exec_next` with the rows named, which a frame by rows needs. -/
inductive DispatchStep (i : Instr) (s : State) : State → Prop
  /-- row 4 without its string, rows 5 and 14 (R147) -/
  | stalled (h : i.row = 3 ∨ i.row = 4 ∨ i.row = 13) : DispatchStep i s (stall s)
  /-- a control read: rows 1 to 4, 8 and 13 (R143) -/
  | sends (d : List Byte) (h : i.row ≤ 3 ∨ i.row = 7 ∨ i.row = 12) : DispatchStep i s (send d s)
  /-- row 6 (R149) -/
  | addressed (rt : Byte) (v x l : Word16) (h : i = .setAddress rt v x l) :
    DispatchStep i s (goto .addrWait (ack { s with newAddr := some (BitVec.ofNat 7 v.toNat) }))
  /-- row 7 (R150) -/
  | configured (v x l : Word16) (h : i = .setConfiguration v x l) :
    DispatchStep i s (toIdle { ack s with usbConfiguration := lo8 v, ep1Enabled := lo8 v != 0 })
  /-- row 9 (42_hid_feature_reports.md R190) -/
  | acknowledged (h : i.row = 8) : DispatchStep i s (toIdle (ack s))
  /-- a SET_REPORT, its OUT data phase begun or, without data, at its end (42_hid_feature_reports.md R192) -/
  | receives (f : Fsm) (h : i.row = 9 ∨ i.row = 10 ∨ i.row = 11) (hf : f ≠ .idle) :
    DispatchStep i s (goto f { s with rxCnt := some 0 })
  /-- a SET_REPORT without data that is acknowledged first (42_hid_feature_reports.md R194) -/
  | received (h : i.row = 9 ∨ i.row = 10 ∨ i.row = 11) :
    DispatchStep i s (goto .srDone (ack { s with rxCnt := some 0 }))

theorem DispatchStep.of_setReportBegin {i : Instr} (h : i.row = 9 ∨ i.row = 10 ∨ i.row = 11) (len : Word16) (s : State) :
    DispatchStep i s (setReportBegin len s) := by
  rcases setReportBegin_cases len s with he | he | he <;> rw [he]
  · exact .received h
  · exact .receives .srDone h nofun
  · exact .receives .recvWait h nofun

/-- Every instruction's dispatch segment answers a next state from every state. -/
theorem exec_dispatchStep (i : Instr) (s : State) : ∃ t, exec i s = .next t ∧ DispatchStep i s t := by
  cases i with
  | getDescriptorDevice rt idx len => exact ⟨_, exec_getDescriptorDevice rt idx len s, .sends _ (by simp [Instr.row])⟩
  | getDescriptorConfiguration rt idx len =>
    exact ⟨_, exec_getDescriptorConfiguration rt idx len s, .sends _ (by simp [Instr.row])⟩
  | getDescriptorHidReport rt idx len =>
    exact ⟨_, exec_getDescriptorHidReport rt idx len s, .sends _ (by simp [Instr.row])⟩
  | getDescriptorString rt ix idx len =>
    cases hd : stringDesc s.par ix with
    | none => exact ⟨_, exec_getDescriptorString_of_none hd rt idx len, .stalled (.inl rfl)⟩
    | some d => exact ⟨_, exec_getDescriptorString_of_some hd rt idx len, .sends _ (.inl (Nat.le_refl 3))⟩
  | getDescriptorOther => exact ⟨_, rfl, .stalled (.inr (.inl rfl))⟩
  | setAddress rt v x l => exact ⟨_, rfl, .addressed rt v x l rfl⟩
  | setConfiguration v x l => exact ⟨_, rfl, .configured v x l rfl⟩
  | getConfiguration => exact ⟨_, rfl, .sends _ (.inr (.inl rfl))⟩
  | hidSetIdle => exact ⟨_, rfl, .acknowledged rfl⟩
  | hidSetReportExit _ _ len => exact ⟨_, rfl, .of_setReportBegin (.inl rfl) len s⟩
  | hidSetReportFlash _ _ len => exact ⟨_, rfl, .of_setReportBegin (.inr (.inl rfl)) len s⟩
  | hidSetReportOther _ _ len => exact ⟨_, rfl, .of_setReportBegin (.inr (.inr rfl)) len s⟩
  | hidGetReportDeviceInfo => exact ⟨_, rfl, .sends _ (.inr (.inr rfl))⟩
  | unsupported => exact ⟨_, rfl, .stalled (.inr (.inr rfl))⟩

/-! ### What it leaves alone -/

namespace DispatchStep

variable {i : Instr} {s t : State}

/-- No operation of a dispatch segment writes a field of the frame. -/
theorem sameBeyondDispatch (h : DispatchStep i s t) : SameBeyondDispatch s t := by
  cases h <;> constructor <;> intros <;> rfl

theorem configuration (h : DispatchStep i s t) (hi : ∀ v x l, i ≠ .setConfiguration v x l) :
    t.usbConfiguration = s.usbConfiguration ∧ t.ep1Enabled = s.ep1Enabled := by
  cases h with
  | configured v x l h => exact absurd h (hi v x l)
  | _ => exact ⟨rfl, rfl⟩

/-- A segment that comes back to `IDLE` has ended its request (60_exceptions.md R276). -/
theorem noRequest_of_idle (h : DispatchStep i s t) (hf : t.fsm = some .idle) : t.noRequest := by
  cases h with
  | stalled | configured | acknowledged => exact ⟨rfl, rfl, rfl, rfl, rfl⟩
  | sends | addressed | received => exact absurd hf nofun
  | receives f _ hne => exact absurd (Option.some.inj hf) hne

/-- A segment that goes on keeps the registers that are not its row's (R143, R149; 42_hid_feature_reports.md R192). -/
theorem registers_of_not_idle (h : DispatchStep i s t) (hf : t.fsm ≠ some .idle) :
    t.latch = s.latch ∧ t.fl = s.fl ∧
      ((∀ r v x l, i ≠ .setAddress r v x l) → t.newAddr = s.newAddr) ∧
      (i.row ≠ 9 → i.row ≠ 10 → i.row ≠ 11 → t.rxCnt = s.rxCnt) ∧
      (3 < i.row → i.row ≠ 7 → i.row ≠ 12 → t.tx = s.tx) := by
  cases h with
  | stalled | configured | acknowledged => exact absurd rfl hf
  | sends _ hr => exact ⟨rfl, rfl, fun _ => rfl, fun _ _ _ => rfl, fun _ _ _ => by omega⟩
  | addressed rt v x l h => exact ⟨rfl, rfl, fun hi => absurd h (hi rt v x l), fun _ _ _ => rfl, fun _ _ _ => rfl⟩
  | receives _ hr | received hr => exact ⟨rfl, rfl, fun _ => rfl, fun _ _ _ => by omega, fun _ _ _ => rfl⟩

/-- The rows that do not acknowledge leave the IN bank alone. -/
theorem inBank (h : DispatchStep i s t) (hi : i.row ≤ 4 ∨ i.row = 7 ∨ i.row = 12 ∨ i.row = 13) :
    t.ep0InArmed = s.ep0InArmed ∧ t.ep0InBuf = s.ep0InBuf := by
  cases h with
  | stalled | sends => exact ⟨rfl, rfl⟩
  | addressed rt v x l h => subst h; simp [Instr.row] at hi
  | configured v x l h => subst h; simp [Instr.row] at hi
  | acknowledged h | receives _ h | received h => omega

/-- The stall bit is set by a stall, and written by nothing else (R147). -/
theorem stallBit (h : DispatchStep i s t) :
    t.ep0Stall = s.ep0Stall ∨ (t.ep0Stall = true ∧ (i.row = 3 ∨ i.row = 4 ∨ i.row = 13)) := by
  cases h with
  | stalled h => exact .inr ⟨rfl, h⟩
  | _ => exact .inl rfl

theorem stall_kept (h : DispatchStep i s t) (hs : s.ep0Stall = true) : t.ep0Stall = true := by
  rcases h.stallBit with he | ⟨ht, -⟩
  · rw [he, hs]
  · exact ht

end DispatchStep

/-- Settles O7: each conjunct is a case distinction on what the segment does. -/
theorem dispatchLeavesTheRestAlone : Obligations.DispatchLeavesTheRestAlone := by
  intro i s
  obtain ⟨t, he, h⟩ := exec_dispatchStep i s
  exact ⟨t, he, h.sameBeyondDispatch, h.configuration, h.noRequest_of_idle, h.registers_of_not_idle, h.inBank,
    h.stall_kept, fun hne => (h.stallBit.resolve_left hne).2⟩

/-! ### SET_ADDRESS (R149) -/

/-- The zero-length packet is armed if EP0 is configured (R134, R148). -/
theorem ack_ep0InArmed_ite (s : State) :
    (ack s).ep0InArmed = if s.ep0Configured = true then true else s.ep0InArmed := by
  rw [ack_ep0InArmed]
  cases s.ep0Configured <;> simp

/-- The end of SET_ADDRESS (R149). -/
theorem addrStep_of_some {s : State} {a : DevAddr} (h : s.newAddr = some a) :
    addrStep s = .next (toIdle { s with devAddr := a, addrEn := true }) := by
  rw [addrStep, h]

/-- Settles O14: the dispatch segment, the wait for the packet to be taken, and the segment behind it. -/
theorem setAddressWaitsForItsAck : Obligations.SetAddressWaitsForItsAck := by
  intro s rt val idx len
  refine ⟨⟨_, rfl, rfl, ?_, rfl, rfl, ack_ep0InArmed_ite _, rfl⟩, fun hw ha => ?_, fun hw ha hp hf a hn => ?_⟩
  · exact congrArg some (BitVec.eq_of_toNat_eq (by simp))
  · exact engineTurn_waiting (by simp [fsmEnabled, hw, ha])
  · rw [engineTurn_enabled hf hp (by simp [fsmEnabled, hw, ha]), engineStep_addrWait hw, addrStep_of_some hn]
    rfl

/-! ### SET_CONFIGURATION and GET_CONFIGURATION (R150, R151) -/

/-- Settles O15: the segment writes the low byte, and compares it with 0 for EP1. -/
theorem setConfigurationStoresTheByte : Obligations.SetConfigurationStoresTheByte := by
  intro s val idx len
  refine ⟨_, rfl, rfl, toNat_lo8 val, ?_, ack_ep0InArmed_ite s, rfl⟩
  show (lo8 val != 0) = true ↔ _
  rw [bne_iff_ne, Ne, lo8_eq_iff]
  rfl

/-- One byte, or none if the host asks for none (D9). -/
theorem clamp_singleton (len : Word16) (b : Byte) : clamp len [b] = if len = 0 then [] else [b] := by
  split
  · next h => rw [h]; rfl
  · next h =>
    have hpos : 1 ≤ len.toNat := Nat.one_le_iff_ne_zero.2 fun h0 => h (BitVec.eq_of_toNat_eq h0)
    exact List.take_of_length_le (by simpa using hpos)

/-- GET_CONFIGURATION starts an IN data phase of the configuration byte (R151). -/
theorem getConfiguration_tx (s : State) (len : Word16) :
    (send (clamp len [s.usbConfiguration]) s).tx =
      some (if len = 0 then ⟨[], 0, 0, 0⟩ else ⟨[s.usbConfiguration], 0, 1, 0⟩) := by
  rw [send_tx, clamp_singleton]
  split <;> rfl

theorem lo8_ofNat (n : Nat) : lo8 (BitVec.ofNat 16 n) = BitVec.ofNat 8 n := by
  apply BitVec.eq_of_toNat_eq
  simp only [lo8, BitVec.toNat_ofNat]
  omega

/-- Settles O16: the byte that SET_CONFIGURATION stores outlives SETUP acceptance and is the one sent. -/
theorem getConfigurationSendsTheByte : Obligations.GetConfigurationSendsTheByte := by
  refine ⟨fun s val idx len => ⟨_, rfl, rfl, getConfiguration_tx s len⟩, ?_⟩
  intro s n idx len idx' len' val' _ hl
  refine ⟨_, _, rfl, rfl, ?_⟩
  rw [getConfiguration_tx, if_neg hl, ← lo8_ofNat n]
  rfl

end Sys2Proof.Machine
end

section
/-! SUPPORT. The IN data phase (41_control_transfer.md R144 to R146, R154): one send step, one round of the engine and a host
that takes the packet, and the phase as an induction over its full packets. -/

namespace Sys2Proof.Machine

/-! ### The send step (R144, R146) -/

/-- A packet armed, and the phase ended if it has fewer than 64 bytes. -/
def sendNext (c : TxCtx) (s : State) : State :=
  if c.rem < 64 then toIdle (armNext c s) else goto .sendWait (armNext c s)

/-- Bytes are left or the packet is full exactly when 64 bytes or more were left before it. -/
theorem sendStep_eq_sendNext {s : State} {c : TxCtx} (ho : s.ep0OutFull = false) (hc : s.tx = some c) :
    sendStep s = .next (sendNext c s) := by
  have hm : (0 < c.rem - min c.rem 64 ∨ min c.rem 64 = 64) ↔ ¬c.rem < 64 := by omega
  simp only [sendStep, sendNext, ho, hc, hm, ite_not, Bool.false_eq_true, if_false]
  split <;> rfl

theorem sendStep_abort {s : State} (ho : s.ep0OutFull = true) : sendStep s = .next (toIdle s) := by
  simp [sendStep, ho]

/-- An engine at SEND_WAIT sends when no packet is armed, or when an OUT has come (R139, row SEND_WAIT). -/
theorem engineTurn_sendWait {s : State} (hf : s.faults = []) (hp : s.bootPhase = .usb) (hw : s.fsm = some .sendWait)
    (h : s.ep0InArmed = false ∨ s.ep0OutFull = true) : engineTurn s = sendStep s := by
  have he : fsmEnabled s = true := by rcases h with h | h <;> simp [fsmEnabled, hw, h]
  rw [engineTurn_enabled hf hp he, engineStep_sendWait hw]

/-- Settles O20: the engine waits, aborts, or takes the send step, whose end is the packet below 64 bytes. -/
theorem sendStepArmsOnePacket : Obligations.SendStepArmsOnePacket := by
  intro s c hf hp hw hc
  refine ⟨fun ha ho => ?_, fun ho => ?_, fun ha ho => ?_⟩
  · exact engineTurn_waiting (by simp [fsmEnabled, hw, ha, ho])
  · rw [engineTurn_sendWait hf hp hw (.inr ho), sendStep_abort ho, toIdle_eq_idled]
  · refine ⟨sendNext c s, (engineTurn_sendWait hf hp hw (.inl ha)).trans (sendStep_eq_sendNext ho hc), ?_⟩
    unfold sendNext
    split <;> simp [ha]

/-! ### The packets of an IN data phase (R145) -/

/-- Fewer than 64 bytes are one packet. -/
theorem packetsOf_short {d : List Byte} (h : d.length < 64) : packetsOf d = [d] := by
  have hq : d.length / 64 = 0 := Nat.div_eq_of_lt h
  simp [packetsOf, hq, List.take_of_length_le (Nat.le_of_lt h)]

/-- A full packet takes the first 64 bytes. -/
theorem packetsOf_long {d : List Byte} (h : 64 ≤ d.length) : packetsOf d = d.take 64 :: packetsOf (d.drop 64) := by
  unfold packetsOf
  have e : d.length / 64 = (d.drop 64).length / 64 + 1 := by rw [List.length_drop]; omega
  rw [e, List.range_succ_eq_map, List.map_cons, List.map_map]
  congr 1
  apply List.map_congr_left
  intro k _
  simp only [Function.comp_apply, List.drop_drop]
  congr 2
  omega

/-- The packets are the bytes, in order. -/
theorem flatten_packetsOf (d : List Byte) : (packetsOf d).flatten = d := by
  by_cases h : d.length < 64
  · simp [packetsOf_short h]
  · rw [packetsOf_long (Nat.not_lt.1 h), List.flatten_cons, flatten_packetsOf, List.take_append_drop]
termination_by d.length
decreasing_by simp only [List.length_drop]; omega

/-- Packet `k` starts at byte 64 k. -/
theorem packetsOf_get {d : List Byte} {k : Nat} (h : k ≤ d.length / 64) :
    (packetsOf d)[k]? = some ((d.drop (64 * k)).take 64) := by
  have hk : k < d.length / 64 + 1 := by omega
  simp [packetsOf, hk]

/-! ### One round -/

/-- The engine is about to send the bytes `r`, the rest of an IN data phase, to a host at address `a`. -/
structure State.Sending (s : State) (a : DevAddr) (r : List Byte) : Prop where
  listening : s.listening
  phase     : s.bootPhase = .usb
  fsm       : s.fsm = some .sendWait
  tx        : ∃ c, s.tx = some c ∧ c.data.drop c.off = r ∧ c.rem = r.length
  stall     : s.ep0Stall = false
  outFull   : s.ep0OutFull = false
  inArmed   : s.ep0InArmed = false
  addr      : s.currentAddr = a

/-- An armed packet of the bytes `b` waits for the IN of a host at address `a`. -/
structure State.Armed (s : State) (a : DevAddr) (b : List Byte) : Prop where
  listening : s.listening
  stall     : s.ep0Stall = false
  inArmed   : s.ep0InArmed = true
  inBuf     : s.ep0InBuf = b
  addr      : s.currentAddr = a

/-- The send step arms the next 64 bytes, or all there are (R144). -/
theorem State.Sending.armed {s : State} {a : DevAddr} {r : List Byte} (h : s.Sending a r) {c : TxCtx}
    (hr : c.data.drop c.off = r) (hn : c.rem = r.length) (l : List Move) :
    (sendNext c { s with script := l }).Armed a (r.take 64) := by
  obtain ⟨-, -, -, hc⟩ := h.listening
  have hb : (if s.ep0Configured then (c.data.drop c.off).take (min c.rem 64) else s.ep0InBuf) = r.take 64 := by
    rw [if_pos hc, hr, hn, Nat.min_comm, ← List.take_eq_take_min]
  unfold sendNext
  split <;> exact ⟨h.listening, h.stall, by simp [hc], hb, h.addr⟩

@[simp] theorem sendNext_script (c : TxCtx) (s : State) : (sendNext c s).script = s.script := by
  unfold sendNext
  split <;> rfl

@[simp] theorem sendNext_trace (c : TxCtx) (s : State) : (sendNext c s).trace = s.trace := by
  unfold sendNext
  split <;> rfl

/-- The scripted turn of the engine arms the packet. -/
theorem State.Sending.step_engine {s : State} {a : DevAddr} {r : List Byte} (h : s.Sending a r) {rest : List Move}
    (hs : s.script = .engine :: rest) {c : TxCtx} (hc : s.tx = some c) :
    step s = .next (sendNext c { s with script := rest }) := by
  obtain ⟨hf, -⟩ := h.listening
  calc step s
    _ = engineTurn { s with script := rest } := step_scripted hf hs
    _ = sendStep { s with script := rest } := engineTurn_sendWait hf h.phase h.fsm (.inl h.inArmed)
    _ = _ := sendStep_eq_sendNext h.outFull hc

/-- The scripted IN of the host takes it. -/
theorem State.Armed.step_in {s : State} {a : DevAddr} {b : List Byte} (h : s.Armed a b) {rest : List Move}
    (hs : s.script = .host (.inp a 0) :: rest) :
    step s = .next { s with
      script := rest, ep0InArmed := false, ep0InBuf := [], trace := s.trace ++ [(.inp a 0, .data b)] } := by
  obtain ⟨hl, hst, ha, rfl, rfl⟩ := h
  rw [inTokenTakesTheArmedPacket s rest hl hs, if_neg (by simp [hst]), if_neg (by simp [ha])]

/-- One round: the host has the next packet, and the phase is over or goes on with the bytes behind it. -/
theorem State.Sending.round {s : State} {a : DevAddr} {r : List Byte} (h : s.Sending a r) {rest : List Move}
    (hs : s.script = .engine :: .host (.inp a 0) :: rest) :
    ∃ u, Host.Core.run Sys2Proof.core 2 s = (.next u : Result) ∧ u.script = rest ∧
      u.trace = s.trace ++ [(.inp a 0, .data (r.take 64))] ∧ u.ep0InArmed = false ∧ u.faults = [] ∧
      (r.length < 64 → u.fsm = some .idle) ∧ (64 ≤ r.length → u.Sending a (r.drop 64)) := by
  obtain ⟨c, hc, hr, hn⟩ := h.tx
  have harmed := h.armed hr hn (.host (.inp a 0) :: rest)
  obtain ⟨hf, -⟩ := harmed.listening
  have hsend := h.step_engine hs hc
  have htake := harmed.step_in (sendNext_script ..)
  refine ⟨_, (run_succ hsend 1).trans (run_succ htake 0), rfl, ?_, rfl, hf, fun hlt => ?_, fun hge => ?_⟩
  · simp
  · rw [sendNext, if_pos (hn ▸ hlt)]
    rfl
  · have hdrop : c.data.drop (c.off + min c.rem 64) = r.drop 64 := by
      rw [hn, Nat.min_eq_right hge, ← List.drop_drop, hr]
    have hrem : c.rem - min c.rem 64 = (r.drop 64).length := by rw [List.length_drop]; omega
    rw [sendNext, if_neg (by omega)]
    exact
      { listening := h.listening, phase := h.phase, fsm := rfl, stall := h.stall, outFull := h.outFull
        inArmed := rfl, addr := h.addr
        tx := ⟨_, rfl, hdrop, hrem⟩ }

/-! ### The whole phase -/

theorem readScript_succ (a : DevAddr) (k : Nat) :
    readScript a (k + 1) = .engine :: .host (.inp a 0) :: readScript a k := rfl

/-- The host receives the packets of the bytes, round by round, and the engine is IDLE after the short one. -/
theorem State.Sending.run_readScript {s : State} {a : DevAddr} {r : List Byte} (h : s.Sending a r)
    (hs : s.script = readScript a (r.length / 64 + 1)) :
    ∃ t, Host.Core.run Sys2Proof.core (2 * (r.length / 64 + 1)) s = (.next t : Result) ∧
      t.trace = s.trace ++ (packetsOf r).map (fun b => (Token.inp a 0, Response.data b)) ∧
      t.fsm = some .idle ∧ t.ep0InArmed = false ∧ t.faults = [] := by
  obtain ⟨u, hu, hscript, htrace, harmed, hfaults, hlast, hmore⟩ :=
    h.round (hs.trans (readScript_succ a _))
  by_cases hlt : r.length < 64
  · refine ⟨u, ?_, ?_, hlast hlt, harmed, hfaults⟩
    · rw [Nat.div_eq_of_lt hlt]
      exact hu
    · rw [htrace, packetsOf_short hlt, List.take_of_length_le (Nat.le_of_lt hlt)]
      rfl
  · have hge : 64 ≤ r.length := Nat.not_lt.1 hlt
    have hk : r.length / 64 = (r.drop 64).length / 64 + 1 := by rw [List.length_drop]; omega
    obtain ⟨t, ht, httrace, hend⟩ := (hmore hge).run_readScript (by rw [hscript, hk])
    refine ⟨t, ?_, ?_, hend⟩
    · rw [hk, Nat.mul_add, Nat.add_comm, run_add hu]
      exact ht
    · rw [httrace, htrace, packetsOf_long hge, List.append_assoc]
      rfl
termination_by r.length
decreasing_by simp only [List.length_drop]; omega

/-- Settles O21: the run is the induction over the rounds, from the state that has sent nothing; the lengths are those of
the slices of `d`. -/
theorem controlReadDeliversExactlyTheBytes : Obligations.ControlReadDeliversExactlyTheBytes := by
  intro s d hl hp hw htx hst ho ha hs
  have h : s.Sending s.currentAddr d := ⟨hl, hp, hw, ⟨_, htx, rfl, rfl⟩, hst, ho, ha, rfl⟩
  refine ⟨h.run_readScript hs, flatten_packetsOf d, fun k hk => ⟨_, packetsOf_get (Nat.le_of_lt hk), ?_⟩,
    ⟨_, packetsOf_get (Nat.le_refl _), ?_⟩⟩ <;> rw [List.length_take, List.length_drop] <;> omega

end Sys2Proof.Machine
end

section
/-! SUPPORT. The stall bit of endpoint 0 (41_control_transfer.md R137): a stalled endpoint stays stalled over every segment,
token and turn, but for the five that clear it. -/

namespace Sys2Proof.Machine

/-! ### The operations that branch -/

@[simp] theorem fillAndAdvance_ep0Stall (f : FlCtx) (w : Word16) (s : State) :
    (fillAndAdvance f w s).ep0Stall = s.ep0Stall := by
  rcases fillAndAdvance_cases f w s with h | h | h <;> simp [h]

@[simp] theorem writeWord_ep0Stall (f : FlCtx) (w : Word16) (s : State) :
    (writeWord f w s).ep0Stall = s.ep0Stall := by
  rcases writeWord_cases f w s with ⟨_, _, h⟩ | ⟨_, _, h⟩ | ⟨_, _, h⟩ <;> simp [h]

@[simp] theorem receiveComplete_ep0Stall (s : State) : (receiveComplete s).ep0Stall = s.ep0Stall := by
  rcases receiveComplete_cases s with h | h <;> simp [h]

@[simp] theorem lateAck_ep0Stall (s : State) : (lateAck s).ep0Stall = s.ep0Stall := by
  rcases lateAck_cases s with h | h <;> simp [h]

@[simp] theorem otherReport_ep0Stall (s : State) : (otherReport s).ep0Stall = s.ep0Stall := lateAck_ep0Stall s

@[simp] theorem chunkDone_ep0Stall (s : State) : (chunkDone s).ep0Stall = s.ep0Stall :=
  lateAck_ep0Stall { s with led := false }

@[simp] theorem hostOut_ep0Stall (tok : Token) (b : List Byte) (s : State) :
    (hostOut tok b s).ep0Stall = s.ep0Stall := by
  unfold hostOut
  split
  · rfl
  · split <;> rfl

@[simp] theorem hostIn_ep0Stall (tok : Token) (s : State) : (hostIn tok s).ep0Stall = s.ep0Stall := by
  unfold hostIn
  split
  · rfl
  · split <;> rfl

@[simp] theorem bootCapture_ep0Stall (s : State) : (bootCapture s).ep0Stall = s.ep0Stall := by
  rcases bootDecide_cases { s with resetCause := s.rstcauseReg, rstcauseReg := Causes.none, wdtEnabled := false } with
    h | h <;> rw [bootCapture, h] <;> rfl

@[simp] theorem tick_ep0Stall (s : State) : (tick s).ep0Stall = s.ep0Stall := by
  rcases tick_cases s with h | ⟨_, h⟩ | ⟨_, h⟩ <;> rw [h] <;> rfl

/-! ### The segments of the engine -/

/-- A dispatch segment may set the stall bit (R147) and never clears it. -/
theorem exec_stall_kept {i : Instr} {s t : State} (h : exec i s = .next t) (hs : s.ep0Stall = true) :
    t.ep0Stall = true := by
  obtain ⟨u, hu, hd⟩ := exec_dispatchStep i s
  obtain rfl : u = t := next_inj.1 (hu.symm.trans h)
  exact hd.stall_kept hs

theorem sendStep_ep0Stall {s t : State} (h : sendStep s = .next t) : t.ep0Stall = s.ep0Stall := by
  rcases sendStep_next h with ⟨-, rfl⟩ | ⟨_, -, -, ⟨-, rfl⟩ | ⟨-, rfl⟩⟩ <;> rfl

theorem addrStep_ep0Stall {s t : State} (h : addrStep s = .next t) : t.ep0Stall = s.ep0Stall := by
  obtain ⟨_, -, rfl⟩ := addrStep_next h
  rfl

theorem receiveStep_ep0Stall {s t : State} (h : receiveStep s = .next t) : t.ep0Stall = s.ep0Stall := by
  obtain ⟨_, _, -, -, ⟨-, rfl⟩ | ⟨-, rfl⟩ | ⟨-, -, ⟨-, rfl⟩ | rfl⟩⟩ := receiveStep_next h <;> simp

/-- Of the feature reports the exit report alone clears the stall bit (42_hid_feature_reports.md R197). -/
theorem reportStep_ep0Stall {s t : State} (h : reportStep s = .next t) :
    t.ep0Stall = s.ep0Stall ∨ t.fsm = some .exitSettle := by
  obtain ⟨_, -, ⟨-, rfl⟩ | ⟨-, hfl⟩ | ⟨-, -, rfl⟩⟩ := reportStep_next h
  · exact .inr rfl
  · obtain ⟨_, _, -, -, rfl⟩ := flashReport_next hfl
    exact .inl rfl
  · exact .inl (otherReport_ep0Stall s)

theorem flWordStep_ep0Stall {s t : State} (h : flWordStep s = .next t) : t.ep0Stall = s.ep0Stall := by
  obtain ⟨_, -, ⟨-, rfl⟩ | ⟨-, _, -, rfl⟩⟩ := flWordStep_next h <;> simp

theorem flEraseStep_ep0Stall {s t : State} (h : flEraseStep s = .next t) : t.ep0Stall = s.ep0Stall := by
  obtain ⟨_, _, -, -, rfl⟩ := flEraseStep_next h
  simp

theorem engineStep_stall_kept {s t : State} (h : engineStep s = .next t) (hs : s.ep0Stall = true) :
    t.ep0Stall = true ∨ t.fsm = some .exitSettle := by
  rcases engineStep_next h with ⟨-, rfl⟩ | ⟨-, h⟩ | ⟨-, h⟩ | ⟨-, h⟩ | ⟨-, h⟩ | ⟨-, h⟩ | ⟨-, h⟩ | ⟨-, h⟩ |
    ⟨-, rfl⟩ | ⟨-, rfl⟩
  · exact .inl hs
  · exact .inl (exec_stall_kept h hs)
  · exact .inl ((sendStep_ep0Stall h).trans hs)
  · exact .inl ((addrStep_ep0Stall h).trans hs)
  · exact .inl ((receiveStep_ep0Stall h).trans hs)
  · exact (reportStep_ep0Stall h).imp (·.trans hs) id
  · exact .inl ((flWordStep_ep0Stall h).trans hs)
  · exact .inl ((flEraseStep_ep0Stall h).trans hs)
  · exact .inl hs
  · exact .inl hs

/-! ### The turns of the other agents -/

/-- Of the tokens only a SETUP and a bus reset write the stall bit (R132, R135). -/
theorem hostToken_ep0Stall {tok : Token} {s t : State} (h : hostToken tok s = .next t) :
    t.ep0Stall = s.ep0Stall ∨ (∃ addr b, tok = .setup addr b) ∨ tok = .busReset := by
  rcases hostToken_next h with ⟨_, -, rfl⟩ | ⟨addr, b, ht, -, -, -⟩ | ⟨_, _, -, -, -, -, rfl⟩ | ⟨_, -, -, -, rfl⟩ |
    ⟨ht, -⟩
  · exact .inl rfl
  · exact .inr (.inl ⟨addr, b, ht⟩)
  · exact .inl (hostOut_ep0Stall _ _ s)
  · exact .inl (hostIn_ep0Stall _ s)
  · exact .inr (.inr ht)

theorem nvmStep_ep0Stall {s t : State} (h : nvmStep s = .next t) : t.ep0Stall = s.ep0Stall := by
  rcases nvmStep_next h with ⟨-, rfl⟩ | ⟨_, -, -, rfl⟩ | ⟨_, -, -, rfl⟩ <;> rfl

/-- The boot agent writes the stall bit in the device reset after OFF only (70_reset_and_hazards.md R300). -/
theorem bootTurn_ep0Stall {s t : State} (h : bootTurn s = .next t) :
    t.ep0Stall = s.ep0Stall ∨ t.bootPhase = .decide := by
  rcases bootTurn_next h with rfl | ⟨he, rfl⟩
  · exact .inl rfl
  · rcases bootStep_cases he with ⟨-, hb⟩ | ⟨-, -, -, hb⟩ | ⟨-, -, hb⟩ <;> rw [hb]
    · exact .inl (bootCapture_ep0Stall s)
    · exact .inl (tick_ep0Stall s)
    · exact .inr rfl

/-- Settles O49: the move of the step is one of the five, or it keeps the stall. -/
theorem stallLastsUntilSetupOrReset : Obligations.StallLastsUntilSetupOrReset := by
  intro s t h hs ht
  have clear : ¬t.ep0Stall = true := Bool.eq_false_iff.1 ht
  obtain ⟨-, m, hm, h⟩ := step_next h
  cases m with
  | host tok =>
    have hm := hm.resolve_right fun ⟨_, hh⟩ => nomatch hh
    rcases hostToken_ep0Stall h with he | ⟨addr, b, rfl⟩ | rfl
    · exact absurd (he.trans hs) clear
    · exact .inl ⟨addr, b, _, hm⟩
    · exact .inr (.inl ⟨_, hm⟩)
  | physReset c =>
    rw [← next_inj.1 h]
    exact .inr (.inr (.inr (.inr rfl)))
  | nvm => exact absurd ((nvmStep_ep0Stall h).trans hs) clear
  | busHandler =>
    rcases busHandlerTurn_next h with rfl | ⟨he, rfl⟩
    · exact absurd hs clear
    · obtain ⟨hp, -⟩ := busHandlerEnabled_iff.1 he
      exact .inr (.inr (.inl ⟨hp, rfl⟩))
  | engine =>
    rcases engineTurn_next h with rfl | ⟨-, h⟩
    · exact absurd hs clear
    · exact .inr (.inr (.inr (.inl ((engineStep_stall_kept h hs).resolve_left clear))))
  | boot => exact .inr (.inr (.inr (.inr ((bootTurn_ep0Stall h).resolve_left fun he => clear (he.trans hs)))))

end Sys2Proof.Machine
end

section
/-! SUPPORT. The HID requests and the OUT data phase (42_hid_feature_reports.md R190 to R194): the status packet as an
equation, the dispatch segments that arm it or open a phase, and one receive step. -/

namespace Sys2Proof.Machine

/-! ### The status packet (R190, R194) -/

/-- The packet of no bytes is armed if EP0 is configured (41_control_transfer.md R134, R148). -/
theorem ack_eq (s : State) :
    ack s = { s with
      ep0InArmed := if s.ep0Configured = true then true else s.ep0InArmed
      ep0InBuf := if s.ep0Configured = true then [] else s.ep0InBuf } := by
  rw [← ack_ep0InArmed_ite]
  rfl

/-- A request that ends with its status packet has no other effect. -/
theorem toIdle_ack (s : State) :
    toIdle (ack s) = { s.idled with
      ep0InArmed := if s.ep0Configured = true then true else s.ep0InArmed
      ep0InBuf := if s.ep0Configured = true then [] else s.ep0InBuf } := by
  rw [ack_eq]
  rfl

theorem receiveComplete_of_ackThenProcess {s : State} (h : s.par.ackOrder = .ackThenProcess) :
    receiveComplete s = goto .srDone (ack s) := by
  rw [receiveComplete, h]

theorem receiveComplete_of_processThenAck {s : State} (h : s.par.ackOrder = .processThenAck) :
    receiveComplete s = goto .srDone s := by
  rw [receiveComplete, h]

@[simp] theorem receiveComplete_fsm (s : State) : (receiveComplete s).fsm = some .srDone := by
  rcases receiveComplete_cases s with h | h <;> simp [h]

@[simp] theorem receiveComplete_rxCnt (s : State) : (receiveComplete s).rxCnt = s.rxCnt := by
  rcases receiveComplete_cases s with h | h <;> simp [h]

/-- The end of the phase arms the status packet in AckThenProcess mode (R194). -/
theorem receiveComplete_inBank_ack {s : State} (h : s.par.ackOrder = .ackThenProcess) :
    (receiveComplete s).ep0InArmed = (if s.ep0Configured = true then true else s.ep0InArmed) ∧
      (receiveComplete s).ep0InBuf = (if s.ep0Configured = true then [] else s.ep0InBuf) := by
  rw [receiveComplete_of_ackThenProcess h, ack_eq]
  exact ⟨rfl, rfl⟩

/-- The end of the phase leaves the IN bank alone in ProcessThenAck mode (R194). -/
theorem receiveComplete_inBank_kept {s : State} (h : s.par.ackOrder = .processThenAck) :
    (receiveComplete s).ep0InArmed = s.ep0InArmed ∧ (receiveComplete s).ep0InBuf = s.ep0InBuf := by
  rw [receiveComplete_of_processThenAck h]
  exact ⟨rfl, rfl⟩

/-! ### The dispatch segments (R190 to R192) -/

/-- Settles O17: the segment of SET_IDLE is the status packet and the return. -/
theorem setIdleOnlyAcknowledges : Obligations.SetIdleOnlyAcknowledges := by
  intro s val idx len
  exact congrArg _ (toIdle_ack s)

/-- The info report has 7 bytes, so that the bound of 255 does not cut it (R191). -/
theorem clamp_infoReport (len : Word16) (p : Params) :
    clamp len (infoReport p) = (infoReport p).take (min len.toNat 7) := rfl

/-- Settles O18: what is sent is the clamped info report, and its length is the clamp. -/
theorem getReportSendsTheInfo : Obligations.GetReportSendsTheInfo := by
  intro s valHi idx len
  have hlen : ((infoReport s.par).take (min len.toNat 7)).length = min len.toNat 7 :=
    List.length_take_of_le (Nat.min_le_right _ _)
  refine ⟨_, rfl, rfl, ?_⟩
  rw [send_tx, clamp_infoReport, hlen]

theorem setReportBegin_of_ne_zero {len : Word16} (h : len ≠ 0) (s : State) :
    setReportBegin len s = goto .recvWait { s with rxCnt := some 0 } := if_neg h

theorem setReportBegin_zero (s : State) : setReportBegin 0 s = receiveComplete { s with rxCnt := some 0 } := rfl

/-- Settles O19: the three rows share `setReportBegin`, which waits for data or, without any, completes the phase. -/
theorem setReportOpensTheOutPhase : Obligations.SetReportOpensTheOutPhase := by
  intro s valHi val idx len i hi
  have hexec : exec i s = .next (setReportBegin len s) := by rcases hi with rfl | rfl | rfl <;> rfl
  refine ⟨_, hexec, ?_⟩
  by_cases hlen : len = 0
  · subst hlen
    rw [setReportBegin_zero]
    exact ⟨receiveComplete_rxCnt _, fun hne => absurd rfl hne, fun _ => ⟨receiveComplete_fsm _,
      receiveComplete_inBank_kept (s := { s with rxCnt := some 0 }),
      receiveComplete_inBank_ack (s := { s with rxCnt := some 0 })⟩⟩
  · rw [setReportBegin_of_ne_zero hlen]
    exact ⟨rfl, fun _ => ⟨rfl, rfl, rfl⟩, fun h0 => absurd h0 hlen⟩

/-! ### One packet of the OUT data phase (R193) -/

theorem engineStep_recvWait {s : State} (h : s.fsm = some .recvWait) : engineStep s = receiveStep s := by
  rw [engineStep, h]

/-- An engine at RECV_WAIT receives when an OUT has come (41_control_transfer.md R139). -/
theorem engineTurn_recvWait {s : State} (hf : s.faults = []) (hp : s.bootPhase = .usb) (hw : s.fsm = some .recvWait)
    (ho : s.ep0OutFull = true) : engineTurn s = receiveStep s := by
  rw [engineTurn_enabled hf hp (by simp [fsmEnabled, hw, ho]), engineStep_recvWait hw]

theorem receiveStep_overrun {s : State} {r : Request} {rx : Nat} (hl : s.latch = some r) (hr : s.rxCnt = some rx)
    (h : r.len.toNat < rx + s.ep0OutBuf.length) :
    receiveStep s = .next (raise (.hostOverrun rx s.ep0OutBuf.length r.len.toNat) s) := by
  simp only [receiveStep, hl, hr, if_pos h]

theorem receiveStep_overflow {s : State} {r : Request} {rx : Nat} (hl : s.latch = some r) (hr : s.rxCnt = some rx)
    (h1 : rx + s.ep0OutBuf.length ≤ r.len.toNat) (h2 : 132 < rx + s.ep0OutBuf.length) :
    receiveStep s = .next (raise (.reportOverflow rx s.ep0OutBuf.length) s) := by
  simp only [receiveStep, hl, hr, if_neg (Nat.not_lt.2 h1), if_pos h2]

/-- Settles O22: both faults are the first record of the run, with the state of the wait. -/
theorem receiveStepFaultsOnExcessData : Obligations.ReceiveStepFaultsOnExcessData := by
  intro s r rx hf hp hw ho hl hr
  rw [engineTurn_recvWait hf hp hw ho]
  refine ⟨fun h => ?_, fun h1 h2 => ?_⟩
  · rw [receiveStep_overrun hl hr h, raise_of_faults_nil hf, hw]
  · rw [receiveStep_overflow hl hr h1 h2, raise_of_faults_nil hf, hw]

/-- A packet stored, and the phase ended if it is complete or the packet is short. -/
def receiveNext (r : Request) (rx : Nat) (s : State) : State :=
  if rx + s.ep0OutBuf.length = r.len.toNat ∨ s.ep0OutBuf.length < 64 then receiveComplete (storePacket rx s)
  else goto .recvWait (storePacket rx s)

theorem receiveStep_eq_receiveNext {s : State} {r : Request} {rx : Nat} (hl : s.latch = some r) (hr : s.rxCnt = some rx)
    (h1 : rx + s.ep0OutBuf.length ≤ r.len.toNat) (h2 : rx + s.ep0OutBuf.length ≤ 132) :
    receiveStep s = .next (receiveNext r rx s) := by
  simp only [receiveStep, receiveNext, hl, hr, if_neg (Nat.not_lt.2 h1), if_neg (Nat.not_lt.2 h2)]
  split <;> rfl

/-- What a packet that fits does, whether or not the phase ends with it (R193). -/
structure StoresPacket (rx : Nat) (s t : State) : Prop where
  rpt        : t.rpt = rptStore s.rpt rx s.ep0OutBuf
  rxCnt      : t.rxCnt = some (rx + s.ep0OutBuf.length)
  ep0OutFull : t.ep0OutFull = false
  ep0OutBuf  : t.ep0OutBuf = []
  latch      : t.latch = s.latch
  flash      : t.flash = s.flash
  pbData     : t.pbData = s.pbData
  faults     : t.faults = s.faults

theorem receiveNext_storesPacket (r : Request) (rx : Nat) (s : State) : StoresPacket rx s (receiveNext r rx s) := by
  unfold receiveNext
  split
  · rcases receiveComplete_cases (storePacket rx s) with h | h <;> rw [h] <;> constructor <;> rfl
  · constructor <;> rfl

/-- The bytes of the report buffer behind a store: those of the packet at its place, else the old ones (R193). -/
theorem getElem?_rptStore {l p : List Byte} {a : Nat} (h : a ≤ l.length) (k : Nat) :
    (rptStore l a p)[k]? = if a ≤ k ∧ k < a + p.length then p[k - a]? else l[k]? := by
  have htake : (l.take a).length = a := List.length_take_of_le h
  unfold rptStore
  by_cases hlo : k < a
  · rw [List.append_assoc, List.getElem?_append_left (by omega), List.getElem?_take_of_lt hlo, if_neg (by omega)]
  · by_cases hhi : k < a + p.length
    · rw [List.append_assoc, List.getElem?_append_right (by omega), htake, List.getElem?_append_left (by omega),
        if_pos (by omega)]
    · rw [List.getElem?_append_right (by simp; omega), List.getElem?_drop, if_neg (by omega)]
      congr 1
      simp
      omega

/-- Settles O23: the packet is stored in both outcomes of the receive step, and only the end of the phase arms the status
packet. -/
theorem receiveStepStoresThePacket : Obligations.ReceiveStepStoresThePacket := by
  intro s r rx hf hp hw ho hl hr hrpt h1 h2
  have ht := (engineTurn_recvWait hf hp hw ho).trans (receiveStep_eq_receiveNext hl hr h1 h2)
  have hstore := receiveNext_storesPacket r rx s
  refine ⟨_, ht, ?_, fun k _ => ?_, hstore.rxCnt, hstore.ep0OutFull, hstore.ep0OutBuf, hstore.latch, hstore.flash,
    hstore.pbData, hstore.faults.trans hf, fun hend => ?_, fun hlen hlong => ?_⟩
  · rw [hstore.rpt, length_rptStore hrpt h2]
  · rw [hstore.rpt, getElem?_rptStore (by omega)]
  · rw [receiveNext, if_pos hend]
    exact ⟨receiveComplete_fsm _, receiveComplete_inBank_ack (s := storePacket rx s),
      receiveComplete_inBank_kept (s := storePacket rx s)⟩
  · rw [receiveNext, if_neg (by omega)]
    exact ⟨rfl, rfl, rfl⟩

end Sys2Proof.Machine
end

section
/-! SUPPORT. The feature-report decoder and what its cases lead to (42_hid_feature_reports.md R195 to R204): one equation per
case of the decoder, of the chunk's set-up and of its end, and the exit path up to the device reset. -/

namespace Sys2Proof.Machine

/-! ### The segments after the OUT data phase -/

theorem engineStep_srDone {s : State} (h : s.fsm = some .srDone) : engineStep s = reportStep s := by
  rw [engineStep, h]

/-- An engine at SR_DONE decodes its report (41_control_transfer.md R139). -/
theorem engineTurn_srDone {s : State} (hf : s.faults = []) (hp : s.bootPhase = .usb) (hw : s.fsm = some .srDone) :
    engineTurn s = reportStep s := by
  rw [engineTurn_enabled hf hp (by simp [fsmEnabled, hw]), engineStep_srDone hw]

theorem engineStep_flWord {s : State} (h : s.fsm = some .flWord) : engineStep s = flWordStep s := by
  rw [engineStep, h]

/-- An engine at FL_WORD goes on with its chunk (41_control_transfer.md R139). -/
theorem engineTurn_flWord {s : State} (hf : s.faults = []) (hp : s.bootPhase = .usb) (hw : s.fsm = some .flWord) :
    engineTurn s = flWordStep s := by
  rw [engineTurn_enabled hf hp (by simp [fsmEnabled, hw]), engineStep_flWord hw]

theorem engineStep_exitSettle {s : State} (h : s.fsm = some .exitSettle) : engineStep s = .next (exitReset s) := by
  rw [engineStep, h]

/-! ### The cases of the decoder (R195) -/

theorem reportStep_exit {s : State} {r : Request} (hl : s.latch = some r) (h : lo8 r.val = 0x01) :
    reportStep s = .next (exitReport s) := by
  simp only [reportStep, hl, if_pos h]

theorem reportStep_flash {s : State} {r : Request} (hl : s.latch = some r) (h : lo8 r.val = 0x02) :
    reportStep s = flashReport s := by
  have hne : lo8 r.val ≠ 0x01 := by rw [h]; decide
  simp only [reportStep, hl, if_neg hne, if_pos h]

theorem reportStep_other {s : State} {r : Request} (hl : s.latch = some r) (h1 : lo8 r.val ≠ 0x01)
    (h2 : lo8 r.val ≠ 0x02) : reportStep s = .next (otherReport s) := by
  simp only [reportStep, hl, if_neg h1, if_neg h2]

/-- Settles O24: val_lo selects the exit report, and each conjunct is a write of it or its frame. -/
theorem exitReportRelinquishesUsb : Obligations.ExitReportRelinquishesUsb := by
  intro s r hf hp hw hl hv
  have hstep := (engineTurn_srDone hf hp hw).trans (reportStep_exit hl ((lo8_eq_iff _ _).2 hv))
  exact ⟨exitReport s, hstep, rfl, rfl, rfl, rfl, rfl, rfl, rfl, rfl, rfl, rfl, rfl, rfl, rfl, rfl, fun _ => rfl, rfl,
    fun _ => rfl, rfl, rfl, rfl, rfl, hf⟩

/-! ### Report 2 (R200, R201) -/

theorem flashReport_of_some {s : State} {rx a : Nat} (hr : s.rxCnt = some rx) (ha : chunkAddr s.par s.rpt = some a) :
    flashReport s =
      .next (goto .flWord { s with fl := some ⟨a, 0, wordCount s.par.chunkMode rx⟩, led := true }) := by
  simp only [flashReport, hr, ha]

/-- The address field, scaled and truncated by the size of FLASH (R200, D16). -/
theorem chunkAddr_of_bytes {rpt : List Byte} {b0 b1 b2 : Byte} (h0 : rpt[1]? = some b0) (h1 : rpt[2]? = some b1)
    (h2 : rpt[3]? = some b2) (p : Params) :
    chunkAddr p rpt = some (
      if p.flashSize ≤ 65536 then (b0.toNat + 256 * b1.toNat + 65536 * b2.toNat) % 2 ^ 16
      else ((b0.toNat + 256 * b1.toNat + 65536 * b2.toNat) * 2) % 2 ^ 32) := by
  simp only [chunkAddr, h0, h1, h2, truncTo, le24, addrWidth, addrScale]
  split
  · rw [Nat.mul_one]
  · rfl

theorem wordCount_eq (mode : ChunkMode) (rx : Nat) :
    wordCount mode rx = if mode = .fullBuffer then 64 else if 4 ≤ rx then (rx - 4) / 2 else 0 := by
  cases mode <;> rfl

/-- Settles O26: val_lo selects the flash report, whose address and word count are those of the two lemmas. -/
theorem flashReportSetsUpTheChunk : Obligations.FlashReportSetsUpTheChunk := by
  intro s r rx b0 b1 b2 hf hp hw hl hv hr h0 h1 h2
  rw [engineTurn_srDone hf hp hw, reportStep_flash hl ((lo8_eq_iff _ _).2 hv),
    flashReport_of_some hr (chunkAddr_of_bytes h0 h1 h2 s.par), wordCount_eq]
  rfl

/-! ### The late status packet (R203, R204) -/

theorem lateAck_of_ackThenProcess {s : State} (h : s.par.ackOrder = .ackThenProcess) : lateAck s = s := by
  rw [lateAck, h]

theorem lateAck_of_processThenAck {s : State} (h : s.par.ackOrder = .processThenAck) : lateAck s = ack s := by
  rw [lateAck, h]

/-- A report that was acknowledged before ends its request with no other effect (R203, R204). -/
theorem toIdle_lateAck_of_ackThenProcess {s : State} (h : s.par.ackOrder = .ackThenProcess) :
    toIdle (lateAck s) = s.idled := by
  rw [lateAck_of_ackThenProcess h, toIdle_eq_idled]

/-- A report that was not ends its request with the status packet (R203, R204). -/
theorem toIdle_lateAck_of_processThenAck {s : State} (h : s.par.ackOrder = .processThenAck) :
    toIdle (lateAck s) = { s.idled with
      ep0InArmed := if s.ep0Configured = true then true else s.ep0InArmed
      ep0InBuf := if s.ep0Configured = true then [] else s.ep0InBuf } := by
  rw [lateAck_of_processThenAck h, toIdle_ack]

/-- Settles O27: val_lo selects neither report, and the request ends behind the late status packet. -/
theorem otherReportOnlyAcknowledges : Obligations.OtherReportOnlyAcknowledges := by
  intro s r hf hp hw hl h1 h2
  have hstep : engineTurn s = .next (toIdle (lateAck s)) :=
    (engineTurn_srDone hf hp hw).trans
      (reportStep_other hl (fun h => h1 ((lo8_eq_iff _ _).1 h)) fun h => h2 ((lo8_eq_iff _ _).1 h))
  rw [hstep]
  exact ⟨fun ho => congrArg _ (toIdle_lateAck_of_ackThenProcess ho),
    fun ho => congrArg _ (toIdle_lateAck_of_processThenAck ho)⟩

theorem flWordStep_done {s : State} {f : FlCtx} (hl : s.fl = some f) (h : f.i = f.n) :
    flWordStep s = .next (chunkDone s) := by
  simp only [flWordStep, hl, if_pos h]

/-- Settles O33: the request ends behind the late status packet, on the state with the LED off. -/
theorem chunkEndsWithTheLedOff : Obligations.ChunkEndsWithTheLedOff := by
  intro s f hf hp hw hl hi
  have hstep : engineTurn s = .next (toIdle (lateAck { s with led := false })) :=
    (engineTurn_flWord hf hp hw).trans (flWordStep_done hl hi)
  rw [hstep]
  exact ⟨fun ho => congrArg _ (toIdle_lateAck_of_ackThenProcess (s := { s with led := false }) ho),
    fun ho => congrArg _ (toIdle_lateAck_of_processThenAck (s := { s with led := false }) ho)⟩

/-! ### The id byte of the data (R195) -/

theorem chunkAddr_set_zero (p : Params) (rpt : List Byte) (b : Byte) : chunkAddr p (rpt.set 0 b) = chunkAddr p rpt := by
  simp [chunkAddr]

/-- The late status packet neither reads nor writes the report buffer. -/
theorem lateAck_with_rpt (s : State) (l : List Byte) : lateAck { s with rpt := l } = { lateAck s with rpt := l } := by
  cases h : s.par.ackOrder with
  | ackThenProcess => rw [lateAck_of_ackThenProcess h, lateAck_of_ackThenProcess (s := { s with rpt := l }) h]
  | processThenAck =>
    rw [lateAck_of_processThenAck h, lateAck_of_processThenAck (s := { s with rpt := l }) h]
    rfl

theorem otherReport_with_rpt (s : State) (l : List Byte) :
    otherReport { s with rpt := l } = { otherReport s with rpt := l } := by
  rw [otherReport, lateAck_with_rpt]
  rfl

@[simp] theorem otherReport_rpt (s : State) : (otherReport s).rpt = s.rpt := by
  rcases lateAck_cases s with h | h <;> simp [otherReport, h]

/-- Settles O28: the case is that of the latch, and the chunk's address, the one thing read of the buffer, lies behind
its first byte. -/
theorem reportIdInTheDataIsNotRead : Obligations.ReportIdInTheDataIsNotRead := by
  intro s t b h
  obtain ⟨r, hl, ⟨hv, rfl⟩ | ⟨hv, hflash⟩ | ⟨h1, h2, rfl⟩⟩ := reportStep_next h
  · exact reportStep_exit (s := { s with rpt := s.rpt.set 0 b }) hl hv
  · obtain ⟨rx, a, hr, ha, rfl⟩ := flashReport_next hflash
    have ha' : chunkAddr s.par (s.rpt.set 0 b) = some a := (chunkAddr_set_zero s.par s.rpt b).trans ha
    exact (reportStep_flash (s := { s with rpt := s.rpt.set 0 b }) hl hv).trans (flashReport_of_some hr ha')
  · rw [reportStep_other (s := { s with rpt := s.rpt.set 0 b }) hl h1 h2, otherReport_with_rpt, otherReport_rpt]

/-! ### The exit path (R198; 70_reset_and_hazards.md R300, R301) -/

/-- The causes that are already in the register are the causes after the reset. -/
theorem causesOverReset_self (c : Causes) : causesOverReset c c = c := by
  simp [causesOverReset, Causes.union]

theorem causesOverReset_eq (c old : Causes) :
    causesOverReset c old =
      if c.powerOn = true then c
      else ⟨old.powerOn, old.external || c.external, old.watchdog || c.watchdog, old.brownOut || c.brownOut⟩ := by
  unfold causesOverReset Causes.union
  split
  · rfl
  · next h => simp [h, Bool.or_comm]

theorem magicOverReset_kept {c : Causes} (h1 : c.powerOn = false) (h2 : c.brownOut = false) (s : State) :
    magicOverReset c s = s.magicKey := by
  simp [magicOverReset, h1, h2]

/-- A drawn magic key fits MAGIC_WIDTH bits (10_state.md R37). -/
theorem magicOverReset_drawn_lt {c : Causes} (h : c.powerOn = true ∨ c.brownOut = true) (s : State) :
    magicOverReset c s < 2 ^ s.par.magicWidth := by
  rw [magicOverReset, if_pos (by simpa using h)]
  exact Nat.mod_lt _ (Nat.two_pow_pos _)

theorem flashOverReset_idle {s : State} (h : s.nvmOp = .idle) (d : Nat) : flashOverReset d s = s.flash := by
  rw [flashOverReset, h]

/-- A device reset gives the **dev** column of R312; the canonical form of FLASH is asked for only where the reset
scrambles a page. -/
theorem afterDeviceReset_deviceReset {s : State} (h : s.nvmOp = .idle ∨ s.flash.wf = true) (c : Causes) :
    AfterDeviceReset c s (deviceReset c s) where
  par := rfl
  noRequest := ⟨rfl, rfl, rfl, rfl, rfl⟩
  fsm := rfl
  ep0SetupFull := rfl
  ep0OutFull := rfl
  ep0OutBuf := length_drawPacket_le _
  ep0InArmed := rfl
  ep0InBuf := length_drawPacket_le _
  ep0Stall := rfl
  ep0Configured := rfl
  devAddr := rfl
  addrEn := rfl
  usbConfiguration := rfl
  ep1Enabled := rfl
  usbEnabled := rfl
  usbAttached := rfl
  busresetPending := rfl
  rpt := length_drawBytes _ _
  flash := fun a ha => h.elim (fun hn => congrArg (·.read a) (flashOverReset_idle hn _))
    fun hwf => read_flashOverReset hwf _ ha
  pbData := fun _ => rfl
  pbTag := rfl
  nvmOp := rfl
  rwwEnabled := rfl
  sessLast := rfl
  ivsel := rfl
  led := rfl
  rstcauseReg := causesOverReset_eq c s.rstcauseReg
  magicKey := fun h1 h2 => magicOverReset_kept h1 h2 s
  magicDrawn := fun hd => magicOverReset_drawn_lt hd s
  timeoutCounter := rfl
  timerRunning := rfl
  bootPhase := rfl
  intEn := rfl
  faults := rfl
  trace := rfl
  offs := rfl

/-- The settle delay is over in the engine's own turn (R198). -/
theorem step_exitSettle {s : State} (hf : s.faults = []) (hp : s.bootPhase = .usb) (hs : s.script = [])
    (hn : s.nvmOp = .idle) (hw : s.fsm = some .exitSettle) : step s = .next (exitReset s) := by
  have hen : engineEnabled s = true := engineEnabled_iff.2 ⟨hp, hf, by simp [fsmEnabled, hw]⟩
  rw [step_unscripted hf hs, idleTurn_engine hn (busHandler_off (by simp [hw])) hen, engineStep_exitSettle hw]

/-- At OFF the engine has no step, and the boot agent takes the device reset (70_reset_and_hazards.md R301). -/
theorem step_off {s : State} (hf : s.faults = []) (hp : s.bootPhase = .usb) (hs : s.script = [])
    (hn : s.nvmOp = .idle) (hw : s.fsm = some .off) : step s = .next (deviceReset s.rstcauseReg s) := by
  rw [step_unscripted hf hs]
  simp [idleTurn, nvmEnabled, busHandlerEnabled, engineEnabled, fsmEnabled, bootEnabled, bootStep, hn, hw, hp]

/-- Settles O25: the settle step reaches OFF with the exit cause in the register, which the reset there leaves as it is. -/
theorem exitEndsInADeviceReset : Obligations.ExitEndsInADeviceReset := by
  intro s hf hp hs hn hw
  have hu : step s = .next (exitReset s) := step_exitSettle hf hp hs hn hw
  have ht : step (exitReset s) = .next (deviceReset s.par.exitResetCause (exitReset s)) := step_off hf hp hs hn rfl
  have hdev := afterDeviceReset_deviceReset (s := exitReset s) (.inl hn) s.par.exitResetCause
  refine ⟨_, _, hu, ht, rfl, hdev, hs, causesOverReset_self _, fun a => ?_, hdev.magicKey⟩
  exact congrArg (·.read a) (flashOverReset_idle (s := exitReset s) hn _)

end Sys2Proof.Machine
end

section
/-! SUPPORT. The flash engine word by word (43_flash_engine.md R231 to R242): one equation per case of a word, of its commit
and of a completion, and the writers of the page buffer with the point at which each writes. -/

namespace Sys2Proof.Machine

/-! ### The hazards of a word (R234) -/

theorem checkWord_misaligned {s : State} {a : Nat} (h : a % 2 ≠ 0) : checkWord s a = some (.misaligned a) :=
  if_pos h

theorem checkWord_outOfRange {s : State} {a : Nat} (he : a % 2 = 0) (h : s.par.flashSize ≤ a) :
    checkWord s a = some (.outOfRange a) := by
  simp [checkWord, he, h]

theorem checkWord_outOfOrder {s : State} {a l : Nat} (he : a % 2 = 0) (hr : a < s.par.flashSize)
    (hl : s.sessLast = some l) (h : a ≤ l) : checkWord s a = some (.outOfOrder a l) := by
  simp [checkWord, he, Nat.not_le.2 hr, Option.filter, hl, h]

/-- A word above the session's last one is in order. -/
theorem sessLast_filter_eq_none {s : State} {a : Nat} (h : ∀ l, s.sessLast = some l → l < a) :
    s.sessLast.filter (fun last => decide (a ≤ last)) = none := by
  simpa [Option.filter_eq_none_iff] using h

theorem checkWord_bufferPageMismatch {s : State} {a p : Nat} (he : a % 2 = 0) (hr : a < s.par.flashSize)
    (ho : ∀ l, s.sessLast = some l → l < a) (hp : s.pbTag = some p) (h : p ≠ pageOf s.par a) :
    checkWord s a = some (.bufferPageMismatch a p) := by
  have hpage : s.pbTag.filter (fun tag => tag != pageOf s.par a) = some p := by simp [Option.filter, hp, h]
  simp [checkWord, he, Nat.not_le.2 hr, sessLast_filter_eq_none ho, hpage]

theorem checkWord_bootSectionWrite {s : State} {a : Nat} (he : a % 2 = 0) (hr : a < s.par.flashSize)
    (ho : ∀ l, s.sessLast = some l → l < a) (hp : ∀ p, s.pbTag = some p → p = pageOf s.par a)
    (h : s.par.bootStart ≤ a) : checkWord s a = some (.bootSectionWrite a) := by
  have hpage : s.pbTag.filter (fun tag => tag != pageOf s.par a) = none := by
    simpa [Option.filter_eq_none_iff] using hp
  simp [checkWord, he, Nat.not_le.2 hr, sessLast_filter_eq_none ho, hpage, h]

/-! ### One word at FL_WORD and at FL_ERASE_WAIT (R233) -/

theorem flWordStep_word {s : State} {f : FlCtx} {w : Word16} (hl : s.fl = some f) (hi : f.i ≠ f.n)
    (hw : chunkWord s.rpt f.i = some w) : flWordStep s = .next (writeWord f w s) := by
  simp only [flWordStep, hl, if_neg hi, hw]

theorem writeWord_hazard {s : State} {f : FlCtx} {c : FaultCause} (h : checkWord s f.addr = some c) (w : Word16) :
    writeWord f w s = raise c s := by
  simp only [writeWord, h]

theorem writeWord_aligned {s : State} {f : FlCtx} (h : checkWord s f.addr = none) (ho : offsetOf s.par f.addr = 0)
    (w : Word16) : writeWord f w s = goto .flEraseWait (startErase (pageOf s.par f.addr) s) := by
  simp only [writeWord, h, if_pos ho]

theorem writeWord_unaligned {s : State} {f : FlCtx} (h : checkWord s f.addr = none) (ho : offsetOf s.par f.addr ≠ 0)
    (w : Word16) : writeWord f w s = fillAndAdvance f w s := by
  simp only [writeWord, h, if_neg ho]

theorem flEraseStep_word {s : State} {f : FlCtx} {w : Word16} (hl : s.fl = some f)
    (hw : chunkWord s.rpt f.i = some w) : flEraseStep s = .next (fillAndAdvance f w s) := by
  simp only [flEraseStep, hl, hw]

/-- An engine at FL_ERASE_WAIT goes on when the erase is done (41_control_transfer.md R139). -/
theorem engineTurn_flEraseWait {s : State} (hf : s.faults = []) (hp : s.bootPhase = .usb)
    (hw : s.fsm = some .flEraseWait) (hn : s.nvmOp = .idle) : engineTurn s = flEraseStep s := by
  rw [engineTurn_enabled hf hp (by simp [fsmEnabled, hw, hn]), engineStep, hw]

/-- An engine at FL_WRITE_WAIT goes on when the write is done (41_control_transfer.md R139). -/
theorem engineTurn_flWriteWait {s : State} (hf : s.faults = []) (hp : s.bootPhase = .usb)
    (hw : s.fsm = some .flWriteWait) (hn : s.nvmOp = .idle) : engineTurn s = .next (flWriteStep s) := by
  rw [engineTurn_enabled hf hp (by simp [fsmEnabled, hw, hn]), engineStep, hw]

/-- A word that has a hazard is answered with its record, before any effect. -/
theorem engineTurn_hazard {s : State} {f : FlCtx} {w : Word16} {c : FaultCause} (hf : s.faults = [])
    (hp : s.bootPhase = .usb) (hw : s.fsm = some .flWord) (hl : s.fl = some f) (hi : f.i ≠ f.n)
    (hword : chunkWord s.rpt f.i = some w) (h : checkWord s f.addr = some c) : engineTurn s = .next (raise c s) := by
  rw [engineTurn_flWord hf hp hw, flWordStep_word hl hi hword, writeWord_hazard h]

/-- Settles O29: each clause is the hazard that `CheckWord` answers under its conditions. -/
theorem wordHazardsInTheirOrder : Obligations.WordHazardsInTheirOrder := by
  intro s f w hf hp hw hl hi hword
  have turn : ∀ {c}, checkWord s f.addr = some c → engineTurn s = .next (raise c s) :=
    engineTurn_hazard hf hp hw hl hi hword
  exact ⟨fun h => turn (checkWord_misaligned h),
    fun he h => turn (checkWord_outOfRange he h),
    fun he hr _ hlast h => turn (checkWord_outOfOrder he hr hlast h),
    fun he hr ho _ hpage h => turn (checkWord_bufferPageMismatch he hr ho hpage h),
    fun he hr ho hpage h => turn (checkWord_bootSectionWrite he hr ho hpage h)⟩

/-- The page of an operation turns read-while-write off if it is an application page (R230, R231). -/
theorem rwwEnabled_of_appPage (p : Nat) (s : State) :
    (if appPage s.par p then false else s.rwwEnabled) =
      if p * s.par.pageSize < s.par.bootStart then false else s.rwwEnabled :=
  if_congr decide_eq_true_iff rfl rfl

/-- Settles O30: a word that passes `CheckWord` at a page's first address takes the erase branch. -/
theorem alignedWordStartsAnErase : Obligations.AlignedWordStartsAnErase := by
  intro s f w hf hp hw hl hi hword hc ho
  rw [engineTurn_flWord hf hp hw, flWordStep_word hl hi hword, writeWord_aligned hc ho]
  refine congrArg Host.Outcome.next ?_
  rw [goto, startErase, rwwEnabled_of_appPage]
  rfl

/-! ### The staged word and the commit of its page (R233, R237 to R239) -/

/-- The engine's turn stages the word of `f`: at FL_WORD an unaligned word without a hazard, at FL_ERASE_WAIT any word once
the erase is done (R233). -/
abbrev State.staging (s : State) (f : FlCtx) : Prop :=
  s.fsm = some .flWord ∧ f.i ≠ f.n ∧ checkWord s f.addr = none ∧ offsetOf s.par f.addr ≠ 0 ∨
    s.fsm = some .flEraseWait ∧ s.nvmOp = .idle

theorem engineTurn_staging {s : State} {f : FlCtx} {w : Word16} (hf : s.faults = []) (hp : s.bootPhase = .usb)
    (hl : s.fl = some f) (hword : chunkWord s.rpt f.i = some w) (h : s.staging f) :
    engineTurn s = .next (fillAndAdvance f w s) := by
  obtain ⟨hw, hi, hc, ho⟩ | ⟨hw, hn⟩ := h
  · rw [engineTurn_flWord hf hp hw, flWordStep_word hl hi hword, writeWord_unaligned hc ho]
  · rw [engineTurn_flEraseWait hf hp hw hn, flEraseStep_word hl hword]

/-- Whether or not the page is committed, nothing but the engine's state, `nvm_op`, read-while-write and the fault record
differs from the staged word alone. -/
theorem fillAndAdvance_eq_fillAdvance (f : FlCtx) (w : Word16) (s : State) :
    ∃ st op rww fs, fillAndAdvance f w s =
      { fillAdvance f w s with fsm := st, nvmOp := op, rwwEnabled := rww, faults := fs } := by
  rcases fillAndAdvance_cases f w s with h | h | h <;> exact ⟨_, _, _, _, h⟩

/-- The page buffer after a FILL: the two bytes of the word, else the old ones (R237). -/
theorem read_fill {s : State} (h : s.pbData.wf = true) (a : Nat) (w : Word16) (k : Nat) :
    (fill a w s).pbData.read k =
      if k = offsetOf s.par a then lo8 w
      else if k = offsetOf s.par a + 1 then hi8 w else s.pbData.read k := by
  rw [fill_pbData, Memory.read_write (Memory.wf_write h _ _), Memory.read_write h]
  by_cases hlo : k = offsetOf s.par a
  · rw [if_pos hlo, if_neg (by omega), if_pos hlo.symm]
  · rw [if_neg hlo, if_neg (Ne.symm hlo)]
    simp only [eq_comm]

/-- Settles O31: the staged word is the FILL, and the commit behind it writes none of the fields named. -/
theorem stagedWordGoesToTheBuffer : Obligations.StagedWordGoesToTheBuffer := by
  intro s f w hf hp hl hwf hword hst
  refine ⟨_, engineTurn_staging hf hp hl hword hst, ?_⟩
  obtain ⟨st, op, rww, fs, he⟩ := fillAndAdvance_eq_fillAdvance f w s
  rw [he]
  exact ⟨read_fill hwf f.addr w, rfl, rfl, rfl, fun _ => rfl, rfl, rfl, rfl, rfl, rfl, rfl⟩

theorem fillAndAdvance_inside {s : State} {f : FlCtx}
    (h : offsetOf s.par (truncTo (addrWidth s.par) (f.addr + 2)) ≠ 0) (w : Word16) :
    fillAndAdvance f w s = goto .flWord (fillAdvance f w s) := if_neg h

theorem fillAndAdvance_end {s : State} {f : FlCtx}
    (h : offsetOf s.par (truncTo (addrWidth s.par) (f.addr + 2)) = 0) (w : Word16) :
    fillAndAdvance f w s = commit (pageOf s.par f.addr) (fillAdvance f w s) := if_pos h

theorem commit_erased {s : State} {p : Nat} (h : pageErased s p = true) :
    commit p s = goto .flWriteWait (startWrite p s) := if_pos h

theorem commit_unerased {s : State} {p : Nat} (h : pageErased s p ≠ true) :
    commit p s = raise (.writeUnerased p) s := if_neg h

/-- Settles O32: the new address decides whether the page is committed, and the bytes of the page in FLASH, which staging
leaves alone, decide the commit. -/
theorem pageIsCommittedAtItsEnd : Obligations.PageIsCommittedAtItsEnd := by
  refine ⟨fun s f w hf hp hl hword hst => ?_, fun s hf hp hw => ⟨fun hn => ?_, fun hn => ?_⟩⟩
  · refine ⟨_, engineTurn_staging hf hp hl hword hst, ?_⟩
    obtain ⟨htag, hlast⟩ : (fillAndAdvance f w s).pbTag = some (pageOf s.par f.addr) ∧
        (fillAndAdvance f w s).sessLast = some f.addr := by
      obtain ⟨_, _, _, _, he⟩ := fillAndAdvance_eq_fillAdvance f w s
      rw [he]
      exact ⟨rfl, rfl⟩
    refine ⟨htag, hlast, fun ho => ?_, fun ho herased => ?_, fun ho hunerased => ?_⟩
    · rw [fillAndAdvance_inside ho]
      exact ⟨rfl, rfl, hf, rfl⟩
    · have hc : pageErased (fillAdvance f w s) (pageOf s.par f.addr) = true := (pageErased_iff _ _).2 herased
      rw [fillAndAdvance_end ho, commit_erased hc]
      exact ⟨rfl, rfl, hf, rwwEnabled_of_appPage _ s⟩
    · have hc : pageErased (fillAdvance f w s) (pageOf s.par f.addr) ≠ true := by
        obtain ⟨k, hk, hne⟩ := hunerased
        exact fun h => hne ((pageErased_iff _ _).1 h k hk)
      rw [fillAndAdvance_end ho, commit_unerased hc, raise_of_faults_nil (s := fillAdvance f w s) hf]
      exact ⟨rfl, rfl, rfl, rfl⟩
  · exact engineTurn_flWriteWait hf hp hw hn
  · exact engineTurn_waiting (by simp [fsmEnabled, hw, hn])

/-! ### The completions (R236, R240) -/

theorem nvmStep_erase {s : State} {p : Nat} (h : s.nvmOp = .erase p) (hp : pageInFlash s.par p = true) :
    nvmStep s = .next (eraseDone p s) := by
  simp only [nvmStep, h, if_pos hp]

theorem nvmStep_write {s : State} {p : Nat} (h : s.nvmOp = .write p) (hp : pageInFlash s.par p = true) :
    nvmStep s = .next (writeDone p s) := by
  simp only [nvmStep, h, if_pos hp]

/-- Settles O34: the completion erases the page's range of addresses and ends the operation. -/
theorem eraseCompletionErasesThePage : Obligations.EraseCompletionErasesThePage := fun _ _ h hp =>
  ⟨_, nvmStep_erase h hp, rfl, Memory.read_eraseRange _ _ _, rfl, rfl, rfl, rfl, rfl⟩

/-- Settles O35: the completion writes the page's range from the page buffer, then clears the buffer. -/
theorem writeCompletionProgramsThePage : Obligations.WriteCompletionProgramsThePage := fun _ _ h hp hwf =>
  ⟨_, nvmStep_write h hp, rfl, fun a => Memory.read_writeRange hwf _ _ a _, fun _ => rfl, rfl, rfl, rfl, rfl⟩

/-! ### The points at which the page buffer is written (R232, R237) -/

/-- What a move can do to the page buffer, with the point at which it does so: `BufferStep` with its places named. -/
inductive BufferWrite (s t : State) : Prop
  | kept (h : SameBuffer s t)
  /-- the completion of a page write, the exit report, a device reset (R232) -/
  | cleared (h : SameBuffer (clearPageBuffer s) t)
      (at_ : (∃ p, s.nvmOp = .write p ∧ t.nvmOp = .idle) ∨ (s.fsm = some .srDone ∧ t.fsm = some .exitSettle) ∨
        t.bootPhase = .decide)
  /-- a FILL (R237) -/
  | filled (a : Nat) (w : Word16) (h : SameBuffer (fill a w s) t)
      (at_ : s.fsm = some .flWord ∨ s.fsm = some .flEraseWait)

theorem nvmStep_bufferWrite {s t : State} (h : nvmStep s = .next t) : BufferWrite s t := by
  rcases nvmStep_next h with ⟨-, rfl⟩ | ⟨_, -, -, rfl⟩ | ⟨p, hp, -, rfl⟩
  · exact .kept ⟨rfl, rfl⟩
  · exact .kept ⟨rfl, rfl⟩
  · exact .cleared ⟨rfl, rfl⟩ (.inl ⟨p, hp, rfl⟩)

theorem engineStep_bufferWrite {s t : State} (h : engineStep s = .next t) : BufferWrite s t := by
  rcases engineStep_next h with ⟨-, rfl⟩ | ⟨-, h⟩ | ⟨-, h⟩ | ⟨-, h⟩ | ⟨-, h⟩ | ⟨hw, h⟩ | ⟨hw, h⟩ | ⟨hw, h⟩ |
    ⟨-, rfl⟩ | ⟨-, rfl⟩
  · exact .kept ⟨rfl, rfl⟩
  · have haccept : SameBuffer s (acceptSetup s) := ⟨rfl, rfl⟩
    exact .kept (haccept.trans (exec_sameBuffer h))
  · exact .kept (sendStep_sameBuffer h)
  · exact .kept (addrStep_sameBuffer h)
  · exact .kept (receiveStep_sameBuffer h)
  · rcases reportStep_buffer h with rfl | hs
    · exact .cleared ⟨rfl, rfl⟩ (.inr (.inl ⟨hw, rfl⟩))
    · exact .kept hs
  · rcases flWordStep_buffer h with hs | ⟨a, w, hs⟩
    · exact .kept hs
    · exact .filled a w hs (.inl hw)
  · obtain ⟨a, w, hs⟩ := flEraseStep_buffer h
    exact .filled a w hs (.inr hw)
  · exact .kept ⟨rfl, rfl⟩
  · exact .kept ⟨rfl, rfl⟩

theorem bootTurn_bufferWrite {s t : State} (h : bootTurn s = .next t) : BufferWrite s t := by
  rcases bootTurn_next h with rfl | ⟨he, rfl⟩
  · exact .kept ⟨rfl, rfl⟩
  · rcases bootStep_cases he with ⟨-, hb⟩ | ⟨-, -, -, hb⟩ | ⟨-, -, hb⟩ <;> rw [hb]
    · exact .kept (bootCapture_sameBuffer s)
    · exact .kept (tick_sameBuffer s)
    · exact .cleared ⟨rfl, rfl⟩ (.inr (.inr rfl))

theorem runMove_bufferWrite {m : Move} {s t : State} (h : runMove m s = .next t) : BufferWrite s t := by
  cases m with
  | host tok => exact .kept (hostToken_sameBuffer h)
  | physReset c =>
    rw [← next_inj.1 h]
    exact .cleared ⟨rfl, rfl⟩ (.inr (.inr rfl))
  | nvm => exact nvmStep_bufferWrite h
  | busHandler => rcases busHandlerTurn_next h with rfl | ⟨-, rfl⟩ <;> exact .kept ⟨rfl, rfl⟩
  | engine =>
    rcases engineTurn_next h with rfl | ⟨-, h⟩
    · exact .kept ⟨rfl, rfl⟩
    · exact engineStep_bufferWrite h
  | boot => exact bootTurn_bufferWrite h

/-- Settles O37: a kept buffer meets neither premise, a cleared one is untagged, and a filled one is tagged. -/
theorem pageBufferIsClearedOnlyAtItsPoints : Obligations.PageBufferIsClearedOnlyAtItsPoints := by
  intro s t h
  obtain ⟨-, m, -, hm⟩ := step_next h
  cases runMove_bufferWrite hm with
  | kept hs => exact ⟨fun htag huntag => absurd (hs.tag.symm.trans huntag) htag, fun _ hne => absurd hs.data hne⟩
  | cleared hs hat => exact ⟨fun _ _ => ⟨fun k => congrArg (·.read k) hs.data, hat⟩, fun htag => absurd hs.tag htag⟩
  | filled a w hs hat => exact ⟨fun _ huntag => absurd (hs.tag.symm.trans huntag) nofun, fun _ _ => hat⟩

end Sys2Proof.Machine
end

section
/-! SUPPORT. A chunk from any point of a session to its end (43_flash_engine.md R243): what the two memories hold while a page
is open, one word as a run of the unscripted block, and the chunk as an induction over its words. -/

namespace Sys2Proof.Machine

variable {s t u : State} {A : Nat} {w : Nat → Word16} {old : Memory} {f : FlCtx}

/-! ### Runs -/

/-- Some number of steps leads from `s` to `t`. -/
def Reaches (s t : State) : Prop := ∃ k, Host.Core.run Sys2Proof.core k s = (.next t : Result)

theorem Reaches.refl (s : State) : Reaches s s := ⟨0, rfl⟩

theorem Reaches.trans (h : Reaches s t) (h' : Reaches t u) : Reaches s u := by
  obtain ⟨m, hm⟩ := h
  obtain ⟨n, hn⟩ := h'
  exact ⟨m + n, (run_add hm n).trans hn⟩

theorem Reaches.head (h : step s = .next t) (h' : Reaches t u) : Reaches s u :=
  Reaches.trans ⟨1, run_succ h 0⟩ h'

/-- Nothing is scripted, no fault is recorded, and USB is up: the block runs by itself (log 1). -/
abbrev State.unscripted (s : State) : Prop := s.faults = [] ∧ s.script = [] ∧ s.bootPhase = .usb

/-- With no operation in progress the unscripted block gives an engine that has left IDLE the turn. -/
theorem step_engineTurn (hs : s.unscripted) (hn : s.nvmOp = .idle) (hi : s.fsm ≠ some .idle)
    (he : fsmEnabled s = true) : step s = engineTurn s := by
  obtain ⟨hf, hsc, hp⟩ := hs
  rw [step_unscripted hf hsc, idleTurn_engine hn (busHandler_off hi) (engineEnabled_iff.2 ⟨hp, hf, he⟩),
    engineTurn_enabled hf hp he]

/-- An erase in progress has the turn until it is done (R236). -/
theorem step_eraseDone {p : Nat} (hs : s.unscripted) (hn : s.nvmOp = .erase p) (hp : pageInFlash s.par p = true) :
    step s = .next (eraseDone p s) := by
  obtain ⟨hf, hsc, -⟩ := hs
  rw [step_unscripted hf hsc, idleTurn_nvm (by simp [hn]), nvmStep_erase hn hp]

/-- A page write in progress has the turn until it is done (R240). -/
theorem step_writeDone {p : Nat} (hs : s.unscripted) (hn : s.nvmOp = .write p) (hp : pageInFlash s.par p = true) :
    step s = .next (writeDone p s) := by
  obtain ⟨hf, hsc, -⟩ := hs
  rw [step_unscripted hf hsc, idleTurn_nvm (by simp [hn]), nvmStep_write hn hp]

/-- After a page write the engine goes on at FL_WORD (R242). -/
theorem step_flWriteWait (hs : s.unscripted) (hn : s.nvmOp = .idle) (hw : s.fsm = some .flWriteWait) :
    step s = .next (flWriteStep s) := by
  obtain ⟨hf, hsc, hp⟩ := hs
  rw [step_engineTurn ⟨hf, hsc, hp⟩ hn (by simp [hw]) (by simp [fsmEnabled, hw, hn]), engineTurn_flWriteWait hf hp hw hn]

/-! ### The page in progress -/

/-- FLASH `fm` and the page buffer `pb` while the page of `ps` bytes at `B` is filled, in a session of the words `w` from `A`
on, in a FLASH that held `old`: the pages before it hold their words, the page is erased, and its first `k` bytes are
staged. -/
structure PageOpen (ps A B k : Nat) (w : Nat → Word16) (old fm pb : Memory) : Prop where
  flashWf : fm.wf = true
  pbWf    : pb.wf = true
  flash   : ∀ x, fm.read x =
    if A ≤ x ∧ x < B then wordByte w (x - A) else if B ≤ x ∧ x < B + ps then 0xFF else old.read x
  buffer  : ∀ j, pb.read j = if j < k then wordByte w (B - A + j) else 0xFF

/-- A session that has stopped inside a page has it open. -/
theorem State.Programmed.pageOpen {a : Nat} (h : s.Programmed A a w old) (ha : a % s.par.pageSize ≠ 0) :
    PageOpen s.par.pageSize A (a - a % s.par.pageSize) (a % s.par.pageSize) w old s.flash s.pbData where
  flashWf := h.flashWf
  pbWf := h.pbWf
  flash := fun x => by rw [h.flash]; simp only [ha, ne_eq, not_false_eq_true, true_and]
  buffer := h.buffer

/-- The base of an address's page. -/
theorem pageBase_pageOf (p : Params) (a : Nat) : pageBase p (pageOf p a) = a - a % p.pageSize :=
  Nat.eq_sub_of_add_eq (base_add_offset p a)

/-- A session that has stopped at a page boundary has the next page open once that is erased (R236). -/
theorem State.Programmed.pageOpen_eraseRange {a : Nat} (h : s.Programmed A a w old) (ha : a % s.par.pageSize = 0) :
    PageOpen s.par.pageSize A (a - a % s.par.pageSize) (a % s.par.pageSize) w old
      (s.flash.eraseRange (pageBase s.par (pageOf s.par a)) s.par.pageSize) s.pbData where
  flashWf := Memory.wf_eraseRange h.flashWf _ _
  pbWf := h.pbWf
  flash := fun x => by
    rw [Memory.read_eraseRange, h.flash, pageBase_pageOf, ha, Nat.sub_zero]
    by_cases hx : A ≤ x ∧ x < a
    · rw [if_neg (by omega), if_pos hx, if_pos hx]
    · simp only [if_neg hx, ne_eq, not_true_eq_false, false_and, if_false]
      rfl
  buffer := h.buffer

/-- The next word of the page staged (R237). -/
theorem PageOpen.fill {ps B k : Nat} {fm pb : Memory} (h : PageOpen ps A B k w old fm pb)
    (hk : (B - A + k) % 2 = 0) :
    PageOpen ps A B (k + 2) w old fm
      ((pb.write k (lo8 (w ((B - A + k) / 2)))).write (k + 1) (hi8 (w ((B - A + k) / 2)))) where
  flashWf := h.flashWf
  pbWf := Memory.wf_write (Memory.wf_write h.pbWf _ _) _ _
  flash := h.flash
  buffer := fun j => by
    rw [Memory.read_write (Memory.wf_write h.pbWf _ _), Memory.read_write h.pbWf, h.buffer]
    by_cases hhi : k + 1 = j
    · rw [if_pos hhi, if_pos (by omega), ← hhi, ← Nat.add_assoc, wordByte_odd w hk]
    · by_cases hlo : k = j
      · rw [if_neg hhi, if_pos hlo, if_pos (by omega), ← hlo, wordByte_even w hk]
      · have hiff : j < k ↔ j < k + 2 := by omega
        simp only [if_neg hhi, if_neg hlo, hiff]

/-- Inside the page the session has come to the byte behind the staged ones. -/
theorem PageOpen.programmed_inside {a B k : Nat} (h : PageOpen t.par.pageSize A B k w old t.flash t.pbData)
    (ha : a = B + k) (hA : A ≤ B) (hk : k ≠ 0) (hmod : a % t.par.pageSize = k)
    (htag : t.pbTag = some (a / t.par.pageSize)) (hlast : t.sessLast = some (a - 2)) : t.Programmed A a w old where
  flashWf := h.flashWf
  pbWf := h.pbWf
  flash := fun x => by
    rw [h.flash, hmod, ha, Nat.add_sub_cancel]
    simp only [hk, ne_eq, not_false_eq_true, true_and]
  buffer := fun j => by rw [h.buffer, hmod, ha, Nat.add_sub_cancel]
  clear := fun h0 => absurd (hmod.symm.trans h0) hk
  tag := by rw [htag, hmod, if_neg hk]
  last := by rw [if_neg (by omega), hlast]

/-- A page all of whose bytes are staged is programmed by the completion of its write (R240). -/
theorem PageOpen.programmed_end {a B : Nat} {fm pb : Memory}
    (h : PageOpen t.par.pageSize A B t.par.pageSize w old fm pb) (ha : a = B + t.par.pageSize) (hA : A ≤ B)
    (hps : 2 ≤ t.par.pageSize) (hmod : a % t.par.pageSize = 0)
    (hflash : t.flash = fm.writeRange B t.par.pageSize pb.read) (hpb : t.pbData = []) (htag : t.pbTag = none)
    (hlast : t.sessLast = some (a - 2)) : t.Programmed A a w old where
  flashWf := by rw [hflash]; exact Memory.wf_writeRange h.flashWf _ _ _
  pbWf := by rw [hpb]; rfl
  flash := fun x => by
    rw [hflash, Memory.read_writeRange h.flashWf, h.flash, h.buffer, hmod, Nat.sub_zero]
    by_cases hx : B ≤ x ∧ x < B + t.par.pageSize
    · rw [if_pos hx, if_pos (by omega), if_pos (by omega)]
      congr 1
      omega
    · have hiff : (A ≤ x ∧ x < B) ↔ (A ≤ x ∧ x < a) := by omega
      simp only [if_neg hx, hiff, ne_eq, not_true_eq_false, false_and, if_false]
  buffer := fun j => by rw [hpb, hmod, if_neg (Nat.not_lt_zero j)]; rfl
  clear := fun _ => hpb
  tag := by rw [htag, if_pos hmod]
  last := by rw [if_neg (by omega), hlast]

/-- A page that is open is erased (R239). -/
theorem PageOpen.pageErased {p k : Nat} {pb : Memory}
    (h : PageOpen s.par.pageSize A (pageBase s.par p) k w old s.flash pb) : pageErased s p = true :=
  (pageErased_iff s p).2 fun j hj => by
    rw [h.flash, if_neg (by omega), if_pos (by omega)]
    rfl

/-! ### What a chunk changes -/

/-- From `s` to `t` nothing has changed but the registers of the chunk in progress and the flash controller, and
read-while-write has not been turned on. -/
structure ChunkFrame (s t : State) : Prop where
  eq  : t = { s with
    fsm := t.fsm, fl := t.fl, nvmOp := t.nvmOp, flash := t.flash, pbData := t.pbData, pbTag := t.pbTag,
    sessLast := t.sessLast, rwwEnabled := t.rwwEnabled }
  rww : t.rwwEnabled = true → s.rwwEnabled = true

namespace ChunkFrame

theorem trans (h : ChunkFrame s t) (h' : ChunkFrame t u) : ChunkFrame s u where
  eq := h'.eq.trans (congrArg (fun v : State => { v with
    fsm := u.fsm, fl := u.fl, nvmOp := u.nvmOp, flash := u.flash, pbData := u.pbData, pbTag := u.pbTag,
    sessLast := u.sessLast, rwwEnabled := u.rwwEnabled }) h.eq)
  rww := fun hu => h.rww (h'.rww hu)

theorem refl (s : State) : ChunkFrame s s := ⟨rfl, id⟩

theorem goto (g : Fsm) (s : State) : ChunkFrame s (Machine.goto g s) := ⟨rfl, id⟩

theorem fillAdvance (f : FlCtx) (v : Word16) (s : State) : ChunkFrame s (Machine.fillAdvance f v s) := ⟨rfl, id⟩

theorem eraseDone (p : Nat) (s : State) : ChunkFrame s (Machine.eraseDone p s) := ⟨rfl, id⟩

theorem writeDone (p : Nat) (s : State) : ChunkFrame s (Machine.writeDone p s) := ⟨rfl, id⟩

/-- An operation on an application page turns read-while-write off, one on another page leaves it (R231). -/
theorem rww_kept {b c : Bool} (h : (if b = true then false else c) = true) : c = true := by
  cases b
  · exact h
  · exact absurd h nofun

theorem startErase (p : Nat) (s : State) : ChunkFrame s (Machine.startErase p s) := ⟨rfl, rww_kept⟩

theorem startWrite (p : Nat) (s : State) : ChunkFrame s (Machine.startWrite p s) := ⟨rfl, rww_kept⟩

theorem par (h : ChunkFrame s t) : t.par = s.par := by rw [h.eq]

theorem ep0Configured (h : ChunkFrame s t) : t.ep0Configured = s.ep0Configured := by rw [h.eq]

theorem ep0InArmed (h : ChunkFrame s t) : t.ep0InArmed = s.ep0InArmed := by rw [h.eq]

theorem ep0InBuf (h : ChunkFrame s t) : t.ep0InBuf = s.ep0InBuf := by rw [h.eq]

theorem rpt (h : ChunkFrame s t) : t.rpt = s.rpt := by rw [h.eq]

theorem unscripted (h : ChunkFrame s t) (hs : s.unscripted) : t.unscripted := by
  rw [h.eq]
  exact hs

end ChunkFrame

/-! ### One word -/

/-- The block runs by itself, and the words of the chunk of `f` from its index on are those of `w` at their places: at even
addresses, at or above the page-aligned `A` and below the boot section. -/
structure State.HasWords (s : State) (A : Nat) (w : Nat → Word16) (f : FlCtx) : Prop where
  parWf      : s.par.wf = true
  unscripted : s.unscripted
  le         : f.i ≤ f.n
  aligned    : A % s.par.pageSize = 0
  above      : A ≤ f.addr
  even       : f.addr % 2 = 0
  endsBelow  : f.addr + 2 * (f.n - f.i) ≤ s.par.bootStart
  words      : ∀ j, j < f.n - f.i → chunkWord s.rpt (f.i + j) = some (w ((f.addr - A) / 2 + j))

/-- A chunk that goes on keeps its words. -/
theorem State.HasWords.frame (h : s.HasWords A w f) (hfr : ChunkFrame s t) : t.HasWords A w f where
  parWf := hfr.par ▸ h.parWf
  unscripted := hfr.unscripted h.unscripted
  le := h.le
  aligned := hfr.par ▸ h.aligned
  above := h.above
  even := h.even
  endsBelow := hfr.par ▸ h.endsBelow
  words := hfr.rpt ▸ h.words

/-- There is a word left. -/
structure State.HasWord (s : State) (A : Nat) (w : Nat → Word16) (f : FlCtx) : Prop extends s.HasWords A w f where
  more : f.i < f.n

theorem State.HasWord.below (h : s.HasWord A w f) : f.addr + 2 ≤ s.par.bootStart := by
  have hmore := h.more
  have hends := h.endsBelow
  omega

theorem State.HasWord.word (h : s.HasWord A w f) : chunkWord s.rpt f.i = some (w ((f.addr - A) / 2)) :=
  h.words 0 (Nat.sub_pos_of_lt h.more)

/-- The words behind the next one. -/
theorem State.HasWord.tail (h : s.HasWord A w f) : s.HasWords A w ⟨f.addr + 2, f.i + 1, f.n⟩ where
  parWf := h.parWf
  unscripted := h.unscripted
  le := h.more
  aligned := h.aligned
  above := Nat.le_add_right_of_le h.above
  even := by rw [Nat.add_mod_right, h.even]
  endsBelow := by
    have hmore := h.more
    have hends := h.endsBelow
    dsimp only
    omega
  words := fun j hj => by
    have hword := h.words (j + 1) (by dsimp only at hj; omega)
    have habove := h.above
    have hindex : (f.addr + 2 - A) / 2 + j = (f.addr - A) / 2 + (j + 1) := by omega
    rw [hindex, ← hword, Nat.add_assoc, Nat.add_comm 1 j]

/-- The engine is at FL_WORD with the chunk of `f`, and the words before it are programmed or staged. -/
structure State.AtWord (s : State) (A : Nat) (w : Nat → Word16) (old : Memory) (f : FlCtx) : Prop where
  fsm  : s.fsm = some .flWord
  fl   : s.fl = some f
  nvm  : s.nvmOp = .idle
  prog : s.Programmed A f.addr w old

/-- The engine's next segment stages the word of `f` in its page, which is open. -/
structure State.AtStaging (s : State) (A : Nat) (w : Nat → Word16) (old : Memory) (f : FlCtx) : Prop where
  staging : s.staging f
  fl      : s.fl = some f
  nvm     : s.nvmOp = .idle
  page    : PageOpen s.par.pageSize A (f.addr - f.addr % s.par.pageSize) (f.addr % s.par.pageSize) w old s.flash s.pbData

/-- An address at or above a page boundary is in a page that begins at or above it. -/
theorem le_sub_mod {ps a : Nat} (hA : A % ps = 0) (h : A ≤ a) : A ≤ a - a % ps := by
  have h1 : ps * (A / ps) ≤ ps * (a / ps) := Nat.mul_le_mul_left ps (Nat.div_le_div_right h)
  have h2 := Nat.div_add_mod A ps
  have h3 := Nat.div_add_mod a ps
  omega

/-- A page boundary is even. -/
theorem even_of_aligned {p : Params} (hp : p.wf = true) (hA : A % p.pageSize = 0) : A % 2 = 0 := by
  obtain ⟨-, heven⟩ := Params.wf_pageSize_pos hp
  rw [← Nat.mod_mod_of_dvd A (Nat.dvd_of_mod_eq_zero heven), hA]

/-- The next word of a session has no hazard (R234). -/
theorem State.AtWord.checkWord_none (h : s.AtWord A w old f) (hw : s.HasWord A w f) : checkWord s f.addr = none := by
  obtain ⟨-, -, -, hbf, -⟩ := Params.wf_numbers hw.parWf
  have hbelow := hw.below
  refine Machine.checkWord_none.2 ⟨hw.even, by omega, sessLast_lt h.prog hw.above, fun p htag => ?_, by omega⟩
  rw [h.prog.tag] at htag
  split at htag
  · exact nomatch htag
  · exact (Option.some.inj htag).symm

/-- The page of a word lies inside FLASH. -/
theorem State.HasWord.pageInFlash (hw : s.HasWord A w f) : pageInFlash s.par (pageOf s.par f.addr) = true := by
  have hbelow := hw.below
  exact (page_in_flash hw.parWf (by omega)).2

/-- Inside a page the word is staged at once; at its first address the page is erased before (R233, R236). -/
theorem State.AtWord.reaches_staging (h : s.AtWord A w old f) (hw : s.HasWord A w f) :
    ∃ t, Reaches s t ∧ ChunkFrame s t ∧ t.AtStaging A w old f := by
  have hcheck := h.checkWord_none hw
  have hi : f.i ≠ f.n := Nat.ne_of_lt hw.more
  by_cases ho : f.addr % s.par.pageSize = 0
  · obtain ⟨hf, -, hph⟩ := hw.unscripted
    have herase : step s = .next (goto .flEraseWait (startErase (pageOf s.par f.addr) s)) := by
      rw [step_engineTurn hw.unscripted h.nvm (by simp [h.fsm]) (by simp [fsmEnabled, h.fsm]),
        engineTurn_flWord hf hph h.fsm, flWordStep_word h.fl hi hw.word, writeWord_aligned hcheck ho]
    exact ⟨_, .head herase (.head (step_eraseDone hw.unscripted rfl hw.pageInFlash) (.refl _)),
      ((ChunkFrame.startErase _ s).trans (.goto _ _)).trans (.eraseDone _ _), .inr ⟨rfl, rfl⟩, h.fl, rfl,
      h.prog.pageOpen_eraseRange ho⟩
  · exact ⟨s, .refl s, .refl s, .inl ⟨h.fsm, hi, hcheck, ho⟩, h.fl, h.nvm, h.prog.pageOpen ho⟩

/-- The step that stages the word, with the commit behind it. -/
theorem State.AtStaging.step_eq (h : s.AtStaging A w old f) (hw : s.HasWord A w f) :
    step s = .next (fillAndAdvance f (w ((f.addr - A) / 2)) s) := by
  obtain ⟨hf, -, hph⟩ := hw.unscripted
  have hen : s.fsm ≠ some .idle ∧ fsmEnabled s = true := by
    rcases h.staging with ⟨hfsm, -⟩ | ⟨hfsm, hn⟩
    · simp [fsmEnabled, hfsm]
    · simp [fsmEnabled, hfsm, hn]
  rw [step_engineTurn hw.unscripted h.nvm hen.1 hen.2, engineTurn_staging hf hph h.fl hw.word h.staging]

/-- The page with the word staged in it. -/
theorem State.AtStaging.pageOpen_fillAdvance (h : s.AtStaging A w old f) (hw : s.HasWord A w f) :
    PageOpen s.par.pageSize A (f.addr - f.addr % s.par.pageSize) (f.addr % s.par.pageSize + 2) w old s.flash
      (fillAdvance f (w ((f.addr - A) / 2)) s).pbData := by
  have hA := le_sub_mod hw.aligned hw.above
  have hA2 := even_of_aligned hw.parWf hw.aligned
  have hf2 := hw.even
  have hmod := Nat.mod_le f.addr s.par.pageSize
  have hplace : f.addr - f.addr % s.par.pageSize - A + f.addr % s.par.pageSize = f.addr - A := by omega
  have hfill := h.page.fill (by omega)
  rw [hplace] at hfill
  exact hfill

/-- Below the boot section the address does not wrap (R233). -/
theorem State.HasWord.truncTo_next (hw : s.HasWord A w f) : truncTo (addrWidth s.par) (f.addr + 2) = f.addr + 2 := by
  obtain ⟨-, -, -, hbf, -⟩ := Params.wf_numbers hw.parWf
  have hle := flashSize_le_addr hw.parWf
  have hbelow := hw.below
  exact Nat.mod_eq_of_lt (by omega)

/-- The chunk's registers behind a staged word. -/
theorem State.HasWord.fl_fillAdvance (hw : s.HasWord A w f) (v : Word16) :
    (fillAdvance f v s).fl = some ⟨f.addr + 2, f.i + 1, f.n⟩ := by
  rw [fillAdvance_fl, hw.truncTo_next]

/-- A word before the last one of its page is staged, and the next one follows (R233). -/
theorem State.AtStaging.reaches_inside (h : s.AtStaging A w old f) (hw : s.HasWord A w f)
    (hmod : (f.addr + 2) % s.par.pageSize = f.addr % s.par.pageSize + 2)
    (hdiv : (f.addr + 2) / s.par.pageSize = f.addr / s.par.pageSize) :
    ∃ t, Reaches s t ∧ ChunkFrame s t ∧ t.AtWord A w old ⟨f.addr + 2, f.i + 1, f.n⟩ := by
  have hstep := h.step_eq hw
  have hpage := h.pageOpen_fillAdvance hw
  have hbase : f.addr - f.addr % s.par.pageSize + (f.addr % s.par.pageSize + 2) = f.addr + 2 := by
    have hle := Nat.mod_le f.addr s.par.pageSize
    omega
  rw [fillAndAdvance_inside (by rw [hw.truncTo_next, offsetOf, hmod]; omega)] at hstep
  refine ⟨_, .head hstep (.refl _), (ChunkFrame.fillAdvance f _ s).trans (.goto _ _), rfl,
    hw.fl_fillAdvance (w ((f.addr - A) / 2)), h.nvm, ?_⟩
  exact PageOpen.programmed_inside hpage hbase.symm (le_sub_mod hw.aligned hw.above) (Nat.succ_ne_zero _) hmod
    (congrArg some hdiv.symm) rfl

/-- The last word of a page is staged, the page is committed, since it is erased, and written (R238 to R242). -/
theorem State.AtStaging.reaches_end (h : s.AtStaging A w old f) (hw : s.HasWord A w f)
    (hend : f.addr % s.par.pageSize + 2 = s.par.pageSize) (hmod : (f.addr + 2) % s.par.pageSize = 0) :
    ∃ t, Reaches s t ∧ ChunkFrame s t ∧ t.AtWord A w old ⟨f.addr + 2, f.i + 1, f.n⟩ := by
  have hstep := h.step_eq hw
  have hpage := h.pageOpen_fillAdvance hw
  obtain ⟨hps, -⟩ := Params.wf_pageSize_pos hw.parWf
  have hbase : f.addr - f.addr % s.par.pageSize + s.par.pageSize = f.addr + 2 := by
    have hle := Nat.mod_le f.addr s.par.pageSize
    omega
  have hoff : offsetOf s.par (truncTo (addrWidth s.par) (f.addr + 2)) = 0 := by rw [hw.truncTo_next]; exact hmod
  rw [← pageBase_pageOf] at hpage
  rw [fillAndAdvance_end hoff, commit_erased (PageOpen.pageErased (s := fillAdvance f _ s) hpage)] at hstep
  rw [pageBase_pageOf, hend] at hpage
  refine ⟨_, .head hstep (.head (step_writeDone hw.unscripted rfl hw.pageInFlash)
    (.head (step_flWriteWait hw.unscripted rfl rfl) (.refl _))),
    ((((ChunkFrame.fillAdvance f _ s).trans (.startWrite _ _)).trans (.goto _ _)).trans (.writeDone _ _)).trans (.goto _ _),
    rfl, hw.fl_fillAdvance (w ((f.addr - A) / 2)), rfl, ?_⟩
  exact PageOpen.programmed_end hpage hbase.symm (le_sub_mod hw.aligned hw.above) hps hmod
    (by rw [← pageBase_pageOf]; rfl) rfl rfl rfl

/-- One word: the engine is back at FL_WORD behind it, with no fault (R243). -/
theorem State.AtWord.reaches_next (h : s.AtWord A w old f) (hw : s.HasWord A w f) :
    ∃ t, Reaches s t ∧ ChunkFrame s t ∧ t.AtWord A w old ⟨f.addr + 2, f.i + 1, f.n⟩ := by
  obtain ⟨u, hsu, hframe, hu⟩ := h.reaches_staging hw
  have hwu : u.HasWord A w f := ⟨hw.frame hframe, hw.more⟩
  obtain ⟨hps, heven⟩ := Params.wf_pageSize_pos hwu.parWf
  have hnext : ∃ t, Reaches u t ∧ ChunkFrame u t ∧ t.AtWord A w old ⟨f.addr + 2, f.i + 1, f.n⟩ := by
    rcases page_next hps heven hw.even with ⟨-, hmod, hdiv⟩ | ⟨hend, hmod, -⟩
    · exact hu.reaches_inside hwu hmod hdiv
    · exact hu.reaches_end hwu hend hmod
  obtain ⟨t, hut, hframe', ht⟩ := hnext
  exact ⟨t, hsu.trans hut, hframe.trans hframe', ht⟩

/-! ### The words of a chunk, and its end -/

/-- The words of a chunk, one after the other. -/
theorem State.AtWord.reaches_done {s : State} {f : FlCtx} (h : s.AtWord A w old f) (hw : s.HasWords A w f) :
    ∃ t, Reaches s t ∧ ChunkFrame s t ∧ t.AtWord A w old ⟨f.addr + 2 * (f.n - f.i), f.n, f.n⟩ := by
  by_cases hi : f.i < f.n
  · have hword : s.HasWord A w f := ⟨hw, hi⟩
    obtain ⟨u, hsu, hframe, hu⟩ := h.reaches_next hword
    obtain ⟨t, hut, hframe', ht⟩ := hu.reaches_done (hword.tail.frame hframe)
    have haddr : f.addr + 2 + 2 * (f.n - (f.i + 1)) = f.addr + 2 * (f.n - f.i) := by omega
    exact ⟨t, hsu.trans hut, hframe.trans hframe', haddr ▸ ht⟩
  · obtain ⟨a, i, n⟩ := f
    obtain rfl : i = n := Nat.le_antisymm hw.le (Nat.not_lt.1 hi)
    exact ⟨s, .refl s, .refl s, by simpa using h⟩
termination_by f.n - f.i

/-- The end of a chunk, with the status packet in ProcessThenAck mode (42_hid_feature_reports.md R203). -/
theorem chunkDone_eq (s : State) : chunkDone s = { s.idled with
    led := false
    ep0InArmed := if s.par.ackOrder = .processThenAck ∧ s.ep0Configured = true then true else s.ep0InArmed
    ep0InBuf := if s.par.ackOrder = .processThenAck ∧ s.ep0Configured = true then [] else s.ep0InBuf } := by
  cases ho : s.par.ackOrder with
  | ackThenProcess =>
    rw [chunkDone, toIdle_lateAck_of_ackThenProcess (s := { s with led := false }) ho]
    simp [State.idled]
  | processThenAck =>
    rw [chunkDone, toIdle_lateAck_of_processThenAck (s := { s with led := false }) ho]
    simp [State.idled]

/-- The step at FL_WORD behind the last word. -/
theorem State.AtWord.step_done (h : s.AtWord A w old f) (hs : s.unscripted) (hi : f.i = f.n) :
    step s = .next (chunkDone s) := by
  obtain ⟨hf, hsc, hp⟩ := hs
  rw [step_engineTurn ⟨hf, hsc, hp⟩ h.nvm (by simp [h.fsm]) (by simp [fsmEnabled, h.fsm]),
    engineTurn_flWord hf hp h.fsm, flWordStep_done h.fl hi]

/-- Settles O38: the induction over the words, and the end of the chunk on the state it leaves. -/
theorem chunkIsProgrammed : Obligations.ChunkIsProgrammed := by
  intro s f A w old hwf hf hsc hp hn hw hl hle hA hAf heven hb hprog hwords
  obtain ⟨u, hsu, hframe, hu⟩ := State.AtWord.reaches_done ⟨hw, hl, hn, hprog⟩
    ⟨hwf, ⟨hf, hsc, hp⟩, hle, hA, hAf, heven, hb, hwords⟩
  have hdone := hu.step_done (hframe.unscripted ⟨hf, hsc, hp⟩) rfl
  obtain ⟨k, hk⟩ := hsu.trans (.head hdone (.refl _))
  refine ⟨k, chunkDone u, hk, ?_, ?_, ?_⟩
  · rw [chunkDone_eq]
    exact { hu.prog with }
  · rw [chunkDone_eq]
    exact hframe.rww
  · have hidled : u.idled = { s.idled with
        flash := u.flash, pbData := u.pbData, pbTag := u.pbTag, sessLast := u.sessLast, rwwEnabled := u.rwwEnabled } := by
      refine (congrArg State.idled hframe.eq).trans ?_
      rw [hu.nvm, ← hn]
      rfl
    rw [chunkDone_eq, hidled, hframe.par, hframe.ep0Configured, hframe.ep0InArmed, hframe.ep0InBuf]

end Sys2Proof.Machine
end

section
/-! SUPPORT. The chunking law (43_flash_engine.md R243): one SET_REPORT transfer of report 2, from the SETUP to the status
stage, and the image as an induction over the transfers of its chunks. -/

namespace Sys2Proof.Machine

variable {s t u : State} {A a : Nat} {w : Nat → Word16} {old : Memory} {r : Request} {got b d : List Byte}
  {ws : List Word16}

/-! ### What the reception of a report changes -/

/-- From `s` to `t` nothing has changed but the request, the banks and the stall bit of EP0, the report buffer, the script
and the record of the answers. -/
structure ReportFrame (s t : State) : Prop where
  eq : t = { s with
    latch := t.latch, fsm := t.fsm, tx := t.tx, newAddr := t.newAddr, rxCnt := t.rxCnt, fl := t.fl,
    ep0SetupFull := t.ep0SetupFull, ep0SetupBuf := t.ep0SetupBuf, ep0OutFull := t.ep0OutFull, ep0OutBuf := t.ep0OutBuf,
    ep0InArmed := t.ep0InArmed, ep0InBuf := t.ep0InBuf, ep0Stall := t.ep0Stall, rpt := t.rpt, script := t.script,
    trace := t.trace }

namespace ReportFrame

theorem trans (h : ReportFrame s t) (h' : ReportFrame t u) : ReportFrame s u where
  eq := h'.eq.trans (congrArg (fun v : State => { v with
    latch := u.latch, fsm := u.fsm, tx := u.tx, newAddr := u.newAddr, rxCnt := u.rxCnt, fl := u.fl,
    ep0SetupFull := u.ep0SetupFull, ep0SetupBuf := u.ep0SetupBuf, ep0OutFull := u.ep0OutFull, ep0OutBuf := u.ep0OutBuf,
    ep0InArmed := u.ep0InArmed, ep0InBuf := u.ep0InBuf, ep0Stall := u.ep0Stall, rpt := u.rpt, script := u.script,
    trace := u.trace }) h.eq)

theorem par (h : ReportFrame s t) : t.par = s.par := by rw [h.eq]

theorem nvmOp (h : ReportFrame s t) : t.nvmOp = s.nvmOp := by rw [h.eq]

theorem bootPhase (h : ReportFrame s t) : t.bootPhase = s.bootPhase := by rw [h.eq]

theorem busresetPending (h : ReportFrame s t) : t.busresetPending = s.busresetPending := by rw [h.eq]

theorem intEn (h : ReportFrame s t) : t.intEn = s.intEn := by rw [h.eq]

theorem currentAddr (h : ReportFrame s t) : t.currentAddr = s.currentAddr := by
  rw [h.eq]
  rfl

theorem listening (h : ReportFrame s t) (hs : s.listening) : t.listening := by
  rw [h.eq]
  exact hs

theorem programmed (h : ReportFrame s t) (hs : s.Programmed A a w old) : t.Programmed A a w old := by
  rw [h.eq]
  exact { hs with }

end ReportFrame

/-! ### The SETUP of report 2 (42_hid_feature_reports.md R192, R199) -/

/-- The SETUP packet of a SET_REPORT of report 2 with `n` bytes of data. -/
def reportSetup (n : Nat) : SetupPacket := ⟨0x21, 0x09, 0x02, 0x03, 0, 0, byteOf n 0, byteOf n 1⟩

theorem decodeSetup_reportSetup (n : Nat) :
    decodeSetup (reportSetup n) = .hidSetReportFlash 0x03 0 (requestOf (reportSetup n)).len := by
  simp [decodeSetup, reportSetup, requestOf, le16]

theorem toNat_len_reportSetup {n : Nat} (h : n < 65536) : (requestOf (reportSetup n)).len.toNat = n :=
  toNat_le16_byteOf h

theorem lo8_val_reportSetup (n : Nat) : lo8 (requestOf (reportSetup n)).val = 0x02 := lo8_le16 0x02 0x03

/-- The block is ready for the host's next transfer. -/
structure State.HostReady (s : State) : Prop where
  listening : s.listening
  quiescent : s.quiescentReady
  intEn     : s.intEn = true
  rptLen    : s.rpt.length = 132

/-- The bytes `got` of the data of request `r`, begun in `s`, have come, and the phase is over if they are all. -/
structure Received (s : State) (r : Request) (got : List Byte) (t : State) : Prop where
  frame     : ReportFrame s t
  fsm       : t.fsm = some (if got.length = r.len.toNat then .srDone else .recvWait)
  latch     : t.latch = some r
  rxCnt     : t.rxCnt = some got.length
  rptLen    : t.rpt.length = 132
  rptTake   : t.rpt.take got.length = got
  setupFull : t.ep0SetupFull = false
  outFull   : t.ep0OutFull = false
  stall     : t.ep0Stall = false

/-- The SETUP packet `p` of the host has come, and the moves `rest` are left (41_control_transfer.md R132). -/
def State.withSetup (s : State) (p : SetupPacket) (rest : List Move) : State :=
  { s with
    script := rest, ep0SetupBuf := p, ep0SetupFull := true, ep0Stall := false
    trace := s.trace ++ [(.setup s.currentAddr p, .ack)] }

/-- The SETUP and its acceptance open the OUT data phase. -/
theorem State.HostReady.run_setup (h : s.HostReady) {n : Nat} (hn : n < 65536) (h0 : n ≠ 0) {rest : List Move}
    (hs : s.script = .host (.setup s.currentAddr (reportSetup n)) :: .engine :: rest) :
    ∃ t, Host.Core.run Sys2Proof.core 2 s = (.next t : Result) ∧ t.script = rest ∧
      Received s (requestOf (reportSetup n)) [] t := by
  obtain ⟨hf, hidle, -, hfull, hbus, hp⟩ := h.quiescent
  obtain ⟨-, -, -, hc⟩ := h.listening
  have hlen := toNat_len_reportSetup hn
  have hne : (requestOf (reportSetup n)).len ≠ 0 := fun he => h0 (by rw [← hlen, he]; rfl)
  have hsetup : step s = .next (s.withSetup (reportSetup n) (.engine :: rest)) :=
    (setupTokenFillsTheBank s _ _ h.listening hs).1 hfull (by simp [hidle]) (by simp [hidle]) (by simp [hidle])
  have haccept := step_accept_scripted (s := s.withSetup (reportSetup n) (.engine :: rest))
    ⟨hf, hp, hidle, rfl, hc, h.intEn, hbus⟩ rfl
  have hdecode : decodeSetup (s.withSetup (reportSetup n) (.engine :: rest)).ep0SetupBuf =
      .hidSetReportFlash 0x03 0 (requestOf (reportSetup n)).len := decodeSetup_reportSetup n
  rw [hdecode] at haccept
  have hbegin := haccept.trans (congrArg Host.Outcome.next (setReportBegin_of_ne_zero hne _))
  refine ⟨_, (run_succ hsetup 1).trans (run_succ hbegin 0), rfl, ?_⟩
  exact
    { frame := ⟨rfl⟩, latch := rfl, rxCnt := rfl, rptLen := h.rptLen, rptTake := rfl, setupFull := rfl, outFull := rfl
      stall := rfl
      fsm := by rw [hlen, List.length_nil, if_neg h0.symm]; rfl }

/-! ### The OUT data phase (42_hid_feature_reports.md R193) -/

/-- A packet that fits is stored, the phase ends or goes on, and nothing but the IN bank may differ besides. -/
theorem receiveNext_eq_storePacket (r : Request) (rx : Nat) (s : State) :
    ∃ armed buf, receiveNext r rx s =
      { storePacket rx s with
        fsm := some (if rx + s.ep0OutBuf.length = r.len.toNat ∨ s.ep0OutBuf.length < 64 then .srDone else .recvWait)
        ep0InArmed := armed, ep0InBuf := buf } := by
  unfold receiveNext
  split
  · rcases receiveComplete_cases (storePacket rx s) with h | h <;> exact ⟨_, _, h⟩
  · exact ⟨_, _, rfl⟩

/-- The packet `b` of the host has come, and the moves `rest` are left (41_control_transfer.md R133). -/
def State.withOut (s : State) (b : List Byte) (rest : List Move) : State :=
  { s with
    script := rest, ep0OutBuf := b, ep0OutFull := true
    trace := s.trace ++ [(.out s.currentAddr 0 b, .ack)] }

/-- One packet of the data, full unless it is the last one: the OUT of the host and the engine's receive step. -/
theorem Received.run_packet (h : Received s r got t) (hl : s.listening) (hp : s.bootPhase = .usb)
    (h132 : r.len.toNat ≤ 132) (hpos : 0 < b.length) (hb : b.length ≤ 64)
    (hle : got.length + b.length ≤ r.len.toNat) (hfull : b.length = 64 ∨ got.length + b.length = r.len.toNat)
    {rest : List Move} (hs : t.script = .host (.out s.currentAddr 0 b) :: .engine :: rest) :
    ∃ u, Host.Core.run Sys2Proof.core 2 t = (.next u : Result) ∧ u.script = rest ∧ Received s r (got ++ b) u := by
  have hlt := h.frame.listening hl
  have hwait : t.fsm = some .recvWait := by rw [h.fsm, if_neg (by omega)]
  have hout : step t = .next (t.withOut b (.engine :: rest)) := by
    rw [outTokenFillsTheBank t _ b hlt hb (h.frame.currentAddr ▸ hs), if_neg (by simp [h.stall]),
      if_neg (by simp [h.outFull])]
    rfl
  have hrecv : step (t.withOut b (.engine :: rest)) = .next (receiveNext r got.length (t.withOut b rest)) :=
    calc step (t.withOut b (.engine :: rest))
      _ = engineTurn (t.withOut b rest) :=
          step_scripted (s := t.withOut b (.engine :: rest)) hlt.1 rfl
      _ = receiveStep (t.withOut b rest) := engineTurn_recvWait hlt.1 (h.frame.bootPhase.trans hp) hwait rfl
      _ = _ := receiveStep_eq_receiveNext h.latch h.rxCnt hle (Nat.le_trans hle h132)
  obtain ⟨armed, buf, hnext⟩ := receiveNext_eq_storePacket r got.length (t.withOut b rest)
  rw [hnext] at hrecv
  have hiff : (got.length + b.length = r.len.toNat ∨ b.length < 64) ↔ (got ++ b).length = r.len.toNat := by
    rw [List.length_append]
    omega
  refine ⟨_, (run_succ hout 1).trans (run_succ hrecv 0), rfl, ?_⟩
  exact
    { frame := h.frame.trans ⟨rfl⟩, latch := h.latch, setupFull := h.setupFull, outFull := rfl, stall := h.stall
      fsm := congrArg some (if_congr hiff rfl rfl)
      rxCnt := congrArg some List.length_append.symm
      rptLen := length_rptStore h.rptLen (Nat.le_trans hle h132)
      rptTake := by
        have htake := take_rptStore (r := t.rpt) (p := b) (k := got.length) (by rw [h.rptLen]; omega)
        rw [h.rptTake, ← List.length_append] at htake
        exact htake }

/-- The rest `d` of the data, packet by packet. -/
theorem Received.run_packets {t : State} {got d : List Byte} (h : Received s r got t) (hl : s.listening)
    (hp : s.bootPhase = .usb) (hlen : got.length + d.length = r.len.toNat) (h132 : r.len.toNat ≤ 132)
    (hs : t.script = (outPackets d).flatMap (fun b => [.host (.out s.currentAddr 0 b), .engine])) :
    ∃ u, Host.Core.run Sys2Proof.core t.script.length t = (.next u : Result) ∧ u.script = [] ∧
      Received s r (got ++ d) u := by
  by_cases hd : d.length = 0
  · obtain rfl := List.eq_nil_of_length_eq_zero hd
    rw [hs, outPackets_nil, List.append_nil]
    exact ⟨t, rfl, hs, h⟩
  · have htake : (d.take 64).length = min 64 d.length := List.length_take
    have hdrop : (d.drop 64).length = d.length - 64 := List.length_drop
    rw [outPackets_cons (Nat.pos_of_ne_zero hd), List.flatMap_cons, List.cons_append,
      List.cons_append, List.nil_append] at hs
    obtain ⟨v, hv, hvs, hrv⟩ := h.run_packet hl hp h132 (by omega) (by omega) (by omega) (by omega) hs
    obtain ⟨u, hu, hus, hru⟩ := hrv.run_packets hl hp (by rw [List.length_append]; omega) h132 hvs
    have hsteps : t.script.length = 2 + v.script.length := by
      rw [hs, hvs, List.length_cons, List.length_cons, Nat.add_assoc, Nat.add_comm]
    refine ⟨u, ?_, hus, by rwa [List.append_assoc, List.take_append_drop] at hru⟩
    rw [hsteps]
    exact (run_add hv _).trans hu
termination_by d.length

/-! ### The chunk in the report buffer (42_hid_feature_reports.md R200 to R202) -/

/-- The chunk of the words `ws` at the address `a` can be sent and programmed: 1 to 64 words (64 in FullBuffer mode) below
the boot section, at an even address within reach of the 3-byte address field. -/
structure ChunkFits (p : Params) (a : Nat) (ws : List Word16) : Prop where
  pos   : 1 ≤ ws.length
  le    : ws.length ≤ 64
  mode  : p.chunkMode = .fullBuffer → ws.length = 64
  even  : a % 2 = 0
  below : a + 2 * ws.length ≤ p.bootStart
  reach : a + 2 * ws.length ≤ 2 ^ 24 * addrScale p

/-- The bytes received stand in the report buffer. -/
theorem Received.rpt_get (h : Received s r got t) {i : Nat} (hi : i < got.length) : t.rpt[i]? = got[i]? := by
  rw [← List.getElem?_take_of_lt hi, h.rptTake]

theorem le24_byteOf {q : Nat} (h : q < 2 ^ 24) : le24 (byteOf q 0) (byteOf q 1) (byteOf q 2) = q := by
  simp only [le24, toNat_byteOf]
  omega

/-- An even address is its scaled address field (R200). -/
theorem div_mul_addrScale (p : Params) (ha : a % 2 = 0) : a / addrScale p * addrScale p = a := by
  unfold addrScale
  split <;> omega

/-- The address the chunk was sent for is the one that is read (R200). -/
theorem Received.chunkAddr_eq {p : Params} (h : Received s r (chunkData p a ws) t) (hp : p.wf = true)
    (hfit : ChunkFits p a ws) : chunkAddr p t.rpt = some a := by
  have hlen := length_chunkData p a ws
  have hpos := hfit.pos
  have hbelow := hfit.below
  obtain ⟨-, -, -, hbf, -⟩ := Params.wf_numbers hp
  have hwidth := flashSize_le_addr hp
  have hq : a / addrScale p < 2 ^ 24 :=
    Nat.div_lt_of_lt_mul (by rw [Nat.mul_comm]; have := hfit.reach; omega)
  have h1 : t.rpt[1]? = some (byteOf (a / addrScale p) 0) := h.rpt_get (by omega)
  have h2 : t.rpt[2]? = some (byteOf (a / addrScale p) 1) := h.rpt_get (by omega)
  have h3 : t.rpt[3]? = some (byteOf (a / addrScale p) 2) := h.rpt_get (by omega)
  simp only [chunkAddr, h1, h2, h3]
  rw [le24_byteOf hq, div_mul_addrScale p hfit.even, truncTo, Nat.mod_eq_of_lt (by omega)]

/-- The words that were sent are the ones that are read (R202). -/
theorem Received.chunkWord_eq {p : Params} (h : Received s r (chunkData p a ws) t) {j : Nat} (hj : j < ws.length) :
    chunkWord t.rpt j = some ws[j] := by
  have hlen := length_chunkData p a ws
  obtain ⟨hlo, hhi⟩ := wordBytes_get ws j hj
  have get : ∀ i, i < 2 * ws.length →
      t.rpt[4 + i]? = (ws.flatMap (fun w => [lo8 w, hi8 w]))[i]? := fun i hi => by
    rw [h.rpt_get (by omega), chunkData, List.getElem?_append_right (by simp)]
    simp
  have hindex : 5 + 2 * j = 4 + (2 * j + 1) := by omega
  simp only [chunkWord, hindex, get (2 * j) (by omega), get (2 * j + 1) (by omega), hlo, hhi, le16_lo8_hi8]

/-- The count is that of the words sent (R201). -/
theorem wordCount_chunk {p : Params} (hfit : ChunkFits p a ws) : wordCount p.chunkMode (4 + 2 * ws.length) = ws.length := by
  rw [wordCount_eq]
  split
  · next hm => exact (hfit.mode hm).symm
  · rw [if_pos (by omega)]
    omega

/-- The decoder sets the chunk up. -/
theorem Received.step_flashReport {n : Nat} (h : Received s (requestOf (reportSetup n)) (chunkData s.par a ws) t)
    (hs : s.HostReady) (hp : s.par.wf = true) (hfit : ChunkFits s.par a ws) (hn : n = 4 + 2 * ws.length)
    (hsc : t.script = []) :
    step t = .next (goto .flWord { t with fl := some ⟨a, 0, ws.length⟩, led := true }) := by
  obtain ⟨hf, -, hnvm, -, -, hph⟩ := hs.quiescent
  obtain ⟨hft, -⟩ := h.frame.listening hs.listening
  have hpt := h.frame.bootPhase.trans hph
  have hle := hfit.le
  have hw : t.fsm = some .srDone := by
    rw [h.fsm, length_chunkData, toNat_len_reportSetup (by omega), if_pos hn.symm]
  have hrx : t.rxCnt = some (4 + 2 * ws.length) := by rw [h.rxCnt, length_chunkData]
  have haddr : chunkAddr t.par t.rpt = some a := by rw [h.frame.par]; exact h.chunkAddr_eq hp hfit
  rw [step_engineTurn ⟨hft, hsc, hpt⟩ (h.frame.nvmOp.trans hnvm) (by simp [hw]) (by simp [fsmEnabled, hw]),
    engineTurn_srDone hft hpt hw, reportStep_flash h.latch (lo8_val_reportSetup n), flashReport_of_some hrx haddr,
    h.frame.par, wordCount_chunk hfit]

/-! ### One transfer -/

/-- A session of the words `w` from `A` on has come to the address `a`, and the block is ready for its next chunk. -/
structure SessionAt (s : State) (A a : Nat) (w : Nat → Word16) (old : Memory) : Prop where
  ready   : s.HostReady
  parWf   : s.par.wf = true
  aligned : A % s.par.pageSize = 0
  above   : A ≤ a
  prog    : s.Programmed A a w old

/-- The data of a chunk arrives in the report buffer. -/
theorem SessionAt.run_report (h : SessionAt s A a w old) (hfit : ChunkFits s.par a ws)
    (hd : d = chunkData s.par a ws) :
    ∃ t, Host.Core.run Sys2Proof.core (reportScript s.currentAddr d).length
        { s with script := reportScript s.currentAddr d } = (.next t : Result) ∧ t.script = [] ∧
      Received s (requestOf (reportSetup d.length)) d t := by
  have hlen : d.length = 4 + 2 * ws.length := hd ▸ length_chunkData s.par a ws
  have hle := hfit.le
  have hreq := toNat_len_reportSetup (n := d.length) (by omega)
  have hready : ({ s with script := reportScript s.currentAddr d } : State).HostReady :=
    ⟨h.ready.listening, h.ready.quiescent, h.ready.intEn, h.ready.rptLen⟩
  obtain ⟨-, -, -, -, -, hph⟩ := h.ready.quiescent
  obtain ⟨v, hv, hvs, hrv⟩ := hready.run_setup (n := d.length) (by omega) (by omega) rfl
  obtain ⟨t, ht, hts, hrt⟩ := hrv.run_packets h.ready.listening hph (by rw [hreq, List.length_nil, Nat.zero_add])
    (by omega) hvs
  have hsteps : (reportScript s.currentAddr d).length = 2 + v.script.length := by
    rw [hvs, reportScript, List.length_append]
    rfl
  refine ⟨t, ?_, hts, { hrt with frame := ReportFrame.trans ⟨rfl⟩ hrt.frame }⟩
  rw [hsteps]
  exact (run_add hv _).trans ht

/-- The block programs the chunk it has received and is ready for the host again. -/
theorem SessionAt.run_chunk (h : SessionAt s A a w old) (hfit : ChunkFits s.par a ws)
    (hw : ∀ j (hj : j < ws.length), w ((a - A) / 2 + j) = ws[j]) (hd : d = chunkData s.par a ws)
    (hr : Received s (requestOf (reportSetup d.length)) d t) (hsc : t.script = []) :
    ∃ (k : Nat) (u : State), Host.Core.run Sys2Proof.core k t = (.next u : Result) ∧ u.HostReady ∧ u.par = s.par ∧
      u.Programmed A (a + 2 * ws.length) w old := by
  subst hd
  obtain ⟨hf, -⟩ := hr.frame.listening h.ready.listening
  obtain ⟨-, -, hnvm, -, hbus, hph⟩ := h.ready.quiescent
  have hflash := hr.step_flashReport h.ready h.parWf hfit (length_chunkData s.par a ws) hsc
  have hprog := hr.frame.programmed h.prog
  have hwords : ∀ j, j < ws.length → chunkWord t.rpt j = some (w ((a - A) / 2 + j)) := fun j hj =>
    (hr.chunkWord_eq hj).trans (congrArg some (hw j hj).symm)
  obtain ⟨k, u, hu, hprogu, -, hueq⟩ :=
    chunkIsProgrammed (goto .flWord { t with fl := some ⟨a, 0, ws.length⟩, led := true }) ⟨a, 0, ws.length⟩ A w old
      (hr.frame.par ▸ h.parWf) hf hsc (hr.frame.bootPhase.trans hph) (hr.frame.nvmOp.trans hnvm) rfl rfl
      (Nat.zero_le _) (hr.frame.par ▸ h.aligned) h.above hfit.even (hr.frame.par ▸ hfit.below) { hprog with }
      (fun j hj => by rw [Nat.zero_add]; exact hwords j hj)
  refine ⟨k + 1, u, (run_succ hflash k).trans hu, ?_, ?_, hprogu⟩
  · rw [hueq]
    exact ⟨hr.frame.listening h.ready.listening, ⟨hf, rfl, hr.frame.nvmOp.trans hnvm, hr.setupFull,
      hr.frame.busresetPending.trans hbus, hr.frame.bootPhase.trans hph⟩, hr.frame.intEn.trans h.ready.intEn, hr.rptLen⟩
  · rw [hueq]
    exact hr.frame.par

/-- The status stage: the IN of the host takes the packet that is armed, and nothing else. -/
theorem State.HostReady.step_status (h : u.HostReady) :
    ∃ v, step { u with script := [.host (.inp u.currentAddr 0)] } = .next v ∧ v.HostReady ∧ ReportFrame u v := by
  refine ⟨_, inTokenTakesTheArmedPacket { u with script := [.host (.inp u.currentAddr 0)] } [] h.listening rfl, ?_⟩
  split_ifs <;> exact ⟨⟨h.listening, h.quiescent, h.intEn, h.rptLen⟩, ⟨rfl⟩⟩

/-- One chunk: its transfer, the block's run behind it, and the status stage. -/
theorem SessionAt.transfer (h : SessionAt s A a w old) (hfit : ChunkFits s.par a ws)
    (hw : ∀ j (hj : j < ws.length), w ((a - A) / 2 + j) = ws[j]) :
    ∃ v, Transfers [chunkData s.par a ws] s v ∧ v.par = s.par ∧ SessionAt v A (a + 2 * ws.length) w old := by
  obtain ⟨t, ht, hts, hr⟩ := h.run_report hfit rfl
  obtain ⟨k, u, hu, hready, hpar, hprog⟩ := h.run_chunk hfit hw rfl hr hts
  obtain ⟨v, hv, hvready, hframe⟩ := hready.step_status
  have hvpar := hframe.par.trans hpar
  refine ⟨v, ⟨k, u, v, (run_add ht k).trans hu, hready.quiescent, hv, rfl⟩, hvpar, ?_⟩
  exact
    { ready := hvready
      parWf := hvpar ▸ h.parWf
      aligned := hvpar ▸ h.aligned
      above := Nat.le_add_right_of_le h.above
      prog := hframe.programmed hprog }

/-! ### The image -/

/-- Transfers one after the other. -/
theorem Transfers.cons {ds : List (List Byte)} (h : Transfers [d] s t) (h' : Transfers ds t u) :
    Transfers (d :: ds) s u := by
  obtain ⟨k, v, x, hv, hq, hx, rfl⟩ := h
  exact ⟨k, v, t, hv, hq, hx, h'⟩

/-- The chunks of the words that are left, one transfer each. -/
theorem SessionAt.transfers {s : State} {a : Nat} {wss : List (List Word16)} (h : SessionAt s A a w old)
    (heven : a % 2 = 0) (hb : a + 2 * wss.flatten.length ≤ s.par.bootStart)
    (hreach : a + 2 * wss.flatten.length ≤ 2 ^ 24 * addrScale s.par)
    (hsize : ∀ ws ∈ wss, 1 ≤ ws.length ∧ ws.length ≤ 64 ∧ (s.par.chunkMode = .fullBuffer → ws.length = 64))
    (hw : ∀ j (hj : j < wss.flatten.length), w ((a - A) / 2 + j) = wss.flatten[j]) :
    ∃ t, Transfers (chunksData s.par a wss) s t ∧ t.par = s.par ∧ SessionAt t A (a + 2 * wss.flatten.length) w old := by
  induction wss generalizing s a with
  | nil => exact ⟨s, rfl, rfl, h⟩
  | cons ws wss ih =>
    rw [List.flatten_cons, List.length_append] at hb hreach
    obtain ⟨hpos, hle, hmode⟩ := hsize ws List.mem_cons_self
    have hfit : ChunkFits s.par a ws := ⟨hpos, hle, hmode, heven, by omega, by omega⟩
    obtain ⟨v, hv, hpar, hsession⟩ := h.transfer hfit fun j hj => by
      have hword := hw j (by rw [List.flatten_cons, List.length_append]; omega)
      simpa [List.getElem_append_left hj] using hword
    have habove := h.above
    obtain ⟨t, ht, htpar, htsession⟩ := ih hsession (by omega) (by rw [hpar]; omega) (by rw [hpar]; omega)
      (fun ws' hws => by rw [hpar]; exact hsize ws' (List.mem_cons_of_mem _ hws))
      fun j hj => by
        have hword := hw (ws.length + j) (by rw [List.flatten_cons, List.length_append]; omega)
        have hindex : (a + 2 * ws.length - A) / 2 + j = (a - A) / 2 + (ws.length + j) := by omega
        rw [hindex, hword]
        simp
    have hend : a + 2 * ws.length + 2 * wss.flatten.length = a + 2 * (ws :: wss).flatten.length := by
      rw [List.flatten_cons, List.length_append]
      omega
    exact ⟨t, hv.cons (hpar ▸ ht), htpar.trans hpar, hend ▸ htsession⟩

/-- A session that begins at `A`. -/
theorem State.Programmed.start (hfl : s.flash.wf = true) (hpb : s.pbData = []) (htag : s.pbTag = none)
    (hA : A % s.par.pageSize = 0) (hlast : ∀ l, s.sessLast = some l → l < A) (w : Nat → Word16) :
    s.Programmed A A w s.flash where
  flashWf := hfl
  pbWf := by rw [hpb]; rfl
  flash := fun x => by
    rw [hA, if_neg (by omega)]
    simp
  buffer := fun k => by
    rw [hpb, hA, if_neg (Nat.not_lt_zero k)]
    rfl
  clear := fun _ => hpb
  tag := by rw [htag, if_pos hA]
  last := by rw [if_pos rfl]; exact hlast

/-- Settles O39: the induction over the chunks, from the start of the session, ends at a page boundary. -/
theorem chunksProgramTheImage : Obligations.ChunksProgramTheImage := by
  intro s A wss hwf hlisten hquiet _ hint hrpt hfl hpb htag hlast hA hwhole hb hreach hsize
  have hstart : SessionAt s A A (fun j => wss.flatten.getD j 0) s.flash :=
    ⟨⟨hlisten, hquiet, hint, hrpt⟩, hwf, hA, Nat.le_refl A, .start hfl hpb htag hA hlast _⟩
  obtain ⟨t, ht, hpar, hsession⟩ := hstart.transfers (even_of_aligned hwf hA) hb hreach hsize fun j hj => by
    rw [Nat.sub_self, Nat.zero_div, Nat.zero_add, List.getD_eq_getElem _ _ hj]
  have hend : (A + 2 * wss.flatten.length) % t.par.pageSize = 0 := by
    rw [hpar, Nat.add_mod, hA, hwhole]
    rfl
  refine ⟨t, ht, hsession.ready.quiescent, hsession.ready.listening, hsession.prog.clear hend, ?_, fun x => ?_⟩
  · rw [hsession.prog.tag, if_pos hend]
  · rw [hsession.prog.flash, hend, Nat.sub_zero]
    simp

end Sys2Proof.Machine
end

section
/-! SUPPORT. Events and faults (60_exceptions.md R270 to R282): once, for every move, what it does to the fault records and
to the request latch. -/

namespace Sys2Proof.Machine

/-- What a move can do to the fault records (10_state.md R39) and to the request latch (10_state.md R21): keep both, end
the request, record one fault with the engine state before the move (60_exceptions.md R280), or accept a SETUP, which
only an idle engine does (41_control_transfer.md R139). -/
inductive RecordStep (s t : State) : Prop
  | kept (hf : t.faults = s.faults) (hl : t.latch = s.latch)
  | ended (hf : t.faults = s.faults) (hl : t.latch = none)
  | raised (c : FaultCause) (hf : t.faults = s.faults ++ [⟨c, s.fsm⟩]) (hl : t.latch = s.latch)
  | accepted (hf : t.faults = s.faults) (hi : s.fsm = some .idle)

/-- A move keeps every record and adds at most one. -/
theorem RecordStep.faults {s t : State} (h : RecordStep s t) :
    t.faults = s.faults ∨ ∃ c, t.faults = s.faults ++ [⟨c, s.fsm⟩] := by
  cases h with
  | kept hf | ended hf | accepted hf => exact .inl hf
  | raised c hf => exact .inr ⟨c, hf⟩

/-- Away from `IDLE` no move latches a request. -/
theorem RecordStep.latch {s t : State} (h : RecordStep s t) (hne : s.fsm ≠ some .idle) :
    t.latch = s.latch ∨ t.latch = none := by
  cases h with
  | kept _ hl | raised _ _ hl => exact .inl hl
  | ended _ hl => exact .inr hl
  | accepted _ hi => exact absurd hi hne

/-! ### The operations that branch -/

theorem fillAndAdvance_recordStep (f : FlCtx) (w : Word16) (s : State) : RecordStep s (fillAndAdvance f w s) := by
  rcases fillAndAdvance_cases f w s with h | h | h <;> rw [h]
  · exact .kept rfl rfl
  · exact .kept rfl rfl
  · exact .raised _ rfl rfl

theorem writeWord_recordStep (f : FlCtx) (w : Word16) (s : State) : RecordStep s (writeWord f w s) := by
  rcases writeWord_cases f w s with ⟨c, -, h⟩ | ⟨-, -, h⟩ | ⟨-, -, h⟩ <;> rw [h]
  · exact .raised c rfl rfl
  · exact .kept rfl rfl
  · exact fillAndAdvance_recordStep f w s

@[simp] theorem receiveComplete_faults (s : State) : (receiveComplete s).faults = s.faults := by
  rcases receiveComplete_cases s with h | h <;> simp [h]

@[simp] theorem receiveComplete_latch (s : State) : (receiveComplete s).latch = s.latch := by
  rcases receiveComplete_cases s with h | h <;> simp [h]

@[simp] theorem lateAck_faults (s : State) : (lateAck s).faults = s.faults := by
  rcases lateAck_cases s with h | h <;> simp [h]

/-- SETUP is one of the two tokens that can record a fault, F09 (41_control_transfer.md R132). -/
theorem hostSetup_recordStep (tok : Token) (b : SetupPacket) (s : State) : RecordStep s (hostSetup tok b s) := by
  unfold hostSetup
  split
  · exact .raised _ rfl rfl
  · exact .kept rfl rfl

theorem hostOut_recordStep (tok : Token) (b : List Byte) (s : State) : RecordStep s (hostOut tok b s) := by
  unfold hostOut
  split
  · exact .kept rfl rfl
  · split <;> exact .kept rfl rfl

theorem hostIn_recordStep (tok : Token) (s : State) : RecordStep s (hostIn tok s) := by
  unfold hostIn
  split
  · exact .kept rfl rfl
  · split <;> exact .kept rfl rfl

/-- The bus reset is the other token that can record a fault, F10 (41_control_transfer.md R135). -/
theorem hostBusReset_recordStep (s : State) : RecordStep s (hostBusReset s) := by
  unfold hostBusReset
  split
  · exact .kept rfl rfl
  · split
    · exact .raised _ rfl rfl
    · exact .kept rfl rfl

theorem bootCapture_recordStep (s : State) : RecordStep s (bootCapture s) := by
  rcases bootDecide_cases { s with resetCause := s.rstcauseReg, rstcauseReg := Causes.none, wdtEnabled := false } with
    h | h <;> rw [bootCapture, h] <;> exact .kept rfl rfl

theorem tick_recordStep (s : State) : RecordStep s (tick s) := by
  rcases tick_cases s with h | ⟨_, h⟩ | ⟨_, h⟩ <;> rw [h] <;> exact .kept rfl rfl

/-! ### The segments of the engine -/

theorem exec_faults {i : Instr} {s t : State} (h : exec i s = .next t) : t.faults = s.faults := by
  obtain ⟨u, hu, hd⟩ := exec_dispatchStep i s
  obtain rfl : u = t := next_inj.1 (hu.symm.trans h)
  exact hd.sameBeyondDispatch.faults

theorem sendStep_recordStep {s t : State} (h : sendStep s = .next t) : RecordStep s t := by
  rcases sendStep_next h with ⟨-, rfl⟩ | ⟨_, -, -, ⟨-, rfl⟩ | ⟨-, rfl⟩⟩
  · exact .ended rfl rfl
  · exact .kept rfl rfl
  · exact .ended rfl rfl

theorem addrStep_recordStep {s t : State} (h : addrStep s = .next t) : RecordStep s t := by
  obtain ⟨_, -, rfl⟩ := addrStep_next h
  exact .ended rfl rfl

/-- Of F08 and F07 the receive step records the first that holds (60_exceptions.md R282). -/
theorem receiveStep_recordStep {s t : State} (h : receiveStep s = .next t) : RecordStep s t := by
  obtain ⟨_, _, -, -, ⟨-, rfl⟩ | ⟨-, rfl⟩ | ⟨-, -, ⟨-, rfl⟩ | rfl⟩⟩ := receiveStep_next h
  · exact .raised _ rfl rfl
  · exact .raised _ rfl rfl
  · exact .kept (by simp) (by simp)
  · exact .kept rfl rfl

theorem reportStep_recordStep {s t : State} (h : reportStep s = .next t) : RecordStep s t := by
  obtain ⟨_, -, ⟨-, rfl⟩ | ⟨-, hfl⟩ | ⟨-, -, rfl⟩⟩ := reportStep_next h
  · exact .kept rfl rfl
  · obtain ⟨_, _, -, -, rfl⟩ := flashReport_next hfl
    exact .kept rfl rfl
  · exact .ended (lateAck_faults s) rfl

theorem flWordStep_recordStep {s t : State} (h : flWordStep s = .next t) : RecordStep s t := by
  obtain ⟨f, -, ⟨-, rfl⟩ | ⟨-, w, -, rfl⟩⟩ := flWordStep_next h
  · exact .ended (lateAck_faults { s with led := false }) rfl
  · exact writeWord_recordStep f w s

theorem flEraseStep_recordStep {s t : State} (h : flEraseStep s = .next t) : RecordStep s t := by
  obtain ⟨f, w, -, -, rfl⟩ := flEraseStep_next h
  exact fillAndAdvance_recordStep f w s

/-- The engine accepts a SETUP in `IDLE` only (41_control_transfer.md R138, R139). -/
theorem engineStep_recordStep {s t : State} (h : engineStep s = .next t) : RecordStep s t := by
  rcases engineStep_next h with ⟨-, rfl⟩ | ⟨hi, h⟩ | ⟨-, h⟩ | ⟨-, h⟩ | ⟨-, h⟩ | ⟨-, h⟩ | ⟨-, h⟩ | ⟨-, h⟩ |
    ⟨-, rfl⟩ | ⟨-, rfl⟩
  · exact .kept rfl rfl
  · exact .accepted ((exec_faults h).trans (acceptSetup_faults s)) hi
  · exact sendStep_recordStep h
  · exact addrStep_recordStep h
  · exact receiveStep_recordStep h
  · exact reportStep_recordStep h
  · exact flWordStep_recordStep h
  · exact flEraseStep_recordStep h
  · exact .kept rfl rfl
  · exact .kept rfl rfl

/-! ### The turns of the agents -/

theorem hostToken_recordStep {tok : Token} {s t : State} (h : hostToken tok s = .next t) : RecordStep s t := by
  rcases hostToken_next h with ⟨_, -, rfl⟩ | ⟨_, _, -, -, -, rfl⟩ | ⟨_, _, -, -, -, -, rfl⟩ | ⟨_, -, -, -, rfl⟩ |
    ⟨-, rfl⟩
  · exact .kept rfl rfl
  · exact hostSetup_recordStep _ _ s
  · exact hostOut_recordStep _ _ s
  · exact hostIn_recordStep _ s
  · exact hostBusReset_recordStep s

theorem nvmStep_recordStep {s t : State} (h : nvmStep s = .next t) : RecordStep s t := by
  rcases nvmStep_next h with ⟨-, rfl⟩ | ⟨_, -, -, rfl⟩ | ⟨_, -, -, rfl⟩ <;> exact .kept rfl rfl

/-- The boot agent ends a request in the device reset after OFF only (70_reset_and_hazards.md R300). -/
theorem bootTurn_recordStep {s t : State} (h : bootTurn s = .next t) : RecordStep s t := by
  rcases bootTurn_next h with rfl | ⟨he, rfl⟩
  · exact .kept rfl rfl
  · rcases bootStep_cases he with ⟨-, hb⟩ | ⟨-, -, -, hb⟩ | ⟨-, -, hb⟩ <;> rw [hb]
    · exact bootCapture_recordStep s
    · exact tick_recordStep s
    · exact .ended rfl rfl

theorem runMove_recordStep {m : Move} {s t : State} (h : runMove m s = .next t) : RecordStep s t := by
  cases m with
  | host tok => exact hostToken_recordStep h
  | physReset c =>
    rw [← next_inj.1 h]
    exact .ended rfl rfl
  | nvm => exact nvmStep_recordStep h
  | busHandler => rcases busHandlerTurn_next h with rfl | ⟨-, rfl⟩ <;> exact .kept rfl rfl
  | engine =>
    rcases engineTurn_next h with rfl | ⟨-, h⟩
    · exact .kept rfl rfl
    · exact engineStep_recordStep h
  | boot => exact bootTurn_recordStep h

/-- A step is one move, made after the script is advanced, which touches neither the records nor the latch. -/
theorem step_recordStep {s t : State} (h : step s = .next t) : RecordStep s t := by
  obtain ⟨-, m, -, hm⟩ := step_next h
  cases runMove_recordStep hm with
  | kept hf hl => exact .kept hf hl
  | ended hf hl => exact .ended hf hl
  | raised c hf hl => exact .raised c hf hl
  | accepted hf hi => exact .accepted hf hi

/-! ### Faults (R279 to R282) -/

theorem step_faulted {s : State} (h : s.faults ≠ []) : step s = .fault .faulted := if_pos h

/-- Settles O40: only a state without a record has a next state, so the record a step adds is the only one. -/
theorem faultsAreStickyAndOneAtATime : Obligations.FaultsAreStickyAndOneAtATime := by
  intro s
  refine ⟨step_faulted, fun t h => ?_⟩
  obtain ⟨hnil, -⟩ := step_next h
  simpa only [hnil, List.nil_append] using (step_recordStep h).faults

/-! ### No handler is preempted (R273) -/

theorem busHandlerTurn_disabled {s : State} (h : busHandlerEnabled s = false) : busHandlerTurn s = .next s := by
  simp [busHandlerTurn, h]

theorem not_idle_of_handlerRunning {s : State} (h : handlerRunning s.fsm = true) : s.fsm ≠ some .idle := by
  intro hi
  rw [hi] at h
  exact absurd h nofun

/-- The tick has no step while a handler of the engine runs (R273; log 15). -/
theorem bootTurn_window_of_handlerRunning {s : State} (h : handlerRunning s.fsm = true) (hp : s.bootPhase = .window) :
    bootTurn s = .next s := by
  simp [bootTurn, bootEnabled, hp, h]

/-- Settles O41: a running handler is not in `IDLE`, which the bus-reset handler and the acceptance of a SETUP need. -/
theorem runningHandlerIsNotPreempted : Obligations.RunningHandlerIsNotPreempted := by
  intro s h
  have hne := not_idle_of_handlerRunning h
  exact ⟨busHandlerTurn_disabled (busHandler_off hne), bootTurn_window_of_handlerRunning h,
    fun t ht => (step_recordStep ht).latch hne⟩

/-! ### The order of the two USB events (R274, R311) -/

/-- A pending bus reset keeps an idle engine from accepting a SETUP (R274; 41_control_transfer.md R139). -/
theorem fsmEnabled_of_busReset {s : State} (hi : s.fsm = some .idle) (hb : s.busresetPending = true) :
    fsmEnabled s = false := by
  simp [fsmEnabled, hi, hb]

/-- The unscripted block with an idle NVM agent gives an enabled bus-reset handler the turn. -/
theorem idleTurn_busHandler {s : State} (hn : s.nvmOp = .idle) (hb : busHandlerEnabled s = true) :
    idleTurn s = .next (busResetHandler s) := by
  simp [idleTurn, nvmEnabled, hn, hb]

/-- Settles O42: the pending bus reset disables the engine and enables its own handler. -/
theorem busResetIsServicedFirst : Obligations.BusResetIsServicedFirst := by
  intro s hf hs hn hi hp hint hb
  exact ⟨engineTurn_waiting (fsmEnabled_of_busReset hi hb),
    (step_unscripted hf hs).trans (idleTurn_busHandler hn (busHandlerEnabled_iff.2 ⟨hb, hint, hi, hp⟩))⟩

end Sys2Proof.Machine
end

section
/-! SUPPORT. Reset and boot (70_reset_and_hazards.md §1, §2): the device reset of a scripted move, the boot decision, and
the boot window tick by tick. -/

namespace Sys2Proof.Machine

/-! ### The turn of the boot agent -/

/-- Before phase USB the engine has no step (41_control_transfer.md R139). -/
theorem engineEnabled_off {s : State} (h : s.bootPhase ≠ .usb) : engineEnabled s = false := by
  simp [engineEnabled, h]

/-- Before phase USB the bus-reset handler has no step (R311). -/
theorem busHandlerEnabled_off {s : State} (h : s.bootPhase ≠ .usb) : busHandlerEnabled s = false := by
  simp [busHandlerEnabled, h]

/-- Before phase USB the unscripted block with an idle NVM agent gives an enabled boot agent the turn. -/
theorem step_bootStep {s : State} (hf : s.faults = []) (hs : s.script = []) (hn : s.nvmOp = .idle)
    (hp : s.bootPhase ≠ .usb) (hb : bootEnabled s = true) : step s = .next (bootStep s) := by
  rw [step_unscripted hf hs]
  simp [idleTurn, nvmEnabled, hn, busHandlerEnabled_off hp, engineEnabled_off hp, hb]

/-! ### Device reset (R300, R301) -/

/-- What a device reset leaves does not depend on the moves still to come (log 1). -/
theorem AfterDeviceReset.of_withScript {c : Causes} {s t : State} {l : List Move}
    (h : AfterDeviceReset c { s with script := l } t) : AfterDeviceReset c s t := { h with }

/-- Settles O51: the scripted move is the device reset, with the one cause of the move. -/
theorem physicalResetGivesTheDevState : Obligations.PhysicalResetGivesTheDevState := by
  intro s rest c hf hwf hs
  have hdev := (afterDeviceReset_deviceReset (s := { s with script := rest }) (.inr hwf) c.causes).of_withScript
  refine ⟨_, step_scripted hf hs, rfl, hdev, ?_, ?_, ?_⟩
  · rintro rfl
    exact hdev.rstcauseReg
  · rintro rfl
    exact ⟨by simpa [PhysCause.causes] using hdev.rstcauseReg, hdev.magicKey rfl rfl⟩
  · rintro rfl
    simpa [PhysCause.causes] using hdev.rstcauseReg

/-- Settles O50: each field of `State.reset` is written so; the sizes are those of the invariant at reset. -/
theorem resetStateHasTheSpecsValues : Obligations.ResetStateHasTheSpecsValues :=
  ⟨rfl, rfl, rfl, rfl, rfl, rfl, rfl, rfl, rfl, rfl, rfl, rfl, rfl, rfl, rfl, rfl, rfl, rfl, fun _ => rfl, rfl, rfl, rfl,
    rfl, rfl, rfl, rfl, rfl, rfl, rfl, rfl, rfl, invariantHoldsAtReset.data.rpt, invariantHoldsAtReset.data.magic⟩

/-! ### The boot decision (R302 to R304) -/

/-- The causes captured and cleared, the watchdog disabled (R302). -/
def State.captured (s : State) : State :=
  { s with resetCause := s.rstcauseReg, rstcauseReg := Causes.none, wdtEnabled := false }

theorem bootDecide_window {s : State} (he : s.resetCause.external = true) (hm : s.magicKey ≠ s.par.magicKeyValue)
    (hw : s.par.bootWindow = .present) : bootDecide s = windowStart s := by
  simp [bootDecide, he, hm, hw]

theorem bootDecide_usb {s : State}
    (h : s.resetCause.external = false ∨ s.magicKey = s.par.magicKeyValue ∨ s.par.bootWindow = .absent) :
    bootDecide s = usbInit s := by
  unfold bootDecide
  split
  · next hc =>
    have hw : s.par.bootWindow = .absent := (h.resolve_left (by simp [hc.1])).resolve_left hc.2
    rw [hw]
  · rfl

/-- Neither outcome of the decision writes the causes or the watchdog. -/
theorem bootDecide_causes (s : State) :
    (bootDecide s).resetCause = s.resetCause ∧ (bootDecide s).rstcauseReg = s.rstcauseReg ∧
      (bootDecide s).wdtEnabled = s.wdtEnabled := by
  rcases bootDecide_cases s with h | h <;> rw [h] <;> exact ⟨rfl, rfl, rfl⟩

/-- Settles O52: the decision is made on the state with the causes captured. -/
theorem bootStepDecides : Obligations.BootStepDecides := by
  intro s hf hs hn hp
  have hstep : step s = .next (bootDecide s.captured) := by
    rw [step_bootStep hf hs hn (by simp [hp]) (by simp [bootEnabled, hp]), bootStep, hp]
    rfl
  obtain ⟨hcause, hreg, hwdt⟩ := bootDecide_causes s.captured
  refine ⟨_, hstep, hcause, hreg, hwdt, fun he hm hw => ?_, fun h => ?_⟩
  · rw [bootDecide_window (s := s.captured) he hm hw]
    exact ⟨rfl, rfl, rfl, rfl, rfl, rfl, rfl⟩
  · rw [bootDecide_usb (s := s.captured) h]
    exact ⟨rfl, rfl, rfl, rfl, rfl, rfl, rfl, rfl, rfl, rfl, rfl⟩

/-! ### The boot window (R305 to R308) -/

/-- The unscripted block waits in its boot window, with the tick enabled (60_exceptions.md R271, R273). -/
structure State.InWindow (s : State) : Prop where
  faults       : s.faults = []
  script       : s.script = []
  nvmOp        : s.nvmOp = .idle
  bootPhase    : s.bootPhase = .window
  fsm          : s.fsm = none
  timerRunning : s.timerRunning = true
  intEn        : s.intEn = true

/-- The state with `n` ticks counted (R305). -/
def State.ticked (s : State) (n : Nat) : State := { s with timeoutCounter := BitVec.ofNat 16 n }

/-- The counter holds every count below 2^16 (D42). -/
theorem State.count_ticked (s : State) {n : Nat} (hn : n < 2 ^ 16) : (s.ticked n).timeoutCounter.toNat = n :=
  (BitVec.toNat_ofNat ..).trans (Nat.mod_eq_of_lt hn)

theorem State.InWindow.ticked {s : State} (h : s.InWindow) (n : Nat) : (s.ticked n).InWindow := { h with }

theorem State.InWindow.step_tick {s : State} (h : s.InWindow) : step s = .next (tick s) := by
  have hb : bootEnabled s = true := by
    simp [bootEnabled, handlerRunning, h.bootPhase, h.timerRunning, h.intEn, h.fsm]
  rw [step_bootStep h.faults h.script h.nvmOp (by simp [h.bootPhase]) hb, bootStep, h.bootPhase]

/-- A tick counts one more, and at BOOT_TIMEOUT_TICKS it ends the window (R305, R306). -/
theorem tick_ticked (s : State) {n : Nat} (hn : n + 1 < 2 ^ 16) :
    tick (s.ticked n) =
      if n + 1 = s.par.bootTimeoutTicks then windowTimeout (s.ticked (n + 1)) else s.ticked (n + 1) := by
  have hcount : BitVec.ofNat 16 n + 1 = BitVec.ofNat 16 (n + 1) := (BitVec.ofNat_add n 1).symm
  have hval : (BitVec.ofNat 16 (n + 1)).toNat = n + 1 := s.count_ticked hn
  simp only [tick, State.ticked, hcount, hval]

/-- Up to the last tick the window stays open, with nothing changed but the count. -/
theorem State.InWindow.run_ticks {s : State} (h : s.InWindow) (h0 : s.timeoutCounter = 0)
    (hmax : s.par.bootTimeoutTicks ≤ 2 ^ 16) {n : Nat} (hn : n < s.par.bootTimeoutTicks) :
    Host.Core.run Sys2Proof.core n s = (.next (s.ticked n) : Result) := by
  induction n with
  | zero =>
    have hs : s.ticked 0 = s := by rw [State.ticked, show BitVec.ofNat 16 0 = s.timeoutCounter from h0.symm]
    rw [hs, run_zero]
  | succ n ih =>
    have hstep : step (s.ticked n) = .next (s.ticked (n + 1)) := by
      rw [(h.ticked n).step_tick, tick_ticked s (by omega), if_neg (by omega)]
    rw [run_add (ih (by omega)) 1, run_succ hstep 0, run_zero]

/-- While read-while-write is on, boot reads the stored byte (20_memory.md R73). -/
theorem flashRead_of_rwwEnabled {s : State} (h : s.rwwEnabled = true) (a : Nat) :
    flashRead a s = (s.flash.read a, s) := by
  simp [flashRead, h]

/-- The end of the window clears the magic key, stops the timer, and decides on byte 0 (R306). -/
theorem windowTimeout_of_rwwEnabled {s : State} (h : s.rwwEnabled = true) :
    windowTimeout s = bootChoice (s.flash.read 0) { s with timerRunning := false, magicKey := 0 } := by
  rw [windowTimeout, flashRead_of_rwwEnabled (s := { s with timerRunning := false, magicKey := 0 }) h]

theorem bootChoice_app {b : Byte} (h : b ≠ 0xFF) (s : State) : bootChoice b s = jumpApp s := if_pos h

theorem bootChoice_usb {b : Byte} (h : b = 0xFF) (s : State) : bootChoice b s = usbInit s := if_neg (not_not.2 h)

/-- The choice writes neither the magic key, nor the timer's count, and leaves a stopped timer stopped. -/
theorem bootChoice_boot {s : State} (h : s.timerRunning = false) (b : Byte) :
    (bootChoice b s).magicKey = s.magicKey ∧ (bootChoice b s).timerRunning = false ∧
      (bootChoice b s).timeoutCounter = s.timeoutCounter := by
  by_cases hb : b = 0xFF
  · rw [bootChoice_usb hb]
    exact ⟨rfl, rfl, rfl⟩
  · rw [bootChoice_app hb]
    exact ⟨rfl, h, rfl⟩

/-- Settles O53: all ticks but the last keep the window open, and the last one decides on byte 0 of FLASH. -/
theorem bootWindowEndsAfterItsTicks : Obligations.BootWindowEndsAfterItsTicks := by
  intro s hpar hf hs hn hp hfsm htimer hint hrww h0
  have h : s.InWindow := ⟨hf, hs, hn, hp, hfsm, htimer, hint⟩
  obtain ⟨-, -, -, -, -, -, hpos, hmax⟩ := Params.wf_numbers hpar
  have counted {n : Nat} (hle : n ≤ s.par.bootTimeoutTicks) : (s.ticked n).timeoutCounter.toNat = n :=
    s.count_ticked (by omega)
  refine ⟨fun n hlt => ⟨_, h.run_ticks h0 (by omega) hlt, hp, counted hlt.le, rfl⟩, ?_⟩
  obtain ⟨k, hk⟩ : ∃ k, s.par.bootTimeoutTicks = k + 1 := Nat.exists_eq_add_of_le' hpos
  have hlast : step (s.ticked k) = .next (windowTimeout (s.ticked (k + 1))) := by
    rw [(h.ticked k).step_tick, tick_ticked s (by omega), if_pos hk.symm]
  have hrun : Host.Core.run Sys2Proof.core s.par.bootTimeoutTicks s =
      (.next (windowTimeout (s.ticked s.par.bootTimeoutTicks)) : Result) := by
    rw [hk, run_add (h.run_ticks h0 (by omega) (by omega)) 1, run_succ hlast 0, run_zero]
  rw [windowTimeout_of_rwwEnabled (s := s.ticked _) hrww] at hrun
  obtain ⟨hkey, hstop, hcount⟩ := bootChoice_boot
    (s := { s.ticked s.par.bootTimeoutTicks with timerRunning := false, magicKey := 0 }) rfl (s.flash.read 0)
  refine ⟨_, hrun, hkey, hstop, (congrArg BitVec.toNat hcount).trans (counted le_rfl), fun hb => ?_, fun hb => ?_⟩
  · rw [bootChoice_app (b := (s.ticked _).flash.read 0) hb]
    exact ⟨rfl, hfsm, rfl⟩
  · rw [bootChoice_usb (b := (s.ticked _).flash.read 0) hb]
    exact ⟨rfl, rfl, rfl, rfl⟩

end Sys2Proof.Machine
end

section
/-! SUPPORT. The address registers (10_state.md R25): every move keeps them or disables the address, but for the end of
SET_ADDRESS (41_control_transfer.md R149, 70_reset_and_hazards.md R320). -/

namespace Sys2Proof.Machine

/-- `addr_en` and `dev_addr` (10_state.md R25). -/
def State.addressReg (s : State) : Bool × DevAddr := (s.addrEn, s.devAddr)

/-- What a move can do to the address registers: keep both, disable the address, or store `new_addr` at the end of
SET_ADDRESS, with its status packet taken (R149). -/
inductive AddressStep (s t : State) : Prop
  | kept (h : t.addressReg = s.addressReg)
  | disabled (h : t.addrEn = false)
  | stored (hw : s.fsm = some .addrWait) (ha : s.ep0InArmed = false) (hn : s.newAddr = some t.devAddr)

/-- A move that enables the address, or changes it while enabled, stores it. -/
theorem AddressStep.stored_of_change {s t : State} (h : AddressStep s t) (he : t.addrEn = true)
    (hc : s.addrEn = false ∨ t.devAddr ≠ s.devAddr) :
    s.fsm = some .addrWait ∧ s.ep0InArmed = false ∧ s.newAddr = some t.devAddr := by
  cases h with
  | kept h =>
    obtain ⟨hen, hdev⟩ : t.addrEn = s.addrEn ∧ t.devAddr = s.devAddr := Prod.mk.inj h
    rcases hc with hs | hd
    · exact absurd (he.symm.trans (hen.trans hs)) nofun
    · exact absurd hdev hd
  | disabled h => exact absurd (he.symm.trans h) nofun
  | stored hw ha hn => exact ⟨hw, ha, hn⟩

/-! ### The operations that branch -/

theorem fillAndAdvance_addressReg (f : FlCtx) (w : Word16) (s : State) :
    (fillAndAdvance f w s).addressReg = s.addressReg := by
  rcases fillAndAdvance_cases f w s with h | h | h <;> rw [h] <;> rfl

theorem writeWord_addressReg (f : FlCtx) (w : Word16) (s : State) : (writeWord f w s).addressReg = s.addressReg := by
  rcases writeWord_cases f w s with ⟨c, -, h⟩ | ⟨-, -, h⟩ | ⟨-, -, h⟩ <;> rw [h]
  · rfl
  · rfl
  · exact fillAndAdvance_addressReg f w s

theorem receiveComplete_addressReg (s : State) : (receiveComplete s).addressReg = s.addressReg := by
  rcases receiveComplete_cases s with h | h <;> rw [h] <;> rfl

theorem lateAck_addressReg (s : State) : (lateAck s).addressReg = s.addressReg := by
  rcases lateAck_cases s with h | h
  · rw [h]
  · rw [h]
    rfl

theorem hostSetup_addressReg (tok : Token) (b : SetupPacket) (s : State) :
    (hostSetup tok b s).addressReg = s.addressReg := by
  unfold hostSetup
  split <;> rfl

theorem hostOut_addressReg (tok : Token) (b : List Byte) (s : State) : (hostOut tok b s).addressReg = s.addressReg := by
  unfold hostOut
  split
  · rfl
  · split <;> rfl

theorem hostIn_addressReg (tok : Token) (s : State) : (hostIn tok s).addressReg = s.addressReg := by
  unfold hostIn
  split
  · rfl
  · split <;> rfl

/-- A bus reset that acts disables the address (41_control_transfer.md R135). -/
theorem hostBusReset_addressStep (s : State) : AddressStep s (hostBusReset s) := by
  unfold hostBusReset
  split
  · exact .kept rfl
  · split
    · exact .kept rfl
    · exact .disabled rfl

theorem bootCapture_addressReg (s : State) : (bootCapture s).addressReg = s.addressReg := by
  rcases bootDecide_cases { s with resetCause := s.rstcauseReg, rstcauseReg := Causes.none, wdtEnabled := false } with
    h | h <;> rw [bootCapture, h] <;> rfl

theorem tick_addressReg (s : State) : (tick s).addressReg = s.addressReg := by
  rcases tick_cases s with h | ⟨_, h⟩ | ⟨_, h⟩ <;> rw [h] <;> rfl

/-! ### The segments of the engine -/

theorem exec_addressReg {i : Instr} {s t : State} (h : exec i s = .next t) : t.addressReg = s.addressReg := by
  obtain ⟨u, hu, hd⟩ := exec_dispatchStep i s
  obtain rfl : u = t := next_inj.1 (hu.symm.trans h)
  exact Prod.ext hd.sameBeyondDispatch.addrEn hd.sameBeyondDispatch.devAddr

theorem sendStep_addressReg {s t : State} (h : sendStep s = .next t) : t.addressReg = s.addressReg := by
  rcases sendStep_next h with ⟨-, rfl⟩ | ⟨_, -, -, ⟨-, rfl⟩ | ⟨-, rfl⟩⟩ <;> rfl

theorem receiveStep_addressReg {s t : State} (h : receiveStep s = .next t) : t.addressReg = s.addressReg := by
  obtain ⟨_, rx, -, -, ⟨-, rfl⟩ | ⟨-, rfl⟩ | ⟨-, -, ⟨-, rfl⟩ | rfl⟩⟩ := receiveStep_next h
  · rfl
  · rfl
  · exact receiveComplete_addressReg (storePacket rx s)
  · rfl

/-- Of the feature reports the exit report alone writes the address registers, as USB goes off
(42_hid_feature_reports.md R197). -/
theorem reportStep_addressStep {s t : State} (h : reportStep s = .next t) : AddressStep s t := by
  obtain ⟨_, -, ⟨-, rfl⟩ | ⟨-, hfl⟩ | ⟨-, -, rfl⟩⟩ := reportStep_next h
  · exact .disabled rfl
  · obtain ⟨_, _, -, -, rfl⟩ := flashReport_next hfl
    exact .kept rfl
  · exact .kept (lateAck_addressReg s)

theorem flWordStep_addressReg {s t : State} (h : flWordStep s = .next t) : t.addressReg = s.addressReg := by
  obtain ⟨f, -, ⟨-, rfl⟩ | ⟨-, w, -, rfl⟩⟩ := flWordStep_next h
  · exact lateAck_addressReg { s with led := false }
  · exact writeWord_addressReg f w s

theorem flEraseStep_addressReg {s t : State} (h : flEraseStep s = .next t) : t.addressReg = s.addressReg := by
  obtain ⟨f, w, -, -, rfl⟩ := flEraseStep_next h
  exact fillAndAdvance_addressReg f w s

/-- At ADDR_WAIT the engine is enabled once the status packet has been taken (R139, R149). -/
theorem ep0InArmed_of_addrWait {s : State} (h : engineEnabled s = true) (hw : s.fsm = some .addrWait) :
    s.ep0InArmed = false := by
  obtain ⟨-, -, he⟩ := engineEnabled_iff.1 h
  simpa [fsmEnabled, hw] using he

theorem engineTurn_addressStep {s t : State} (h : engineTurn s = .next t) : AddressStep s t := by
  rcases engineTurn_next h with rfl | ⟨hen, h⟩
  · exact .kept rfl
  rcases engineStep_next h with ⟨-, rfl⟩ | ⟨-, h⟩ | ⟨-, h⟩ | ⟨hw, h⟩ | ⟨-, h⟩ | ⟨-, h⟩ | ⟨-, h⟩ | ⟨-, h⟩ |
    ⟨-, rfl⟩ | ⟨-, rfl⟩
  · exact .kept rfl
  · exact .kept ((exec_addressReg h).trans rfl)
  · exact .kept (sendStep_addressReg h)
  · obtain ⟨a, ha, rfl⟩ := addrStep_next h
    exact .stored hw (ep0InArmed_of_addrWait hen hw) ha
  · exact .kept (receiveStep_addressReg h)
  · exact reportStep_addressStep h
  · exact .kept (flWordStep_addressReg h)
  · exact .kept (flEraseStep_addressReg h)
  · exact .kept rfl
  · exact .kept rfl

/-! ### The turns of the other agents -/

theorem hostToken_addressStep {tok : Token} {s t : State} (h : hostToken tok s = .next t) : AddressStep s t := by
  rcases hostToken_next h with ⟨_, -, rfl⟩ | ⟨_, _, -, -, -, rfl⟩ | ⟨_, _, -, -, -, -, rfl⟩ | ⟨_, -, -, -, rfl⟩ |
    ⟨-, rfl⟩
  · exact .kept rfl
  · exact .kept (hostSetup_addressReg _ _ s)
  · exact .kept (hostOut_addressReg _ _ s)
  · exact .kept (hostIn_addressReg _ s)
  · exact hostBusReset_addressStep s

theorem nvmStep_addressReg {s t : State} (h : nvmStep s = .next t) : t.addressReg = s.addressReg := by
  rcases nvmStep_next h with ⟨-, rfl⟩ | ⟨_, -, -, rfl⟩ | ⟨_, -, -, rfl⟩ <;> rfl

/-- The boot agent writes the address registers in the device reset after OFF only (70_reset_and_hazards.md R300). -/
theorem bootTurn_addressStep {s t : State} (h : bootTurn s = .next t) : AddressStep s t := by
  rcases bootTurn_next h with rfl | ⟨he, rfl⟩
  · exact .kept rfl
  · rcases bootStep_cases he with ⟨-, hb⟩ | ⟨-, -, -, hb⟩ | ⟨-, -, hb⟩ <;> rw [hb]
    · exact .kept (bootCapture_addressReg s)
    · exact .kept (tick_addressReg s)
    · exact .disabled rfl

theorem runMove_addressStep {m : Move} {s t : State} (h : runMove m s = .next t) : AddressStep s t := by
  cases m with
  | host tok => exact hostToken_addressStep h
  | physReset c =>
    rw [← next_inj.1 h]
    exact .disabled rfl
  | nvm => exact .kept (nvmStep_addressReg h)
  | busHandler => rcases busHandlerTurn_next h with rfl | ⟨-, rfl⟩ <;> exact .kept rfl
  | engine => exact engineTurn_addressStep h
  | boot => exact bootTurn_addressStep h

/-- Settles O60: a step is one move, made after the script is advanced, and only a move that stores `new_addr` enables the
address or changes an enabled one. -/
theorem addressTakesEffectOnlyAfterTheAck : Obligations.AddressTakesEffectOnlyAfterTheAck := by
  intro s t h he hc
  obtain ⟨-, m, -, hm⟩ := step_next h
  exact (runMove_addressStep hm).stored_of_change he hc

end Sys2Proof.Machine
end
